-- ==== Sys2Proof/Word.lean ====
section
/-! DEFINITION. The words of the hardware: bytes, 16-bit integers, the command word and its payload
(00_scope.md R5, R9; 30_encoding.md R91, R93). -/

namespace Sys2Proof

/-- An unsigned byte: an address or a data byte (R9). -/
abbrev Byte := BitVec 8

/-- An unsigned integer operand or result element, 16 bits where R91 to R93 place it (`W_INT`, log 21). -/
abbrev Word16 := BitVec 16

/-- The command word `C`, bits 127 to 0 (R91; `W_CMD`, log 21). -/
abbrev Command := BitVec 128

/-- The 112-bit payload of a command word, and the value field of a response word (R91, R93). -/
abbrev Payload := BitVec 112

end Sys2Proof
end

