-- ==== Sys2Proof/Config.lean ====
section
/-! DEFINITION. What is fixed for one machine (the record `Cfg` of 00_scope.md R5) and the free values:
what the spec leaves open, as constants without a body. -/

namespace Sys2Proof

/-- `T_EDGE` of the default configuration (R5, R231, D17): the least time between two consecutive line events. The
spec gives it no value. -/
opaque Config.tEdge : Nat

/-- The configuration record `Cfg` (00_scope.md R5). Every field is a parameter that a claim may quantify
over: `State` carries the record, and no step changes it. No rule reads `T_EDGE` (R231, U12); the bit positions of R91 to
R93 hold only for one value of `W_INT` and of `W_CMD`, which an admissible configuration has (log 21). -/
structure Cfg where
  addrSecond  : Byte
  addrMinute  : Byte
  addrHour    : Byte
  addrDay     : Byte
  addrMonth   : Byte
  addrWeekday : Byte
  addrYear    : Byte
  addrWp      : Byte
  addrCtrl    : Byte
  addrRam     : Byte
  ramStride   : Nat
  ramCells    : Nat
  readOffset  : Nat
  wpOff       : Byte
  wpOn        : Byte
  chBit       : Fin 8
  mSecond     : Nat
  mMinute     : Nat
  mHour       : Nat
  mDay        : Nat
  mMonth      : Nat
  mWeekday    : Nat
  mYear       : Nat
  yearBase    : Nat
  tEdge       : Nat
  lineFaults  : Bool
  wInt        : Nat
  wCmd        : Nat
  deriving DecidableEq, Repr

/-- The defaults of R5. The ten addresses are general knowledge and no fact about a chip (PRESUMED,
decision D8, log 1); `RAM_STRIDE` is decision D9, `W_INT` D4, `W_CMD` D2. -/
def Cfg.default : Cfg where
  addrSecond  := 0x80
  addrMinute  := 0x82
  addrHour    := 0x84
  addrDay     := 0x86
  addrMonth   := 0x88
  addrWeekday := 0x8A
  addrYear    := 0x8C
  addrWp      := 0x8E
  addrCtrl    := 0x90
  addrRam     := 0xC0
  ramStride   := 2
  ramCells    := 31
  readOffset  := 1
  wpOff       := 0x00
  wpOn        := 0x80
  chBit       := 7
  mSecond     := 60
  mMinute     := 60
  mHour       := 24
  mDay        := 32
  mMonth      := 13
  mWeekday    := 7
  mYear       := 100
  yearBase    := 2000
  tEdge       := Config.tEdge
  lineFaults  := false
  wInt        := 16
  wCmd        := 128

/-- Which observation of an undriven wire is made at a line event (10_state.md R22: each is a fresh draw).
`sample`: the controller's `GET(DIO)`; `chip`: the peripheral's sample of `DIO` at a rising clock edge;
`before` and `after`: the level of the event's own line as the peripheral sees it before and after the
event; `select`: the level of `CS` that the peripheral sees at a clock edge. -/
inductive Observation where
  | sample | chip | before | after | select
  deriving DecidableEq, Repr

/-- Free value (R22, D18, U7): the level seen on a wire nobody drives, by the observation made and the
number of the line event it is made at. -/
opaque Config.floatLevel : Observation → Nat → Bool

/-- Free value (R22, C11, D18): the one unknown level an output without a level holds from its `DIR(L,out)`
event on, by the number of that event. -/
opaque Config.heldLevel : Nat → Bool

/-- Free value (R230, U13): what the peripheral samples on `DIO` when both sides drive it, by the number of
the event. -/
opaque Config.contendedLevel : Nat → Bool

/-- Free value (R37, U9): what a peripheral register that no write frame has reached holds, by its write
address. -/
opaque Config.powerUp : Nat → Byte

/-- Free value (R69, U4): the byte a read frame at an unmapped address presents, by the number of the event
at which the peripheral latches it. -/
opaque Config.unmappedByte : Nat → Byte

/-- Free value (R74, D27): what a running chip has made of a calendar register when a frame begins, by the
number of the event and the place of the field in the calendar snapshot. -/
opaque Config.tickByte : Nat → Nat → Byte

/-- Free value (R193, D16): whether the line event of this number fails, when `LINE_FAULTS` is true. -/
opaque Config.lineFails : Nat → Bool

/-- Free value (R67: no rule is given for a `CS` edge while `CLK` is high): how many rising edges the
peripheral counts as seen after such an edge, by the number of the event. -/
opaque Config.strayCount : Nat → Nat

/-- Free value (R67, as `strayCount`): the three bytes `ab`, `db`, `ob` after such an edge. -/
opaque Config.strayByte : Nat → Nat → Byte

/-- Free value (R67, as `strayCount`): what the peripheral drives after such an edge. -/
opaque Config.strayDrive : Nat → Option Bool

/-- Free value (R37: unspecified after reset, "a draw, never 0"; log 2): `sh` after a reset, by the number of
line events before it. -/
opaque Config.resetSh : Nat → Byte

/-- Free value (R37, as `resetSh`): `acc` after a reset. -/
opaque Config.resetAcc : Nat → Byte

/-- Free value (R37, as `resetSh`): `i` after a reset. -/
opaque Config.resetIndex : Nat → Fin 8

/-- Free value (R37, as `resetSh`): `t` after a reset. -/
opaque Config.resetT : Nat → Byte

/-- Free value (R37, as `resetSh`): `C` after a reset. -/
opaque Config.resetCommand : Nat → Command

end Sys2Proof
end

