-- ==== Sys2Proof/Syntax.lean ====
section
/-! DEFINITION. The operations: one constructor for each of the 28 rows of spec/opcode_table.json
(30_encoding.md R95), with the operands their formats free (R92, R94). -/

namespace Sys2Proof

/-- The operations (30_encoding.md R95). Operands are exactly as wide as the fields of the command word, so
that every operand value of a constructor is legal (R96: "no operand value is illegal") and none outside the
field can be written (U18). -/
inductive Instr where
  /-- `INIT` -/
  | init
  /-- `WRITE_BYTE b` -/
  | writeByte (b : Byte)
  /-- `READ_BYTE` -/
  | readByte
  /-- `GET_REG addr` -/
  | getReg (addr : Byte)
  /-- `SET_REG addr, b` -/
  | setReg (addr : Byte) (b : Byte)
  /-- `WP_WRITE addr, b` -/
  | wpWrite (addr : Byte) (b : Byte)
  /-- `START` -/
  | start
  /-- `STOP` -/
  | stop
  /-- `DEC2BCD n` -/
  | dec2bcd (n : Byte)
  /-- `BCD2DEC n` -/
  | bcd2dec (n : Byte)
  /-- `GET_SECOND` -/
  | getSecond
  /-- `GET_MINUTE` -/
  | getMinute
  /-- `GET_HOUR` -/
  | getHour
  /-- `GET_DAY` -/
  | getDay
  /-- `GET_MONTH` -/
  | getMonth
  /-- `GET_WEEKDAY` -/
  | getWeekday
  /-- `GET_YEAR` -/
  | getYear
  /-- `GET_DATETIME` -/
  | getDatetime
  /-- `SET_SECOND v` -/
  | setSecond (v : Word16)
  /-- `SET_MINUTE v` -/
  | setMinute (v : Word16)
  /-- `SET_HOUR v` -/
  | setHour (v : Word16)
  /-- `SET_DAY v` -/
  | setDay (v : Word16)
  /-- `SET_MONTH v` -/
  | setMonth (v : Word16)
  /-- `SET_WEEKDAY v` -/
  | setWeekday (v : Word16)
  /-- `SET_YEAR v` -/
  | setYear (v : Word16)
  /-- `SET_DATETIME t0, …, t6`: year, month, day, weekday, hour, minute, second (R55 (c), R91) -/
  | setDatetime (y mo d wd h mi s : Word16)
  /-- `READ_RAM idx` -/
  | readRam (idx : Word16)
  /-- `WRITE_RAM idx, b` -/
  | writeRam (idx : Word16) (b : Byte)
  deriving DecidableEq, Repr

/-- The seven calendar fields (10_state.md R31, R32). -/
inductive Field where
  | second | minute | hour | day | month | weekday | year
  deriving DecidableEq, Repr

/-- The peripheral's registers (10_state.md R30). -/
inductive Reg where
  /-- `SECOND` … `YEAR` -/
  | field (f : Field)
  /-- `WP` -/
  | wp
  /-- `CTRL` -/
  | ctrl
  /-- `RAM[k]` -/
  | ram (k : Nat)
  deriving DecidableEq, Repr

/-- The operand formats (30_encoding.md R92). -/
inductive Format where
  | n | b | r | rb | v | vb | t
  deriving DecidableEq, Repr

end Sys2Proof
end

