-- ==== Sys2Proof/WellFormed.lean ====
section
/-! DEFINITION. What makes a configuration admissible (00_scope.md R6). An `Instr` needs no check of its own:
its operands have the widths of the fields, and every value of a field is legal (30_encoding.md R96: "no
operand value is illegal"). The checks on a raw command word (R96 (a) to (c)) stand at the head of
Decode.lean. -/

namespace Sys2Proof

namespace Cfg

/-- The nine write addresses outside the scratch RAM. -/
def nonRam (c : Cfg) : List Byte :=
  [c.addrSecond, c.addrMinute, c.addrHour, c.addrDay, c.addrMonth, c.addrWeekday, c.addrYear,
   c.addrWp, c.addrCtrl]

/-- The write address of every scratch-RAM cell, as a number that does not wrap (R6 (c)). -/
def ramAddrs (c : Cfg) : List Nat :=
  (List.range c.ramCells).map fun k => c.addrRam.toNat + c.ramStride * k

/-- R6 (a): the ten write addresses are even. -/
def addrsEven (c : Cfg) : Bool := (c.addrRam :: c.nonRam).all fun a => !a.getLsbD 0

/-- R6 (b): the nine non-RAM write addresses are pairwise distinct. -/
def nonRamDistinct (c : Cfg) : Bool := decide c.nonRam.Nodup

/-- R6 (c): the stride is even and at least 2. -/
def strideOk (c : Cfg) : Bool := c.ramStride % 2 == 0 && decide (2 ≤ c.ramStride)

/-- R6 (c): there is a cell, and the largest read address is at most 255. -/
def ramFits (c : Cfg) : Bool :=
  decide (0 < c.ramCells) &&
    decide (c.addrRam.toNat + c.ramStride * (c.ramCells - 1) + c.readOffset ≤ 255)

/-- R6 (c): the scratch RAM is disjoint from the nine other write addresses. -/
def ramDisjoint (c : Cfg) : Bool := c.ramAddrs.all fun a => c.nonRam.all fun b => b.toNat != a

/-- R6 (d): `READ_OFFSET = 1`. -/
def readOffsetOne (c : Cfg) : Bool := c.readOffset == 1

/-- DEDUCED (log 3) from 42_field_accessors.md R151 ("`m < M_F <= 100`") and R170 ("every divisor is a
non-zero constant of `Cfg`"): each modulus is 1 to 100. -/
def moduliOk (c : Cfg) : Bool :=
  [c.mSecond, c.mMinute, c.mHour, c.mDay, c.mMonth, c.mWeekday, c.mYear].all fun m =>
    decide (0 < m) && decide (m ≤ 100)

/-- DEDUCED (log 3) from 30_encoding.md R93 ("All results fit") and R170 (c): a year fits 16 bits. -/
def yearFits (c : Cfg) : Bool := decide (c.yearBase + c.mYear ≤ 65536)

/-- DEDUCED (log 21) from 30_encoding.md R91 to R93: the positions of the fields of both words are those of `W_INT` = 16
and `W_CMD` = 128. -/
def widthsOk (c : Cfg) : Bool := c.wInt == 16 && c.wCmd == 128

/-- An admissible configuration (R6). -/
def wf (c : Cfg) : Bool :=
  c.addrsEven && c.nonRamDistinct && c.strideOk && c.ramFits && c.ramDisjoint && c.readOffsetOne &&
    c.moduliOk && c.yearFits && c.widthsOk

end Cfg

end Sys2Proof
end

