-- ==== Sys2Proof/Decode.lean ====
section
/-! DEFINITION. The decoder, total on 128-bit words and rejecting by name, and the encoder
(30_encoding.md R91, R92, R94 to R96). -/

namespace Sys2Proof

/-! ### The checks on a command word (R92, R95, R96) -/

/-- The payload bits a format leaves free (R92). -/
def Format.free : Format → Payload
  | .n  => 0#112
  | .b  => 0xFF0000#112
  | .r  => 0xFF#112
  | .rb => 0xFF00FF#112
  | .v  => 0xFFFF#112
  | .vb => 0xFFFFFF#112
  | .t  => BitVec.allOnes 112

/-- The format of an operation code, or none where the code is reserved (R95, R96 (a)). -/
def formatOf (op : Byte) : Option Format :=
  match op.toNat with
  | 0x00 => some .n | 0x01 => some .b | 0x02 => some .n | 0x03 => some .r
  | 0x04 => some .rb | 0x05 => some .rb | 0x06 => some .n | 0x07 => some .n
  | 0x08 => some .r | 0x09 => some .r
  | 0x10 => some .n | 0x11 => some .n | 0x12 => some .n | 0x13 => some .n
  | 0x14 => some .n | 0x15 => some .n | 0x16 => some .n | 0x17 => some .n
  | 0x18 => some .v | 0x19 => some .v | 0x1A => some .v | 0x1B => some .v
  | 0x1C => some .v | 0x1D => some .v | 0x1E => some .v | 0x1F => some .t
  | 0x20 => some .v | 0x21 => some .vb
  | _ => none

namespace Command

/-- `C.op` (R91). -/
def op (w : Command) : Byte := w.extractLsb' 120 8

/-- The reserved field `C.rsv` (R91). -/
def rsv (w : Command) : Byte := w.extractLsb' 112 8

/-- The payload (R91). -/
def payload (w : Command) : Payload := w.extractLsb' 0 112

/-- R96 (a): the code is one of the 28. -/
def opKnown (w : Command) : Bool := (formatOf (op w)).isSome

/-- R96 (b): the reserved field is 0. -/
def rsvClear (w : Command) : Bool := rsv w == 0#8

/-- R96 (c): no payload bit is 1 that the format does not leave free. -/
def payloadClear (w : Command) : Bool :=
  match formatOf (op w) with
  | some f => payload w &&& ~~~f.free == 0#112
  | none   => false

/-- The command word is legal (R96). -/
def wf (w : Command) : Bool := opKnown w && rsvClear w && payloadClear w

end Command

/-- Why a command word is illegal (R96). -/
inductive Illegal where
  /-- R96 (a): `op` is not one of the 28 codes. -/
  | reservedOpcode
  /-- R96 (b): `rsv` is not 0. -/
  | reservedField
  /-- R96 (c): a payload bit the format does not leave free is 1. -/
  | payloadBit
  deriving DecidableEq, Repr

/-! ### Operand assembly (R91, R94) -/

/-- `C[7:0]` as an address or BCD operand. -/
def operandA8 (p : Payload) : Byte := p.extractLsb' 0 8

/-- `C[15:0]` as an unsigned integer. -/
def operandA16 (p : Payload) : Word16 := p.extractLsb' 0 16

/-- `C[23:16]`, the data byte. -/
def operandB (p : Payload) : Byte := p.extractLsb' 16 8

/-- `t[k]`, element `k` of the tuple operand. -/
def operandT (p : Payload) (k : Nat) : Word16 := p.extractLsb' (16 * k) 16

/-- The operation of code `op` with its operands taken from the payload (R95). -/
def assemble (op : Byte) (p : Payload) : Option Instr :=
  match op.toNat with
  | 0x00 => some .init
  | 0x01 => some (.writeByte (operandB p))
  | 0x02 => some .readByte
  | 0x03 => some (.getReg (operandA8 p))
  | 0x04 => some (.setReg (operandA8 p) (operandB p))
  | 0x05 => some (.wpWrite (operandA8 p) (operandB p))
  | 0x06 => some .start
  | 0x07 => some .stop
  | 0x08 => some (.dec2bcd (operandA8 p))
  | 0x09 => some (.bcd2dec (operandA8 p))
  | 0x10 => some .getSecond
  | 0x11 => some .getMinute
  | 0x12 => some .getHour
  | 0x13 => some .getDay
  | 0x14 => some .getMonth
  | 0x15 => some .getWeekday
  | 0x16 => some .getYear
  | 0x17 => some .getDatetime
  | 0x18 => some (.setSecond (operandA16 p))
  | 0x19 => some (.setMinute (operandA16 p))
  | 0x1A => some (.setHour (operandA16 p))
  | 0x1B => some (.setDay (operandA16 p))
  | 0x1C => some (.setMonth (operandA16 p))
  | 0x1D => some (.setWeekday (operandA16 p))
  | 0x1E => some (.setYear (operandA16 p))
  | 0x1F => some (.setDatetime (operandT p 0) (operandT p 1) (operandT p 2) (operandT p 3)
              (operandT p 4) (operandT p 5) (operandT p 6))
  | 0x20 => some (.readRam (operandA16 p))
  | 0x21 => some (.writeRam (operandA16 p) (operandB p))
  | _ => none

/-- The decoder (R96, R101): the operation a command word stands for, or the name of what is wrong. -/
def decode (w : Command) : Except Illegal Instr :=
  match assemble (Command.op w) (Command.payload w) with
  | none => .error .reservedOpcode
  | some i =>
    if Command.rsvClear w then
      if Command.payloadClear w then .ok i else .error .payloadBit
    else .error .reservedField

/-! ### The encoder -/

/-- The operation code (R95). -/
def opcode : Instr → Byte
  | .init => 0x00
  | .writeByte _ => 0x01
  | .readByte => 0x02
  | .getReg _ => 0x03
  | .setReg _ _ => 0x04
  | .wpWrite _ _ => 0x05
  | .start => 0x06
  | .stop => 0x07
  | .dec2bcd _ => 0x08
  | .bcd2dec _ => 0x09
  | .getSecond => 0x10
  | .getMinute => 0x11
  | .getHour => 0x12
  | .getDay => 0x13
  | .getMonth => 0x14
  | .getWeekday => 0x15
  | .getYear => 0x16
  | .getDatetime => 0x17
  | .setSecond _ => 0x18
  | .setMinute _ => 0x19
  | .setHour _ => 0x1A
  | .setDay _ => 0x1B
  | .setMonth _ => 0x1C
  | .setWeekday _ => 0x1D
  | .setYear _ => 0x1E
  | .setDatetime _ _ _ _ _ _ _ => 0x1F
  | .readRam _ => 0x20
  | .writeRam _ _ => 0x21

/-- Format `B`. -/
def packB (b : Byte) : Payload := 0#88 ++ b ++ 0#16
/-- Format `R`. -/
def packR (a : Byte) : Payload := 0#104 ++ a
/-- Format `RB`. -/
def packRB (a b : Byte) : Payload := 0#88 ++ b ++ 0#8 ++ a
/-- Format `V`. -/
def packV (v : Word16) : Payload := 0#96 ++ v
/-- Format `VB`. -/
def packVB (v : Word16) (b : Byte) : Payload := 0#88 ++ b ++ v
/-- Format `T`: element `k` in bits `16k+15:16k` (R91). -/
def packT (t0 t1 t2 t3 t4 t5 t6 : Word16) : Payload := t6 ++ t5 ++ t4 ++ t3 ++ t2 ++ t1 ++ t0

/-- The payload of an operation (R91, R92). -/
def payloadOf : Instr → Payload
  | .init => 0#112
  | .writeByte b => packB b
  | .readByte => 0#112
  | .getReg a => packR a
  | .setReg a b => packRB a b
  | .wpWrite a b => packRB a b
  | .start => 0#112
  | .stop => 0#112
  | .dec2bcd n => packR n
  | .bcd2dec n => packR n
  | .getSecond => 0#112
  | .getMinute => 0#112
  | .getHour => 0#112
  | .getDay => 0#112
  | .getMonth => 0#112
  | .getWeekday => 0#112
  | .getYear => 0#112
  | .getDatetime => 0#112
  | .setSecond v => packV v
  | .setMinute v => packV v
  | .setHour v => packV v
  | .setDay v => packV v
  | .setMonth v => packV v
  | .setWeekday v => packV v
  | .setYear v => packV v
  | .setDatetime y mo d wd h mi s => packT y mo d wd h mi s
  | .readRam idx => packV idx
  | .writeRam idx b => packVB idx b

/-- The command word of an operation (R91): code, eight zero bits, payload. -/
def encode (i : Instr) : Command := opcode i ++ 0#8 ++ payloadOf i

/-- The operation the decoder reads from a table word of `nbits` bits (the host's question). -/
def decodeTableWord (nbits w : Nat) : Option Instr :=
  match decode (BitVec.ofNat 128 (w % 2 ^ nbits)) with
  | .ok i => some i
  | .error _ => none

end Sys2Proof
end

