-- ==== Sys2Proof/Machine/State.lean ====
section
/-! DEFINITION. State: everything the spec gives the machine (10_state.md R20 to R38, 20_memory.md R66), the
inputs its ports read, and the model's own fields, each named as such. -/

namespace Sys2Proof.Machine

/-! ### The three lines (R8, R20) -/

/-- The three line handles (R20). -/
inductive Line where
  | clk | dio | cs
  deriving DecidableEq, Repr

/-- `dir[L]` (R20). -/
inductive Dir where
  | out | inp | unset
  deriving DecidableEq, Repr

/-- `lvl[L]` (R20): `unset`, or the level last driven. -/
inductive Level where
  | unset
  | driven (b : Bool)
  deriving DecidableEq, Repr

/-- One line handle: its direction, its level, and the level that an output without a level holds until its
first `SET` (R22, C11). `held` is false where no such level is held. -/
structure Pin where
  dir  : Dir
  lvl  : Level
  held : Bool
  deriving DecidableEq, Repr

/-- The line events (R8), the alphabet of the observable behaviour. -/
inductive Event where
  /-- `DIR(L, d)` -/
  | dir (l : Line) (d : Dir)
  /-- `SET(L, b)` -/
  | set (l : Line) (b : Bool)
  /-- `GET(L) = b` -/
  | get (l : Line) (b : Bool)
  deriving DecidableEq, Repr

/-- `phase` (R24, D23). -/
inductive Phase where
  | idle | selected | transferring
  deriving DecidableEq, Repr

/-! ### The response word (R93, R191) -/

/-- `Rsp.status` (R191). Code 3 is never produced (R93). -/
inductive Status where
  | ok | illegal | lineFault
  deriving DecidableEq, Repr

/-- `Rsp`: status and value (R93). -/
structure Rsp where
  status : Status
  value  : Payload
  deriving DecidableEq, Repr

/-! ### The peripheral (20_memory.md) -/

/-- The register store: write addresses with the bytes that write frames have put there, addresses strictly
rising. A register not listed holds the unknown byte `Config.powerUp` of its address. -/
abbrev Memory := List Host.Cell

/-- Which peripheral is on the lines. -/
inductive ChipKind where
  /-- The reference peripheral (R66 to R73). -/
  | reference
  /-- The reference peripheral whose seven calendar registers may take any value between two frames while its
  oscillator runs (R74). -/
  | ticking
  /-- Any other chip, or none (R65, R233): it has no state here, and what a `GET(DIO)` sees is the next level of
  `State.dioIn`, or a free level once that list is used up. -/
  | external
  deriving DecidableEq, Repr

/-- The peripheral's state (R66). -/
structure Chip where
  kind  : ChipKind
  cells : Memory
  n     : Nat
  ab    : Byte
  db    : Byte
  ob    : Byte
  drv   : Option Bool
  deriving DecidableEq, Repr

/-! ### The model's own types -/

/-- A trace record of a mutation (60_exceptions.md R203, D21). -/
inductive Mutation where
  /-- `(F, v mod M_F)`, after a `SET_F` or an element of `SET_DATETIME` -/
  | field (f : Field) (m : Nat)
  /-- the cell and the byte, after a `WRITE_RAM` -/
  | ram (k : Nat) (b : Byte)
  deriving DecidableEq, Repr

/-- What one `step` of an idle controller with a command does (R8): the whole operation, or its acceptance,
each line event and its response as steps of their own. -/
inductive Stepping where
  | operation | event
  deriving DecidableEq, Repr

/-! ### State -/

/-- The state of the machine: plain data. -/
structure State where
  /-- `Cfg` (R5); no step changes it -/
  cfg      : Cfg
  /-- the line `CLK` (R20) -/
  clk      : Pin
  /-- the line `DIO` (R20) -/
  dio      : Pin
  /-- the line `CS` (R20) -/
  cs       : Pin
  /-- `sh`, the byte being written (R23) -/
  sh       : Byte
  /-- `acc`, the byte being read (R23) -/
  acc      : Byte
  /-- `i`, the bit index (R23) -/
  i        : Fin 8
  /-- `t`, the byte kept from a read frame (R24) -/
  t        : Byte
  /-- MODEL'S OWN (log 9): the decoded elements gathered so far, first element first -/
  res      : List Word16
  /-- `busy` (R24) -/
  busy     : Bool
  /-- `upc` (R24, R27) -/
  upc      : Nat
  /-- `phase` (R24) -/
  phase    : Phase
  /-- `C`, the command latch (R25) -/
  c        : Command
  /-- `Rsp`, the response latch (R25) -/
  rsp      : Rsp
  /-- port `rsp_valid` (R38) -/
  rspValid : Bool
  /-- ports `cmd` and `cmd_valid` (R38): the command presented, if one is -/
  cmd      : Option Command
  /-- port `reset` (R38) -/
  resetPin : Bool
  /-- port `dio_in` (R38): the levels the next `GET(DIO)`s find while no modelled peripheral drives -/
  dioIn    : List Bool
  /-- MODEL'S OWN (log 12): whether each of the next line events fails, if `LINE_FAULTS` (R193) -/
  lineFail : List Bool
  /-- MODEL'S OWN (log 8): the host (R7), the commands it has still to issue, first one first -/
  script   : List Command
  /-- the peripheral (R66) -/
  chip     : Chip
  /-- MODEL'S OWN (log 5): the number of line events so far, the argument of the free values -/
  events   : Nat
  /-- MODEL'S OWN (log 10): the line events so far (R8), newest first -/
  trace    : List Event
  /-- MODEL'S OWN (log 10): the mutation records so far (R203), newest first -/
  journal  : List Mutation
  /-- MODEL'S OWN (log 7): what one step is (R8) -/
  stepping : Stepping
  deriving DecidableEq, Repr

/-- The output ports (R38). `clkPin` and `csPin` are none while the line is not driven. -/
structure Ports where
  clkPin   : Option Bool
  csPin    : Option Bool
  dioOut   : Level
  dioOe    : Bool
  busy     : Bool
  rsp      : BitVec 114
  rspValid : Bool
  deriving DecidableEq, Repr

/-- Why the machine stops. The hardware raises no exception (R190); these are breaches of the line contract and
of the sequencer that no operation of an initialised controller commits. -/
inductive Fault where
  /-- `SET(L, b)` while `L` is not an output (R8, R10: "valid only in output direction"). Raised by the line
  primitive `Drive`. Safe: the machine stops. -/
  | driveNotOutput (l : Line)
  /-- `GET(L)` while `L` is not an input (R8, R10: "valid only in input direction"). Raised by the line
  primitive `Sample`. Safe: the machine stops. -/
  | sampleNotInput (l : Line)
  /-- `busy` = 1 while `C` holds no legal command, a state no step leads to (R25, R96). Raised by `step`. Safe:
  the machine stops. -/
  | busyWithoutOperation
  deriving DecidableEq, Repr

/-- What the model does not accept. -/
inductive Refusal where
  /-- An operation without a meaning. No arm of `exec` answers it. Safe. -/
  | notModelled (mnemonic : String)
  /-- A command while another runs (R194, D7, U11: "it has no step"). Raised by every meaning and by `step`.
  Safe. -/
  | commandWhileBusy
  /-- A command other than `INIT` before `INIT` or reset has run (R222, U14: "a model refuses them"). Raised by
  every meaning but that of `INIT`, and by `step` on an illegal word. Safe. -/
  | notInitialised
  deriving DecidableEq, Repr

/-! ### Power-up and reset -/

/-- A line whose direction and level nothing has set (R20). -/
def Pin.floating : Pin := { dir := .unset, lvl := .unset, held := false }

/-- An output that drives `b`. -/
def Pin.driving (b : Bool) : Pin := { dir := .out, lvl := .driven b, held := false }

/-- A peripheral at the launch of a simulation (R66), with nothing known of its registers. `ab`, `db`, `ob`
have no initial value in the spec: 0 (DESIGN CHOICE, log 2). -/
def Chip.launch (k : ChipKind) : Chip :=
  { kind := k, cells := [], n := 0, ab := 0, db := 0, ob := 0, drv := none }

/-- The state right after reset (R37, R221). `sh`, `acc`, `i`, `t`, `C` are unspecified there: each holds a free
value (DESIGN CHOICE, log 2). `Rsp` is `(OK, 0)` as R37 says, over decision D11 (DEDUCED, log 6). `dir[DIO]` and `lvl[DIO]` are `unset`; the
register store lists nothing. -/
def State.reset : State where
  cfg      := Cfg.default
  clk      := Pin.driving false
  dio      := Pin.floating
  cs       := Pin.driving false
  sh       := Config.resetSh 0
  acc      := Config.resetAcc 0
  i        := Config.resetIndex 0
  t        := Config.resetT 0
  res      := []
  busy     := false
  upc      := 0
  phase    := .idle
  c        := Config.resetCommand 0
  rsp      := { status := .ok, value := 0 }
  rspValid := false
  cmd      := none
  resetPin := false
  dioIn    := []
  lineFail := []
  script   := []
  chip     := Chip.launch .reference
  events   := 0
  trace    := []
  journal  := []
  stepping := .operation

/-- The state at power-up, before any `INIT` or reset (R20, R222): all three lines `unset`. -/
def State.powerUp : State :=
  { State.reset with clk := Pin.floating, cs := Pin.floating }

end Sys2Proof.Machine
end

