-- ==== Sys2Proof/Machine/Operands.lean ====
section
/-! DEFINITION. Operand forms: BCD, the addresses of the registers, and what a field read and a field write do
to their byte (43_bcd.md; 20_memory.md R51, R52, R71; 30_encoding.md R93, R94; 42_field_accessors.md R150, R151). -/

namespace Sys2Proof.Machine

/-! ### BCD (R180, R181) -/

/-- `dec2bcd` (R180), applied to every number (R183). -/
def dec2bcd (n : Nat) : Nat := (n / 10) * 16 + n % 10

/-- `bcd2dec` (R181), applied to every byte (R183). -/
def bcd2dec (n : Nat) : Nat := (n / 16) * 10 + n % 16

/-! ### The field table (R150) -/

/-- `base(F)`, the write address of a field. -/
def fieldAddr (c : Cfg) : Field → Byte
  | .second => c.addrSecond
  | .minute => c.addrMinute
  | .hour => c.addrHour
  | .day => c.addrDay
  | .month => c.addrMonth
  | .weekday => c.addrWeekday
  | .year => c.addrYear

/-- `M_F`, the modulus of a field. -/
def fieldModulus (c : Cfg) : Field → Nat
  | .second => c.mSecond
  | .minute => c.mMinute
  | .hour => c.mHour
  | .day => c.mDay
  | .month => c.mMonth
  | .weekday => c.mWeekday
  | .year => c.mYear

/-- `off(F)`. -/
def fieldOffset (c : Cfg) : Field → Nat
  | .year => c.yearBase
  | _ => 0

/-- `v mod M_F` (R151). -/
def fieldReduce (c : Cfg) (f : Field) (v : Word16) : Nat := v.toNat % fieldModulus c f

/-- The data byte of a field write, `dec2bcd(v mod M_F)` (R94 (f), R151). -/
def fieldByte (c : Cfg) (f : Field) (v : Word16) : Byte := BitVec.ofNat 8 (dec2bcd (fieldReduce c f v))

/-- The result of a field read, `(bcd2dec(r) mod M_F) + off(F)` (R150). -/
def fieldValue (c : Cfg) (f : Field) (r : Byte) : Word16 :=
  BitVec.ofNat 16 (bcd2dec r.toNat % fieldModulus c f + fieldOffset c f)

/-! ### Addresses (R51, R52, R94) -/

/-- The read address that belongs to a write address (R52). -/
def readAddr (c : Cfg) (a : Byte) : Byte := a + BitVec.ofNat 8 c.readOffset

/-- The scratch-RAM cell an index names (R94 (e), R168). -/
def ramIndex (c : Cfg) (idx : Word16) : Nat := idx.toNat % c.ramCells

/-- The write address of scratch-RAM cell `k` (R51). -/
def ramAddr (c : Cfg) (k : Nat) : Byte := BitVec.ofNat 8 (c.addrRam.toNat + c.ramStride * k)

/-- The write address of a register (R51). -/
def regAddr (c : Cfg) : Reg → Byte
  | .field f => fieldAddr c f
  | .wp => c.addrWp
  | .ctrl => c.addrCtrl
  | .ram k => ramAddr c k

/-- The registers of the map (R30, R51), in the map's order. -/
def regMap (c : Cfg) : List Reg :=
  [.field .second, .field .minute, .field .hour, .field .day, .field .month, .field .weekday,
   .field .year, .wp, .ctrl] ++ (List.range c.ramCells).map Reg.ram

/-- The register whose write address is `w`, if there is one (R71). -/
def regAt (c : Cfg) (w : Byte) : Option Reg := (regMap c).find? fun r => regAddr c r == w

/-- An address byte with bit 0 cleared (R71). -/
def writeAddrOf (a : Byte) : Byte := a &&& 0xFE#8

/-- `Decode(a)` (R71). -/
def decodeAddr (c : Cfg) (a : Byte) : Option Reg := regAt c (writeAddrOf a)

/-- Bit 0 of the address byte: true for a read frame (R52, R98). -/
def isReadAddr (a : Byte) : Bool := a.getLsbD 0

/-! ### The value field of a response (R93) -/

/-- A scalar result in `value[15:0]`. -/
def scalar (v : Word16) : Payload := v.setWidth 112

/-- A byte result in `value[7:0]`. -/
def byteValue (b : Byte) : Payload := b.setWidth 112

/-- Elements in `value[16k+15:16k]`. -/
def packElements : List Word16 → Payload
  | [] => 0#112
  | v :: vs => scalar v ||| (packElements vs <<< 16)

end Sys2Proof.Machine
end

