-- ==== Sys2Proof/Machine/Flags.lean ====
section
/-! DEFINITION. The hardware has no flags (10_state.md R28). What stands in their place: the status of a response
(R93, R191), and the two control bits a program cares about, clock-halt and write protection, which are bits of
the peripheral's registers (R28, R31, R33). -/

namespace Sys2Proof.Machine

/-- The code of a status (R191). -/
def Status.code : Status → BitVec 2
  | .ok => 0
  | .illegal => 1
  | .lineFault => 2

/-- The response word, 114 bits: status in 113:112, value in 111:0 (R93). -/
def Rsp.word (r : Rsp) : BitVec 114 := r.status.code ++ r.value

/-- The mask of the clock-halt bit `CH_BIT` of the seconds register (R5, R31). -/
def chMask (c : Cfg) : Byte := 1#8 <<< c.chBit.val

/-- The byte `START` writes back: the clock-halt bit cleared (R133; `t & 0x7F` at the default `CH_BIT`). -/
def startByte (c : Cfg) (t : Byte) : Byte := t &&& ~~~(chMask c)

/-- The byte `STOP` writes back: the clock-halt bit set (R134; `t | 0x80` at the default `CH_BIT`). -/
def stopByte (c : Cfg) (t : Byte) : Byte := t ||| chMask c

/-- `CH` of a seconds byte: true while the oscillator is halted (R31, R74). -/
def clockHalted (c : Cfg) (b : Byte) : Bool := b.getLsbD c.chBit.val

/-- Whether a content of `WP` protects: bit 7 (R70, D19). -/
def protects (b : Byte) : Bool := b.getLsbD 7

end Sys2Proof.Machine
end

