-- ==== Sys2Proof/Machine/Ops.lean ====
section
/-! DEFINITION. The named operations over the register store, the lines, the peripheral and the sequencer. An
operation of the controller is a list of micro-operations, one for each of its line events (00_scope.md R8,
10_state.md R27); `operate` runs it from the acceptance of its command to its response. -/

namespace Sys2Proof.Machine

/-! ### The register store (20_memory.md R50, R66) -/

/-- The byte listed for an address, if one is. -/
def Memory.read : Memory → Nat → Option Byte
  | [], _ => none
  | (k, v) :: m, a => if a = k then some v else Memory.read m a

/-- List `b` for address `a`, in rising order. -/
def Memory.write : Memory → Nat → Byte → Memory
  | [], a, b => [(a, b)]
  | (k, v) :: m, a, b =>
    if a < k then (a, b) :: (k, v) :: m
    else if a = k then (a, b) :: m
    else (k, v) :: Memory.write m a b

/-- Every address listed is above `lo`, and the list rises strictly. -/
def Memory.risesFrom : Nat → Memory → Bool
  | _, [] => true
  | lo, (k, _) :: m => decide (lo ≤ k) && Memory.risesFrom (k + 1) m

/-- The canonical form: addresses strictly rising. An address that is not listed reads as no byte, which no entry
can equal. -/
def Memory.wf (m : Memory) : Bool := Memory.risesFrom 0 m

/-- `cell[X]` (R66): what is listed for the register, else what it held at power-up (R37, U9). -/
def Chip.cell (c : Cfg) (p : Chip) (r : Reg) : Byte :=
  (Memory.read p.cells (regAddr c r).toNat).getD (Config.powerUp (regAddr c r).toNat)

/-- `cell[X] <- b`. -/
def Chip.setCell (c : Cfg) (r : Reg) (b : Byte) (p : Chip) : Chip :=
  { p with cells := Memory.write p.cells (regAddr c r).toNat b }

/-! ### The peripheral (20_memory.md R67 to R74) -/

/-- `x[k] <- b` on a byte. -/
def setBit (x : Byte) (k : Nat) (b : Bool) : Byte :=
  (x &&& ~~~(1#8 <<< k)) ||| ((BitVec.ofBool b).setWidth 8 <<< k)

/-- `Commit(a, b)` (R70): the write gate (R59) stands before every register but `WP`. -/
def Chip.commit (c : Cfg) (a b : Byte) (p : Chip) : Chip :=
  match decodeAddr c a with
  | none => p
  | some .wp => p.setCell c .wp b
  | some r => if protects (p.cell c .wp) then p else p.setCell c r b

/-- The byte a read frame presents (R69); an unmapped address gives a free byte (U4). -/
def Chip.fetch (c : Cfg) (ev : Nat) (p : Chip) : Byte :=
  match decodeAddr c p.ab with
  | some r => p.cell c r
  | none => Config.unmappedByte ev

/-- A rising clock edge while `CS` is high (R68); `dio` is the level seen on `DIO`. -/
def Chip.clkRise (c : Cfg) (dio : Bool) (p : Chip) : Chip :=
  if p.n < 8 then { p with ab := setBit p.ab p.n dio, n := p.n + 1 }
  else if p.n < 16 then
    if isReadAddr p.ab then { p with n := p.n + 1 }
    else
      let q : Chip := { p with db := setBit p.db (p.n - 8) dio, n := p.n + 1 }
      if q.n = 16 then q.commit c q.ab q.db else q
  else p

/-- A falling clock edge while `CS` is high (R69). -/
def Chip.clkFall (c : Cfg) (ev : Nat) (p : Chip) : Chip :=
  if isReadAddr p.ab then
    if p.n = 8 then { p with ob := p.fetch c ev, drv := some ((p.fetch c ev).getLsbD 0) }
    else if 9 ≤ p.n ∧ p.n ≤ 15 then { p with drv := some (p.ob.getLsbD (p.n - 8)) }
    else if p.n = 16 then { p with drv := none }
    else p
  else p

/-- The seven calendar fields in the order of the calendar snapshot (R55 (c)). -/
def snapshotOrder : List Field := [.year, .month, .day, .weekday, .hour, .minute, .second]

/-- The calendar registers take free values (R74). -/
def Chip.tick (c : Cfg) (ev : Nat) (p : Chip) : Chip :=
  snapshotOrder.foldl
    (fun q f => q.setCell c (.field f) (Config.tickByte ev (snapshotOrder.idxOf f))) p

/-- What a ticking chip has done since its last frame: nothing while its oscillator is halted (R74). -/
def Chip.sinceLastFrame (c : Cfg) (ev : Nat) (p : Chip) : Chip :=
  match p.kind with
  | .ticking => if clockHalted c (p.cell c (.field .second)) then p else p.tick c ev
  | _ => p

/-- A rising edge of `CS` (R67). With `CLK` not low no rule is given, and the frame state is free. -/
def Chip.csRise (c : Cfg) (ev : Nat) (clkLow : Bool) (p : Chip) : Chip :=
  let q := p.sinceLastFrame c ev
  if clkLow then { q with n := 0, ab := 0, db := 0, drv := none }
  else { q with n := Config.strayCount ev % 17, ab := Config.strayByte ev 0, db := Config.strayByte ev 1,
                ob := Config.strayByte ev 2, drv := Config.strayDrive ev }

/-- `CS` goes low (R67, U17): the frame ends, an unfinished write frame is discarded, and nothing is driven
while `CS` is low (R72). `n` is kept until `CS` rises again, as R67 and R75 (c) say; R36 (c) has it reset here (DEDUCED,
log 32). -/
def Chip.csFall (p : Chip) : Chip := { p with drv := none }

/-! ### The lines (10_state.md R20 to R22) -/

/-- The handle of a line. -/
def State.pin (s : State) : Line → Pin
  | .clk => s.clk
  | .dio => s.dio
  | .cs => s.cs

/-- Replace the handle of a line. -/
def State.setPin (s : State) (l : Line) (p : Pin) : State :=
  match l with
  | .clk => { s with clk := p }
  | .dio => { s with dio := p }
  | .cs => { s with cs := p }

/-- `DIR(L, d)` on a handle (R20, R22): an output stays as it is under `out`; a line that becomes an output holds
one unknown level until its first `SET`; an input has no level. -/
def Pin.turn (p : Pin) (d : Dir) (ev : Nat) : Pin :=
  match d with
  | .out => if p.dir = .out then p else { dir := .out, lvl := .unset, held := Config.heldLevel ev }
  | .inp => { dir := .inp, lvl := .unset, held := false }
  | .unset => Pin.floating

/-- `SET(L, b)` on a handle (R20). -/
def Pin.drive (p : Pin) (b : Bool) : Pin := { p with lvl := .driven b, held := false }

/-- The level an output puts on its wire (R22); none for a line that is no output. -/
def Pin.wire (p : Pin) : Option Bool :=
  match p.dir, p.lvl with
  | .out, .driven b => some b
  | .out, .unset => some p.held
  | _, _ => none

/-- What the output ports show (R38). -/
def State.ports (s : State) : Ports :=
  { clkPin := s.clk.wire, csPin := s.cs.wire, dioOut := s.dio.lvl, dioOe := decide (s.dio.dir = .out),
    busy := s.busy, rsp := s.rsp.word, rspValid := s.rspValid }

/-- What the modelled peripheral drives on `DIO` (R22, R66). -/
def State.chipDrives (s : State) : Option Bool :=
  match s.chip.kind with
  | .external => none
  | _ => s.chip.drv

/-- The level of `DIO` that the peripheral samples (R22, R230, U7, U13). -/
def State.chipSees (s : State) : Bool :=
  match s.dio.wire with
  | some b => if s.chip.drv.isSome then Config.contendedLevel s.events else b
  | none =>
    match s.dio.dir, s.chip.drv with
    | .inp, some d => d
    | _, _ => Config.floatLevel .chip s.events

/-- `wire[CS]` as the peripheral sees it at a clock edge (R22). -/
def State.selectLevel (s : State) : Bool := s.cs.wire.getD (Config.floatLevel .select s.events)

/-- What the peripheral becomes when the handle of `l` becomes `p` (R67 to R69, R72). -/
def State.chipAfter (s : State) (l : Line) (p : Pin) : Chip :=
  let old := (s.pin l).wire.getD (Config.floatLevel .before s.events)
  let new := p.wire.getD (Config.floatLevel .after s.events)
  match s.chip.kind, l with
  | .external, _ => s.chip
  | _, .dio => s.chip
  | _, .cs =>
    if new then
      if old then s.chip else s.chip.csRise s.cfg s.events (s.clk.wire == some false)
    else s.chip.csFall
  | _, .clk =>
    if s.selectLevel then
      if !old && new then s.chip.clkRise s.cfg s.chipSees
      else if old && !new then s.chip.clkFall s.cfg s.events
      else s.chip
    else s.chip

/-- Enter an event in the trace and count it. -/
def State.stamp (s : State) (e : Event) : State :=
  { s with trace := e :: s.trace, events := s.events + 1 }

/-- The phase after `SET(L, b)` (R24, D23). A `SET(CS, 1)` while `CS` is high already begins with `selected` again: two
clauses of R24 apply there (DESIGN CHOICE, log 33). -/
def Phase.after (ph : Phase) (l : Line) (b : Bool) : Phase :=
  match l, b with
  | .cs, true => .selected
  | .cs, false => .idle
  | .clk, true => if ph = .selected then .transferring else ph
  | _, _ => ph

/-- The handle of `l` becomes `p` and the peripheral follows. -/
def State.moveLine (s : State) (l : Line) (p : Pin) : State :=
  { s.setPin l p with chip := s.chipAfter l p }

/-- The event `DIR(L, d)` (R8, R20). -/
def State.applyDir (s : State) (l : Line) (d : Dir) : State :=
  (s.moveLine l ((s.pin l).turn d s.events)).stamp (.dir l d)

/-- The event `SET(L, b)` (R8, R20). -/
def State.applySet (s : State) (l : Line) (b : Bool) : State :=
  ({ s.moveLine l ((s.pin l).drive b) with phase := s.phase.after l b }).stamp (.set l b)

/-- The level a `GET(DIO)` yields (R22): what the peripheral drives, else the next level at the port `dio_in`,
else a free level. -/
def State.sampled (s : State) : Bool :=
  match s.chipDrives with
  | some d => d
  | none =>
    match s.dioIn with
    | b :: _ => b
    | [] => Config.floatLevel .sample s.events

/-- The levels left at the port `dio_in` after a `GET(DIO)`. -/
def State.dioInAfter (s : State) : List Bool :=
  match s.chipDrives with
  | some _ => s.dioIn
  | none => s.dioIn.tail

/-- The event `GET(DIO)` (R8), its level ORed into bit `k` of `acc` (R23, R122). -/
def State.applyGet (s : State) (k : Fin 8) : State :=
  ({ s with
      i := k
      acc := s.acc ||| ((BitVec.ofBool s.sampled).setWidth 8 <<< k.val)
      dioIn := s.dioInAfter }).stamp (.get .dio s.sampled)

/-! ### Micro-operations -/

/-- Where the byte of a `WRITE_BYTE` comes from. -/
inductive ByteSource where
  /-- a byte that the command fixes -/
  | lit (b : Byte)
  /-- `t` with the clock-halt bit cleared (R133) -/
  | started
  /-- `t` with the clock-halt bit set (R134) -/
  | stopped
  deriving DecidableEq, Repr

/-- What the sequencer keeps when a frame ends. -/
inductive AtEnd where
  | nothing
  /-- `t <- acc` (R24, R133, R134) -/
  | keep
  /-- `t <- acc`, and the field's value is the next element of the result (R150, R166) -/
  | element (f : Field)
  /-- a mutation record (R203) -/
  | record (m : Mutation)
  deriving DecidableEq, Repr

/-- The micro-operations: each performs exactly one line event. -/
inductive Micro where
  /-- `DIR(L, d)` -/
  | dir (l : Line) (d : Dir)
  /-- `SET(L, b)` -/
  | set (l : Line) (b : Bool)
  /-- `sh <- byte` and `DIR(DIO, out)` (R121) -/
  | beginOut (src : ByteSource)
  /-- `i <- k` and `SET(DIO, sh[k])` (R121) -/
  | putBit (k : Fin 8)
  /-- `DIR(DIO, in)` and `acc <- 0` (R122) -/
  | beginIn
  /-- `i <- k` and `GET(DIO)` into `acc[k]` (R122) -/
  | getBit (k : Fin 8)
  /-- `SET(CS, 0)` and what is kept of the frame -/
  | endFrame (x : AtEnd)
  deriving DecidableEq, Repr

/-- The byte a source gives. -/
def ByteSource.value (s : State) : ByteSource → Byte
  | .lit b => b
  | .started => startByte s.cfg s.t
  | .stopped => stopByte s.cfg s.t

/-- Keep what a frame's end keeps. -/
def AtEnd.keepIn (s : State) : AtEnd → State
  | .nothing => s
  | .keep => { s with t := s.acc }
  | .element f => { s with t := s.acc, res := s.res ++ [fieldValue s.cfg f s.acc] }
  | .record m => { s with journal := m :: s.journal }

/-- What became of a line event. -/
inductive Performed where
  /-- it happened -/
  | done (s : State)
  /-- it failed (R193) -/
  | failed (s : State)
  /-- the line contract was broken -/
  | stuck (f : Fault)
  deriving DecidableEq, Repr

/-- `upc` goes to the next line event (R27). -/
def State.advance (s : State) : State := { s with upc := s.upc + 1 }

/-- `Drive(L, b)` (R10): requires an output. -/
def driveLine (s : State) (l : Line) (b : Bool) : Performed :=
  if (s.pin l).dir = .out then .done (s.applySet l b).advance else .stuck (.driveNotOutput l)

/-- `Sample(DIO)` (R10): requires an input. -/
def sampleLine (s : State) (k : Fin 8) : Performed :=
  if s.dio.dir = .inp then .done (s.applyGet k).advance else .stuck (.sampleNotInput .dio)

/-- One line event that does not fail. -/
def performOk (m : Micro) (s : State) : Performed :=
  match m with
  | .dir l d => .done (s.applyDir l d).advance
  | .set l b => driveLine s l b
  | .beginOut src => .done (({ s with sh := src.value s }).applyDir .dio .out).advance
  | .putBit k => driveLine { s with i := k } .dio (s.sh.getLsbD k.val)
  | .beginIn => .done (({ s with acc := 0 }).applyDir .dio .inp).advance
  | .getBit k => sampleLine s k
  | .endFrame x =>
    match driveLine s .cs false with
    | .done s' => .done (x.keepIn s')
    | r => r

/-- Whether the next line event fails (R193): the next verdict of `lineFail`, else a free one. -/
def State.nextFails (s : State) : Bool :=
  match s.lineFail with
  | b :: _ => b
  | [] => Config.lineFails s.events

/-- A failed event has no effect (R193); only the count of events goes on. -/
def State.passFailed (s : State) : State :=
  { s with events := s.events + 1, lineFail := s.lineFail.tail }

/-- One line event (R8, R193). -/
def perform (m : Micro) (s : State) : Performed :=
  if s.cfg.lineFaults then
    if s.nextFails then .failed s.passFailed else performOk m { s with lineFail := s.lineFail.tail }
  else performOk m s

/-! ### Acceptance and response (R25, R90, R93) -/

/-- A command is accepted: `C` is latched, `busy` set, `upc` starts at 0 (R25, R27). -/
def State.accept (s : State) (w : Command) : State :=
  { s with c := w, busy := true, upc := 0, res := [], cmd := none, rspValid := false }

/-- An operation ends (R25): `Rsp` is latched, `busy` cleared, `rsp_valid` pulses. Every ending goes through
this operation, the abnormal ones with value 0 (R191). -/
def State.respond (s : State) (st : Status) (v : Payload) : State :=
  { s with rsp := { status := st, value := v }, busy := false, upc := 0, rspValid := true }

/-- `raise LineFault` (R11, R193): the operation ends where it stands, with no clean-up. -/
def State.endLineFault (s : State) : State := s.respond .lineFault 0

/-- `raise Illegal` (R11, R96, R192): nothing changes but `Rsp`, and the command is off its port. -/
def State.endIllegal (s : State) : State :=
  { s with rsp := { status := .illegal, value := 0 }, rspValid := true, cmd := none }

/-- `INIT` or reset has run: `CLK` and `CS` are outputs (R222 (a)). -/
def State.initialised (s : State) : Bool := decide (s.clk.dir = .out ∧ s.cs.dir = .out)

/-- Why a command is not accepted, if it is not (R194, R222). -/
def State.refusal (s : State) (needsInit : Bool) : Option Refusal :=
  if s.busy then some .commandWhileBusy
  else if needsInit && !s.initialised then some .notInitialised
  else none

/-- Perform micro-operations in order, up to the first that does not happen. -/
def runAll : List Micro → State → Performed
  | [], s => .done s
  | m :: ms, s =>
    match perform m s with
    | .done s' => runAll ms s'
    | r => r

/-- Perform the line events of an operation and respond. -/
def finish (ops : List Micro) (result : State → Payload) (s : State) : Host.Outcome State Fault Refusal :=
  match runAll ops s with
  | .done s' => .next (s'.respond .ok (result s'))
  | .failed s' => .next s'.endLineFault
  | .stuck f => .fault f

/-- A whole operation: acceptance, its line events, its response (R8, R90). -/
def operate (needsInit : Bool) (w : Command) (ops : List Micro) (result : State → Payload) (s : State) :
    Host.Outcome State Fault Refusal :=
  match s.refusal needsInit with
  | some r => .refused r
  | none => finish ops result (s.accept w)

/-! ### Results -/

/-- No return value (R93, D28). -/
def noResult : State → Payload := fun _ => 0

/-- The byte in the accumulator. -/
def accResult : State → Payload := fun s => byteValue s.acc

/-- The elements gathered. -/
def elementsResult : State → Payload := fun s => packElements s.res

/-- A number that depends on the operand alone. -/
def constResult (n : Nat) : State → Payload := fun _ => scalar (BitVec.ofNat 16 n)

/-! ### Transport and frames (40_byte_transport.md, 41_register_access.md) -/

/-- The bit indices in transmission order (R54). -/
def bitIndices : List (Fin 8) := [0, 1, 2, 3, 4, 5, 6, 7]

/-- `Pulse()` (R120). -/
def pulse : List Micro := [.set .clk true, .set .clk false]

/-- `WRITE_BYTE` as a sub-sequence (R121). -/
def shiftOut (src : ByteSource) : List Micro := .beginOut src :: bitIndices.flatMap fun k => .putBit k :: pulse

/-- `READ_BYTE` as a sub-sequence (R122). -/
def shiftIn : List Micro := .beginIn :: bitIndices.flatMap fun k => .getBit k :: pulse

/-- A read frame (R130). -/
def readFrame (addr : Byte) (x : AtEnd) : List Micro :=
  [.set .cs true] ++ shiftOut (.lit addr) ++ shiftIn ++ [.endFrame x]

/-- A write frame (R131). -/
def writeFrame (addr : Byte) (src : ByteSource) (x : AtEnd) : List Micro :=
  [.set .cs true] ++ shiftOut (.lit addr) ++ shiftOut src ++ [.endFrame x]

/-- The guarded write (R132): protection off, the target, protection on. -/
def guardedWrite (c : Cfg) (addr : Byte) (src : ByteSource) (x : AtEnd) : List Micro :=
  writeFrame c.addrWp (.lit c.wpOff) .nothing ++ writeFrame addr src .nothing ++
    writeFrame c.addrWp (.lit c.wpOn) x

/-- The field read template (R150): one read frame at the field's read address. -/
def fieldRead (c : Cfg) (f : Field) : List Micro := readFrame (readAddr c (fieldAddr c f)) (.element f)

/-- The field write template (R151): one guarded write of the reduced value in BCD. -/
def fieldWrite (c : Cfg) (f : Field) (v : Word16) : List Micro :=
  guardedWrite c (fieldAddr c f) (.lit (fieldByte c f v)) (.record (.field f (fieldReduce c f v)))

/-! ### Reset (70_reset_and_hazards.md R221) -/

/-- Reset: the running operation is abandoned, the sequencer cleared, `Rsp` set to `(OK, 0)`, and the four events
of `INIT` are performed, which do not fail (log 6). `Rsp` is `(OK, 0)` as R37 and R221 say, where decision D11 makes it
unspecified (DEDUCED, log 6). `DIO` becomes `unset` (R37; log 6), and what R37 leaves unspecified is free (log 2). -/
def State.resetNow (s : State) : State :=
  let q : State :=
    { s with busy := false, upc := 0, rsp := { status := .ok, value := 0 }, rspValid := false,
             sh := Config.resetSh s.events, acc := Config.resetAcc s.events, i := Config.resetIndex s.events,
             t := Config.resetT s.events, res := [], c := Config.resetCommand s.events, resetPin := false,
             dio := Pin.floating }
  (((q.applyDir .cs .out).applySet .cs false).applyDir .clk .out).applySet .clk false

end Sys2Proof.Machine
end

