-- ==== Sys2Proof/Machine/Bcd.lean ====
section
/-! DEFINITION. The BCD encoder and decoder as commands, which touch no line (43_bcd.md). -/

namespace Sys2Proof.Machine

/-- The line events of `DEC2BCD n` (R180: none). -/
def dec2bcdOps (_n : Byte) : List Micro :=
  []

/-- The result of `DEC2BCD n`. -/
def dec2bcdResult (n : Byte) : State → Payload := constResult (dec2bcd n.toNat)

/-- `DEC2BCD n` (R180). -/
def execDec2bcd (n : Byte) (s : State) : Host.Outcome State Fault Refusal :=
  operate true (encode (.dec2bcd n)) (dec2bcdOps n) (dec2bcdResult n) s

/-- The line events of `BCD2DEC n` (R181: none). -/
def bcd2decOps (_n : Byte) : List Micro :=
  []

/-- The result of `BCD2DEC n`. -/
def bcd2decResult (n : Byte) : State → Payload := constResult (bcd2dec n.toNat)

/-- `BCD2DEC n` (R181). -/
def execBcd2dec (n : Byte) (s : State) : Host.Outcome State Fault Refusal :=
  operate true (encode (.bcd2dec n)) (bcd2decOps n) (bcd2decResult n) s

end Sys2Proof.Machine
end

