-- ==== Sys2Proof/Machine/Datetime.lean ====
section
/-! DEFINITION. The date-time aggregate, GET_DATETIME and SET_DATETIME (42_field_accessors.md R166, R167). -/

namespace Sys2Proof.Machine

/-- The line events of `GET_DATETIME` (R166, in the order of R55 (c)). -/
def getDatetimeOps (c : Cfg) : List Micro :=
  snapshotOrder.flatMap fun f => fieldRead c f

/-- The result of `GET_DATETIME`. -/
def getDatetimeResult : State → Payload := elementsResult

/-- `GET_DATETIME` (R166). -/
def execGetDatetime (s : State) : Host.Outcome State Fault Refusal :=
  operate true (encode .getDatetime) (getDatetimeOps s.cfg) getDatetimeResult s

/-- The line events of `SET_DATETIME t0, …, t6` (R167). -/
def setDatetimeOps (c : Cfg) (y mo d wd h mi sec : Word16) : List Micro :=
  fieldWrite c .year y ++ fieldWrite c .month mo ++ fieldWrite c .day d ++ fieldWrite c .weekday wd ++
    fieldWrite c .hour h ++ fieldWrite c .minute mi ++ fieldWrite c .second sec

/-- The result of `SET_DATETIME t0, …, t6`. -/
def setDatetimeResult : State → Payload := noResult

/-- `SET_DATETIME t0, …, t6` (R167). -/
def execSetDatetime (y mo d wd h mi sec : Word16) (s : State) :
    Host.Outcome State Fault Refusal :=
  operate true (encode (.setDatetime y mo d wd h mi sec))
    (setDatetimeOps s.cfg y mo d wd h mi sec) setDatetimeResult s

end Sys2Proof.Machine
end

