-- ==== Sys2Proof/Machine/FieldRead.lean ====
section
/-! DEFINITION. The field reads (42_field_accessors.md R150, R152 to R158). -/

namespace Sys2Proof.Machine

/-- The line events of `GET_SECOND` (R152). -/
def getSecondOps (c : Cfg) : List Micro :=
  fieldRead c .second

/-- The result of `GET_SECOND`. -/
def getSecondResult : State → Payload := elementsResult

/-- `GET_SECOND` (R152). -/
def execGetSecond (s : State) : Host.Outcome State Fault Refusal :=
  operate true (encode .getSecond) (getSecondOps s.cfg) getSecondResult s

/-- The line events of `GET_MINUTE` (R153). -/
def getMinuteOps (c : Cfg) : List Micro :=
  fieldRead c .minute

/-- The result of `GET_MINUTE`. -/
def getMinuteResult : State → Payload := elementsResult

/-- `GET_MINUTE` (R153). -/
def execGetMinute (s : State) : Host.Outcome State Fault Refusal :=
  operate true (encode .getMinute) (getMinuteOps s.cfg) getMinuteResult s

/-- The line events of `GET_HOUR` (R154). -/
def getHourOps (c : Cfg) : List Micro :=
  fieldRead c .hour

/-- The result of `GET_HOUR`. -/
def getHourResult : State → Payload := elementsResult

/-- `GET_HOUR` (R154). -/
def execGetHour (s : State) : Host.Outcome State Fault Refusal :=
  operate true (encode .getHour) (getHourOps s.cfg) getHourResult s

/-- The line events of `GET_DAY` (R155). -/
def getDayOps (c : Cfg) : List Micro :=
  fieldRead c .day

/-- The result of `GET_DAY`. -/
def getDayResult : State → Payload := elementsResult

/-- `GET_DAY` (R155). -/
def execGetDay (s : State) : Host.Outcome State Fault Refusal :=
  operate true (encode .getDay) (getDayOps s.cfg) getDayResult s

/-- The line events of `GET_MONTH` (R156). -/
def getMonthOps (c : Cfg) : List Micro :=
  fieldRead c .month

/-- The result of `GET_MONTH`. -/
def getMonthResult : State → Payload := elementsResult

/-- `GET_MONTH` (R156). -/
def execGetMonth (s : State) : Host.Outcome State Fault Refusal :=
  operate true (encode .getMonth) (getMonthOps s.cfg) getMonthResult s

/-- The line events of `GET_WEEKDAY` (R157). -/
def getWeekdayOps (c : Cfg) : List Micro :=
  fieldRead c .weekday

/-- The result of `GET_WEEKDAY`. -/
def getWeekdayResult : State → Payload := elementsResult

/-- `GET_WEEKDAY` (R157). -/
def execGetWeekday (s : State) : Host.Outcome State Fault Refusal :=
  operate true (encode .getWeekday) (getWeekdayOps s.cfg) getWeekdayResult s

/-- The line events of `GET_YEAR` (R158). -/
def getYearOps (c : Cfg) : List Micro :=
  fieldRead c .year

/-- The result of `GET_YEAR`. -/
def getYearResult : State → Payload := elementsResult

/-- `GET_YEAR` (R158). -/
def execGetYear (s : State) : Host.Outcome State Fault Refusal :=
  operate true (encode .getYear) (getYearOps s.cfg) getYearResult s

end Sys2Proof.Machine
end

