-- ==== Sys2Proof/Machine/FieldWrite.lean ====
section
/-! DEFINITION. The field writes (42_field_accessors.md R151, R159 to R165). -/

namespace Sys2Proof.Machine

/-- The line events of `SET_SECOND v` (R159). -/
def setSecondOps (c : Cfg) (v : Word16) : List Micro :=
  fieldWrite c .second v

/-- The result of `SET_SECOND v`. -/
def setSecondResult : State → Payload := noResult

/-- `SET_SECOND v` (R159). -/
def execSetSecond (v : Word16) (s : State) : Host.Outcome State Fault Refusal :=
  operate true (encode (.setSecond v)) (setSecondOps s.cfg v) setSecondResult s

/-- The line events of `SET_MINUTE v` (R160). -/
def setMinuteOps (c : Cfg) (v : Word16) : List Micro :=
  fieldWrite c .minute v

/-- The result of `SET_MINUTE v`. -/
def setMinuteResult : State → Payload := noResult

/-- `SET_MINUTE v` (R160). -/
def execSetMinute (v : Word16) (s : State) : Host.Outcome State Fault Refusal :=
  operate true (encode (.setMinute v)) (setMinuteOps s.cfg v) setMinuteResult s

/-- The line events of `SET_HOUR v` (R161). -/
def setHourOps (c : Cfg) (v : Word16) : List Micro :=
  fieldWrite c .hour v

/-- The result of `SET_HOUR v`. -/
def setHourResult : State → Payload := noResult

/-- `SET_HOUR v` (R161). -/
def execSetHour (v : Word16) (s : State) : Host.Outcome State Fault Refusal :=
  operate true (encode (.setHour v)) (setHourOps s.cfg v) setHourResult s

/-- The line events of `SET_DAY v` (R162). -/
def setDayOps (c : Cfg) (v : Word16) : List Micro :=
  fieldWrite c .day v

/-- The result of `SET_DAY v`. -/
def setDayResult : State → Payload := noResult

/-- `SET_DAY v` (R162). -/
def execSetDay (v : Word16) (s : State) : Host.Outcome State Fault Refusal :=
  operate true (encode (.setDay v)) (setDayOps s.cfg v) setDayResult s

/-- The line events of `SET_MONTH v` (R163). -/
def setMonthOps (c : Cfg) (v : Word16) : List Micro :=
  fieldWrite c .month v

/-- The result of `SET_MONTH v`. -/
def setMonthResult : State → Payload := noResult

/-- `SET_MONTH v` (R163). -/
def execSetMonth (v : Word16) (s : State) : Host.Outcome State Fault Refusal :=
  operate true (encode (.setMonth v)) (setMonthOps s.cfg v) setMonthResult s

/-- The line events of `SET_WEEKDAY v` (R164). -/
def setWeekdayOps (c : Cfg) (v : Word16) : List Micro :=
  fieldWrite c .weekday v

/-- The result of `SET_WEEKDAY v`. -/
def setWeekdayResult : State → Payload := noResult

/-- `SET_WEEKDAY v` (R164). -/
def execSetWeekday (v : Word16) (s : State) : Host.Outcome State Fault Refusal :=
  operate true (encode (.setWeekday v)) (setWeekdayOps s.cfg v) setWeekdayResult s

/-- The line events of `SET_YEAR v` (R165). -/
def setYearOps (c : Cfg) (v : Word16) : List Micro :=
  fieldWrite c .year v

/-- The result of `SET_YEAR v`. -/
def setYearResult : State → Payload := noResult

/-- `SET_YEAR v` (R165). -/
def execSetYear (v : Word16) (s : State) : Host.Outcome State Fault Refusal :=
  operate true (encode (.setYear v)) (setYearOps s.cfg v) setYearResult s

end Sys2Proof.Machine
end

