-- ==== Sys2Proof/Machine/Init.lean ====
section
/-! DEFINITION. INIT, the construction of the controller (70_reset_and_hazards.md R220). -/

namespace Sys2Proof.Machine

/-- The line events of `INIT` (R220). -/
def initOps : List Micro :=
  [.dir .cs .out, .set .cs false, .dir .clk .out, .set .clk false]

/-- The result of `INIT`. -/
def initResult : State → Payload := noResult

/-- `INIT` (R220). -/
def execInit (s : State) : Host.Outcome State Fault Refusal :=
  operate false (encode .init) initOps initResult s

end Sys2Proof.Machine
end

