-- ==== Sys2Proof/Machine/Ram.lean ====
section
/-! DEFINITION. The scratch RAM, READ_RAM and WRITE_RAM (42_field_accessors.md R168, R169). -/

namespace Sys2Proof.Machine

/-- The line events of `READ_RAM idx` (R168). -/
def readRamOps (c : Cfg) (idx : Word16) : List Micro :=
  readFrame (readAddr c (ramAddr c (ramIndex c idx))) .nothing

/-- The result of `READ_RAM idx`. -/
def readRamResult : State → Payload := accResult

/-- `READ_RAM idx` (R168). -/
def execReadRam (idx : Word16) (s : State) : Host.Outcome State Fault Refusal :=
  operate true (encode (.readRam idx)) (readRamOps s.cfg idx) readRamResult s

/-- The line events of `WRITE_RAM idx, b` (R169). -/
def writeRamOps (c : Cfg) (idx : Word16) (b : Byte) : List Micro :=
  guardedWrite c (ramAddr c (ramIndex c idx)) (.lit b) (.record (.ram (ramIndex c idx) b))

/-- The result of `WRITE_RAM idx, b`. -/
def writeRamResult : State → Payload := noResult

/-- `WRITE_RAM idx, b` (R169). -/
def execWriteRam (idx : Word16) (b : Byte) (s : State) : Host.Outcome State Fault Refusal :=
  operate true (encode (.writeRam idx b)) (writeRamOps s.cfg idx b) writeRamResult s

end Sys2Proof.Machine
end

