-- ==== Sys2Proof/Machine/Register.lean ====
section
/-! DEFINITION. Register access, GET_REG, SET_REG, WP_WRITE, START and STOP (41_register_access.md). -/

namespace Sys2Proof.Machine

/-- The line events of `GET_REG addr` (R130). -/
def getRegOps (addr : Byte) : List Micro :=
  readFrame addr .nothing

/-- The result of `GET_REG addr`. -/
def getRegResult : State → Payload := accResult

/-- `GET_REG addr` (R130). -/
def execGetReg (addr : Byte) (s : State) : Host.Outcome State Fault Refusal :=
  operate true (encode (.getReg addr)) (getRegOps addr) getRegResult s

/-- The line events of `SET_REG addr, b` (R131). -/
def setRegOps (addr b : Byte) : List Micro :=
  writeFrame addr (.lit b) .nothing

/-- The result of `SET_REG addr, b`. -/
def setRegResult : State → Payload := noResult

/-- `SET_REG addr, b` (R131). -/
def execSetReg (addr b : Byte) (s : State) : Host.Outcome State Fault Refusal :=
  operate true (encode (.setReg addr b)) (setRegOps addr b) setRegResult s

/-- The line events of `WP_WRITE addr, b` (R132). -/
def wpWriteOps (c : Cfg) (addr b : Byte) : List Micro :=
  guardedWrite c addr (.lit b) .nothing

/-- The result of `WP_WRITE addr, b`. -/
def wpWriteResult : State → Payload := noResult

/-- `WP_WRITE addr, b` (R132). -/
def execWpWrite (addr b : Byte) (s : State) : Host.Outcome State Fault Refusal :=
  operate true (encode (.wpWrite addr b)) (wpWriteOps s.cfg addr b) wpWriteResult s

/-- The line events of `START` (R133). -/
def startOps (c : Cfg) : List Micro :=
  readFrame (readAddr c c.addrSecond) .keep ++
    guardedWrite c c.addrSecond .started .nothing

/-- The result of `START`. -/
def startResult : State → Payload := noResult

/-- `START` (R133). -/
def execStart (s : State) : Host.Outcome State Fault Refusal :=
  operate true (encode .start) (startOps s.cfg) startResult s

/-- The line events of `STOP` (R134). -/
def stopOps (c : Cfg) : List Micro :=
  readFrame (readAddr c c.addrSecond) .keep ++
    guardedWrite c c.addrSecond .stopped .nothing

/-- The result of `STOP`. -/
def stopResult : State → Payload := noResult

/-- `STOP` (R134). -/
def execStop (s : State) : Host.Outcome State Fault Refusal :=
  operate true (encode .stop) (stopOps s.cfg) stopResult s

end Sys2Proof.Machine
end

