-- ==== Sys2Proof/Machine/Transport.lean ====
section
/-! DEFINITION. The byte transport, WRITE_BYTE and READ_BYTE (40_byte_transport.md). -/

namespace Sys2Proof.Machine

/-- The line events of `WRITE_BYTE b` (R121). -/
def writeByteOps (b : Byte) : List Micro :=
  shiftOut (.lit b)

/-- The result of `WRITE_BYTE b`. -/
def writeByteResult : State → Payload := noResult

/-- `WRITE_BYTE b` (R121). -/
def execWriteByte (b : Byte) (s : State) : Host.Outcome State Fault Refusal :=
  operate true (encode (.writeByte b)) (writeByteOps b) writeByteResult s

/-- The line events of `READ_BYTE` (R122). -/
def readByteOps : List Micro :=
  shiftIn

/-- The result of `READ_BYTE`. -/
def readByteResult : State → Payload := accResult

/-- `READ_BYTE` (R122). -/
def execReadByte (s : State) : Host.Outcome State Fault Refusal :=
  operate true (encode .readByte) readByteOps readByteResult s

end Sys2Proof.Machine
end

