-- ==== Sys2Proof/Machine/Sequencer.lean ====
section
/-! DEFINITION. The sequencer (10_state.md R24, R25, R27): an operation one line event at a time. It performs the
same micro-operations as the meanings, which run them to the end. -/

namespace Sys2Proof.Machine

/-- The micro-operations of an operation: its event list (R27, R240). -/
def microOps (c : Cfg) (op : Instr) : List Micro :=
  match op with
  | .init => initOps
  | .writeByte b => writeByteOps b
  | .readByte => readByteOps
  | .getReg addr => getRegOps addr
  | .setReg addr b => setRegOps addr b
  | .wpWrite addr b => wpWriteOps c addr b
  | .start => startOps c
  | .stop => stopOps c
  | .dec2bcd n => dec2bcdOps n
  | .bcd2dec n => bcd2decOps n
  | .getSecond => getSecondOps c
  | .getMinute => getMinuteOps c
  | .getHour => getHourOps c
  | .getDay => getDayOps c
  | .getMonth => getMonthOps c
  | .getWeekday => getWeekdayOps c
  | .getYear => getYearOps c
  | .getDatetime => getDatetimeOps c
  | .setSecond v => setSecondOps c v
  | .setMinute v => setMinuteOps c v
  | .setHour v => setHourOps c v
  | .setDay v => setDayOps c v
  | .setMonth v => setMonthOps c v
  | .setWeekday v => setWeekdayOps c v
  | .setYear v => setYearOps c v
  | .setDatetime y mo d wd h mi sec => setDatetimeOps c y mo d wd h mi sec
  | .readRam idx => readRamOps c idx
  | .writeRam idx b => writeRamOps c idx b

/-- The value an operation responds with, once its events have happened (R93). -/
def resultOf (op : Instr) : State → Payload :=
  match op with
  | .init => initResult
  | .writeByte _ => writeByteResult
  | .readByte => readByteResult
  | .getReg _ => getRegResult
  | .setReg _ _ => setRegResult
  | .wpWrite _ _ => wpWriteResult
  | .start => startResult
  | .stop => stopResult
  | .dec2bcd n => dec2bcdResult n
  | .bcd2dec n => bcd2decResult n
  | .getSecond => getSecondResult
  | .getMinute => getMinuteResult
  | .getHour => getHourResult
  | .getDay => getDayResult
  | .getMonth => getMonthResult
  | .getWeekday => getWeekdayResult
  | .getYear => getYearResult
  | .getDatetime => getDatetimeResult
  | .setSecond _ => setSecondResult
  | .setMinute _ => setMinuteResult
  | .setHour _ => setHourResult
  | .setDay _ => setDayResult
  | .setMonth _ => setMonthResult
  | .setWeekday _ => setWeekdayResult
  | .setYear _ => setYearResult
  | .setDatetime _ _ _ _ _ _ _ => setDatetimeResult
  | .readRam _ => readRamResult
  | .writeRam _ _ => writeRamResult

/-- Whether an operation needs `INIT` or reset to have run (R222): every one but `INIT`. -/
def needsInit (op : Instr) : Bool :=
  match op with
  | .init => false
  | .writeByte _ => true
  | .readByte => true
  | .getReg _ => true
  | .setReg _ _ => true
  | .wpWrite _ _ => true
  | .start => true
  | .stop => true
  | .dec2bcd _ => true
  | .bcd2dec _ => true
  | .getSecond => true
  | .getMinute => true
  | .getHour => true
  | .getDay => true
  | .getMonth => true
  | .getWeekday => true
  | .getYear => true
  | .getDatetime => true
  | .setSecond _ => true
  | .setMinute _ => true
  | .setHour _ => true
  | .setDay _ => true
  | .setMonth _ => true
  | .setWeekday _ => true
  | .setYear _ => true
  | .setDatetime _ _ _ _ _ _ _ => true
  | .readRam _ => true
  | .writeRam _ _ => true

/-- The acceptance of an operation as a step of its own (R25). -/
def beginOp (op : Instr) (s : State) : Host.Outcome State Fault Refusal :=
  match s.refusal (needsInit op) with
  | some r => .refused r
  | none => .next (s.accept (encode op))

/-- The next line event of the running operation, or its response once all have happened (R24, R25, R27). -/
def sequence (s : State) : Host.Outcome State Fault Refusal :=
  match decode s.c with
  | .error _ => .fault .busyWithoutOperation
  | .ok op =>
    match (microOps s.cfg op)[s.upc]? with
    | none => .next (s.respond .ok (resultOf op s))
    | some m =>
      match perform m s with
      | .done s' => .next s'
      | .failed s' => .next s'.endLineFault
      | .stuck f => .fault f

end Sys2Proof.Machine
end

