-- ==== Sys2Proof/Machine/Dispatch.lean ====
section
/-! DEFINITION. The meaning of each operation, by name: one arm per constructor of `Instr`. -/

namespace Sys2Proof.Machine

def exec (i : Instr) (s : State) : Host.Outcome State Fault Refusal :=
  match i with
  | .init => Sys2Proof.Machine.execInit s
  | .writeByte b => Sys2Proof.Machine.execWriteByte b s
  | .readByte => Sys2Proof.Machine.execReadByte s
  | .getReg addr => Sys2Proof.Machine.execGetReg addr s
  | .setReg addr b => Sys2Proof.Machine.execSetReg addr b s
  | .wpWrite addr b => Sys2Proof.Machine.execWpWrite addr b s
  | .start => Sys2Proof.Machine.execStart s
  | .stop => Sys2Proof.Machine.execStop s
  | .dec2bcd n => Sys2Proof.Machine.execDec2bcd n s
  | .bcd2dec n => Sys2Proof.Machine.execBcd2dec n s
  | .getSecond => Sys2Proof.Machine.execGetSecond s
  | .getMinute => Sys2Proof.Machine.execGetMinute s
  | .getHour => Sys2Proof.Machine.execGetHour s
  | .getDay => Sys2Proof.Machine.execGetDay s
  | .getMonth => Sys2Proof.Machine.execGetMonth s
  | .getWeekday => Sys2Proof.Machine.execGetWeekday s
  | .getYear => Sys2Proof.Machine.execGetYear s
  | .getDatetime => Sys2Proof.Machine.execGetDatetime s
  | .setSecond v => Sys2Proof.Machine.execSetSecond v s
  | .setMinute v => Sys2Proof.Machine.execSetMinute v s
  | .setHour v => Sys2Proof.Machine.execSetHour v s
  | .setDay v => Sys2Proof.Machine.execSetDay v s
  | .setMonth v => Sys2Proof.Machine.execSetMonth v s
  | .setWeekday v => Sys2Proof.Machine.execSetWeekday v s
  | .setYear v => Sys2Proof.Machine.execSetYear v s
  | .setDatetime y mo d wd h mi sec => Sys2Proof.Machine.execSetDatetime y mo d wd h mi sec s
  | .readRam idx => Sys2Proof.Machine.execReadRam idx s
  | .writeRam idx b => Sys2Proof.Machine.execWriteRam idx b s

end Sys2Proof.Machine
end

