-- ==== Sys2Proof/Machine/Step.lean ====
section
/-! DEFINITION. One step of the machine: the reset pin, the running operation, the command presented, the host
(00_scope.md R7, R8; 10_state.md R25, R38; 60_exceptions.md R192, R194; 70_reset_and_hazards.md R221). -/

namespace Sys2Proof.Machine

/-- The step of an idle controller at a command word (R90, R96, R192). -/
def takeCommand (w : Command) (s : State) : Host.Outcome State Fault Refusal :=
  match decode w with
  | .error _ =>
    match s.refusal true with
    | some r => .refused r
    | none => .next s.endIllegal
  | .ok i =>
    match s.stepping with
    | .operation => exec i s
    | .event => beginOp i s

/-- The step of an idle controller with no command (R7): the host presents its next one, if it has one. -/
def hostTurn (s : State) : State :=
  match s.script with
  | [] => { s with rspValid := false }
  | w :: ws => { s with cmd := some w, script := ws, rspValid := false }

/-- One step. Reset comes first (log 6); while an operation runs a second command is refused (R194). -/
def step (s : State) : Host.Outcome State Fault Refusal :=
  if s.resetPin then .next s.resetNow
  else if s.busy then
    match s.cmd with
    | some _ => .refused .commandWhileBusy
    | none => sequence s
  else
    match s.cmd with
    | some w => takeCommand w s
    | none => .next (hostTurn s)

/-- The state with a table word of `nbits` bits presented as the command, so that the next step runs it whole
(log 8: a program is loaded from outside the machine, one command word at a time). -/
def State.withFetchWord (s : State) (nbits w : Nat) : State :=
  { s with cmd := some (BitVec.ofNat 128 (w % 2 ^ nbits)), busy := false, resetPin := false,
           stepping := .operation }

end Sys2Proof.Machine
end

