-- ==== Sys2Proof/Safety.lean ====
section
/-! DEFINITION. The terms claims use: the line events of the spec's transactions, written from its event lists;
the launch premises; the invariant; a safe run. -/

namespace Sys2Proof.Machine

/-! ### Event lists (40_byte_transport.md, 41_register_access.md) -/

/-- The two events of a clock pulse (R120). -/
def pulseEvents : List Event := [.set .clk true, .set .clk false]

/-- The 25 events of `WRITE_BYTE b` (R121). -/
def byteOutEvents (b : Byte) : List Event :=
  .dir .dio .out :: bitIndices.flatMap fun k => .set .dio (b.getLsbD k.val) :: pulseEvents

/-- The 25 events of a `READ_BYTE` that returns `r` (R122). -/
def byteInEvents (r : Byte) : List Event :=
  .dir .dio .inp :: bitIndices.flatMap fun k => .get .dio (r.getLsbD k.val) :: pulseEvents

/-- The 52 events of a read frame at `a` that returns `r` (R130). -/
def readFrameEvents (a r : Byte) : List Event :=
  .set .cs true :: byteOutEvents a ++ byteInEvents r ++ [.set .cs false]

/-- The 52 events of a write frame (R131). -/
def writeFrameEvents (a b : Byte) : List Event :=
  .set .cs true :: byteOutEvents a ++ byteOutEvents b ++ [.set .cs false]

/-- The 156 events of a guarded write (R132). -/
def guardedEvents (c : Cfg) (a b : Byte) : List Event :=
  writeFrameEvents c.addrWp c.wpOff ++ writeFrameEvents a b ++ writeFrameEvents c.addrWp c.wpOn

/-- The 4 events of `INIT` (R220). -/
def initEvents : List Event := [.dir .cs .out, .set .cs false, .dir .clk .out, .set .clk false]

/-! ### Launch premises (70_reset_and_hazards.md R222) -/

/-- A command is accepted: no operation runs, and `INIT` or reset has run (R194, R222 (a), (c)). -/
abbrev State.Accepting (s : State) : Prop := s.busy = false ∧ s.clk.dir = .out ∧ s.cs.dir = .out

/-- The launch premises (R222 (a) to (c)): the lines are idle and no operation runs. -/
abbrev State.Idle (s : State) : Prop :=
  s.busy = false ∧ s.clk.dir = .out ∧ s.cs.dir = .out ∧ s.clk.lvl = .driven false ∧ s.cs.lvl = .driven false

/-- The launch premises with no failing line (R5 `LINE_FAULTS` false). -/
abbrev State.Ready (s : State) : Prop := s.Idle ∧ s.cfg.lineFaults = false

/-- The launch premises with the reference peripheral on the lines (R75) and an admissible configuration (R6). -/
abbrev State.RefReady (s : State) : Prop := s.Ready ∧ s.chip.kind = .reference ∧ s.cfg.wf = true

/-! ### What frames and operations leave -/

/-- A line that is an input (R20). -/
def Pin.input : Pin := { dir := .inp, lvl := .unset, held := false }

/-- The byte whose bit `k` is `f k` (R9). -/
def byteOf (f : Nat → Bool) : Byte :=
  bitIndices.foldl (fun x k => x ||| ((BitVec.ofBool (f k.val)).setWidth 8 <<< k.val)) 0

/-- The byte that eight samples give while no modelled peripheral drives `DIO`, the first of them made at the event
of number `ev` (R22, R122): the next levels at the port `dio_in`, free levels once that is used up. -/
def State.portByte (s : State) (ev : Nat) : Byte :=
  byteOf fun k => (s.dioIn[k]?).getD (Config.floatLevel .sample (ev + 3 * k))

/-- The state a read frame at `a` that returns `r` leaves (R130), with the peripheral at `p` and the levels `ls`
still to come at the port `dio_in`. -/
def State.afterReadFrame (s : State) (a r : Byte) (ls : List Bool) (p : Chip) : State :=
  { s with sh := a, acc := r, i := 7, dio := Pin.input, dioIn := ls, clk := Pin.driving false,
           cs := Pin.driving false, phase := .idle, chip := p,
           trace := (readFrameEvents a r).reverse ++ s.trace, events := s.events + 52 }

/-- The state a write frame of `b` at `a` leaves (R131), with the peripheral at `p`. -/
def State.afterWriteFrame (s : State) (a b : Byte) (p : Chip) : State :=
  { s with sh := b, i := 7, dio := Pin.driving (b.getLsbD 7), clk := Pin.driving false,
           cs := Pin.driving false, phase := .idle, chip := p,
           trace := (writeFrameEvents a b).reverse ++ s.trace, events := s.events + 52 }

/-- The state a guarded write of `b` at `a` leaves (R132), with the peripheral at `p`. -/
def State.afterGuardedWrite (s : State) (a b : Byte) (p : Chip) : State :=
  { s with sh := s.cfg.wpOn, i := 7, dio := Pin.driving (s.cfg.wpOn.getLsbD 7), clk := Pin.driving false,
           cs := Pin.driving false, phase := .idle, chip := p,
           trace := (guardedEvents s.cfg a b).reverse ++ s.trace, events := s.events + 156 }

/-- The state a stand-alone `WRITE_BYTE b` leaves (R121, R123), with the peripheral at `p`. -/
def State.afterByteOut (s : State) (b : Byte) (p : Chip) : State :=
  { s with sh := b, i := 7, dio := Pin.driving (b.getLsbD 7), clk := Pin.driving false,
           phase := s.phase.after .clk true, chip := p,
           trace := (byteOutEvents b).reverse ++ s.trace, events := s.events + 25 }

/-- The state a stand-alone `READ_BYTE` that returns `r` leaves (R122, R123), with the peripheral at `p` and the
levels `ls` still to come at the port `dio_in`. -/
def State.afterByteIn (s : State) (r : Byte) (ls : List Bool) (p : Chip) : State :=
  { s with acc := r, i := 7, dio := Pin.input, dioIn := ls, clk := Pin.driving false,
           phase := s.phase.after .clk true, chip := p,
           trace := (byteInEvents r).reverse ++ s.trace, events := s.events + 25 }

/-- The state once the operation `i` has answered `OK` with `v` (R25, R93), with the elements `es` gathered. -/
def State.answered (s : State) (i : Instr) (es : List Word16) (v : Payload) : State :=
  { s with c := encode i, res := es, cmd := none, busy := false, upc := 0, rspValid := true,
           rsp := { status := .ok, value := v } }

/-- `s` has become `t` in the terms of the spec: the line events `es` have happened, the operation has ended, and the
response is `(OK, v)` (R8, R93). -/
structure State.Ran (s t : State) (es : List Event) (v : Payload) : Prop where
  /-- the line events, the newest first in the trace -/
  trace : t.trace = es.reverse ++ s.trace
  /-- the response -/
  rsp : t.rsp = { status := .ok, value := v }
  /-- no operation runs -/
  done : t.busy = false
  /-- the configuration -/
  cfg : t.cfg = s.cfg

/-- `GET_F`. -/
def getOf : Field → Instr
  | .second => .getSecond
  | .minute => .getMinute
  | .hour => .getHour
  | .day => .getDay
  | .month => .getMonth
  | .weekday => .getWeekday
  | .year => .getYear

/-- `SET_F v`. -/
def setOf (v : Word16) : Field → Instr
  | .second => .setSecond v
  | .minute => .setMinute v
  | .hour => .setHour v
  | .day => .setDay v
  | .month => .setMonth v
  | .weekday => .setWeekday v
  | .year => .setYear v

/-- Where an operation of one read frame reads (R130, R150, R168). -/
def readTarget (c : Cfg) : Instr → Option Byte
  | .getReg a => some a
  | .getSecond => some (readAddr c c.addrSecond)
  | .getMinute => some (readAddr c c.addrMinute)
  | .getHour => some (readAddr c c.addrHour)
  | .getDay => some (readAddr c c.addrDay)
  | .getMonth => some (readAddr c c.addrMonth)
  | .getWeekday => some (readAddr c c.addrWeekday)
  | .getYear => some (readAddr c c.addrYear)
  | .readRam idx => some (readAddr c (ramAddr c (ramIndex c idx)))
  | .init => none
  | .writeByte _ => none
  | .readByte => none
  | .setReg _ _ => none
  | .wpWrite _ _ => none
  | .start => none
  | .stop => none
  | .dec2bcd _ => none
  | .bcd2dec _ => none
  | .getDatetime => none
  | .setSecond _ => none
  | .setMinute _ => none
  | .setHour _ => none
  | .setDay _ => none
  | .setMonth _ => none
  | .setWeekday _ => none
  | .setYear _ => none
  | .setDatetime _ _ _ _ _ _ _ => none
  | .writeRam _ _ => none

/-- The address and the byte of an operation of one guarded write (R132, R151, R169). -/
def guardedTarget (c : Cfg) : Instr → Option (Byte × Byte)
  | .wpWrite a b => some (a, b)
  | .setSecond v => some (c.addrSecond, fieldByte c .second v)
  | .setMinute v => some (c.addrMinute, fieldByte c .minute v)
  | .setHour v => some (c.addrHour, fieldByte c .hour v)
  | .setDay v => some (c.addrDay, fieldByte c .day v)
  | .setMonth v => some (c.addrMonth, fieldByte c .month v)
  | .setWeekday v => some (c.addrWeekday, fieldByte c .weekday v)
  | .setYear v => some (c.addrYear, fieldByte c .year v)
  | .writeRam idx b => some (ramAddr c (ramIndex c idx), b)
  | .init => none
  | .writeByte _ => none
  | .readByte => none
  | .getReg _ => none
  | .setReg _ _ => none
  | .start => none
  | .stop => none
  | .dec2bcd _ => none
  | .bcd2dec _ => none
  | .getSecond => none
  | .getMinute => none
  | .getHour => none
  | .getDay => none
  | .getMonth => none
  | .getWeekday => none
  | .getYear => none
  | .getDatetime => none
  | .setDatetime _ _ _ _ _ _ _ => none
  | .readRam _ => none

/-- The mutation records of an operation of one guarded write (R203). -/
def mutationsOf (c : Cfg) : Instr → List Mutation
  | .setSecond v => [.field .second (fieldReduce c .second v)]
  | .setMinute v => [.field .minute (fieldReduce c .minute v)]
  | .setHour v => [.field .hour (fieldReduce c .hour v)]
  | .setDay v => [.field .day (fieldReduce c .day v)]
  | .setMonth v => [.field .month (fieldReduce c .month v)]
  | .setWeekday v => [.field .weekday (fieldReduce c .weekday v)]
  | .setYear v => [.field .year (fieldReduce c .year v)]
  | .writeRam idx b => [.ram (ramIndex c idx) b]
  | .init => []
  | .writeByte _ => []
  | .readByte => []
  | .getReg _ => []
  | .setReg _ _ => []
  | .wpWrite _ _ => []
  | .start => []
  | .stop => []
  | .dec2bcd _ => []
  | .bcd2dec _ => []
  | .getSecond => []
  | .getMinute => []
  | .getHour => []
  | .getDay => []
  | .getMonth => []
  | .getWeekday => []
  | .getYear => []
  | .getDatetime => []
  | .setDatetime _ _ _ _ _ _ _ => []
  | .readRam _ => []

/-- The events of a field's read frame that returns `r` (R150). -/
def fieldReadEvents (c : Cfg) (f : Field) (r : Byte) : List Event := readFrameEvents (readAddr c (fieldAddr c f)) r

/-- The events of a field write (R151). -/
def fieldWriteEvents (c : Cfg) (f : Field) (v : Word16) : List Event :=
  guardedEvents c (fieldAddr c f) (fieldByte c f v)

/-- The moduli of R150's table. -/
def tableModulus : Field → Nat
  | .second => 60
  | .minute => 60
  | .hour => 24
  | .day => 32
  | .month => 13
  | .weekday => 7
  | .year => 100

/-- What is known of a read frame at `a` that returned `r`, left `ls` at the port and the peripheral at `p`, where
the peripheral is external (R65, R22): the byte comes from the port, and the model holds no state of it. -/
def State.FromPort (s : State) (r : Byte) (ls : List Bool) (p : Chip) : Prop :=
  s.chip.kind = .external → r = s.portByte (s.events + 27) ∧ ls = s.dioIn.drop 8 ∧ p = s.chip

/-! ### Where operations store -/

/-- The addresses that a frame at `a` may store at (R53, R68, R70): none at a read address, else `a`. -/
def frameStores (a : Byte) : List Nat := if isReadAddr a then [] else [a.toNat]

/-- The addresses that a guarded write at `a` may store at (R132). -/
def guardedStores (c : Cfg) (a : Byte) : List Nat := frameStores c.addrWp ++ frameStores a

/-- The addresses that an operation may store at. -/
def storedAt (c : Cfg) : Instr → List Nat
  | .init => []
  | .writeByte _ => []
  | .readByte => []
  | .getReg a => frameStores a
  | .setReg a _ => frameStores a
  | .wpWrite a _ => guardedStores c a
  | .start => frameStores (readAddr c c.addrSecond) ++ guardedStores c c.addrSecond
  | .stop => frameStores (readAddr c c.addrSecond) ++ guardedStores c c.addrSecond
  | .dec2bcd _ => []
  | .bcd2dec _ => []
  | .getSecond => frameStores (readAddr c c.addrSecond)
  | .getMinute => frameStores (readAddr c c.addrMinute)
  | .getHour => frameStores (readAddr c c.addrHour)
  | .getDay => frameStores (readAddr c c.addrDay)
  | .getMonth => frameStores (readAddr c c.addrMonth)
  | .getWeekday => frameStores (readAddr c c.addrWeekday)
  | .getYear => frameStores (readAddr c c.addrYear)
  | .getDatetime => snapshotOrder.flatMap fun f => frameStores (readAddr c (fieldAddr c f))
  | .setSecond _ => guardedStores c c.addrSecond
  | .setMinute _ => guardedStores c c.addrMinute
  | .setHour _ => guardedStores c c.addrHour
  | .setDay _ => guardedStores c c.addrDay
  | .setMonth _ => guardedStores c c.addrMonth
  | .setWeekday _ => guardedStores c c.addrWeekday
  | .setYear _ => guardedStores c c.addrYear
  | .setDatetime _ _ _ _ _ _ _ => snapshotOrder.flatMap fun f => guardedStores c (fieldAddr c f)
  | .readRam idx => frameStores (readAddr c (ramAddr c (ramIndex c idx)))
  | .writeRam idx _ => guardedStores c (ramAddr c (ramIndex c idx))

/-- From the peripheral of `s` to `p`, nothing is stored outside the addresses `as`, but that a chip that keeps time may
have advanced its calendar registers (R60 (d), R74). Of an external peripheral the model holds no state (R65). -/
structure State.StoresOnlyAt (s : State) (as : List Nat) (p : Chip) : Prop where
  /-- the kind of the peripheral -/
  kind : p.kind = s.chip.kind
  /-- an external peripheral -/
  external : s.chip.kind = .external → p = s.chip
  /-- the reference peripheral -/
  reference : s.chip.kind = .reference → ∀ k, k ∉ as → Memory.read p.cells k = Memory.read s.chip.cells k
  /-- a chip that keeps time -/
  ticking : s.chip.kind = .ticking → ∀ k, k ∉ as → (∀ f, k ≠ (fieldAddr s.cfg f).toNat) →
    Memory.read p.cells k = Memory.read s.chip.cells k

/-- What a read frame at `a` makes of the peripheral (R53, R69, R75 (a), U3): at a read address the reference peripheral
keeps its registers; at a write address it commits a byte that nothing fixes. -/
structure State.ReadLeaves (s : State) (a : Byte) (p : Chip) : Prop where
  /-- nothing else is stored -/
  stores : s.StoresOnlyAt (frameStores a) p
  /-- at a read address -/
  kept : s.chip.kind = .reference → isReadAddr a = true → p.cells = s.chip.cells
  /-- at a write address -/
  committed : s.chip.kind = .reference → isReadAddr a = false → ∃ v, p.cells = (s.chip.commit s.cfg a v).cells

/-- What a write frame of `b` at `a` makes of the peripheral (R53, R70, R75 (b), U2): at a write address the reference
peripheral commits the byte; at a read address it keeps its registers. -/
structure State.WriteLeaves (s : State) (a b : Byte) (p : Chip) : Prop where
  /-- nothing else is stored -/
  stores : s.StoresOnlyAt (frameStores a) p
  /-- at a read address -/
  kept : s.chip.kind = .reference → isReadAddr a = true → p.cells = s.chip.cells
  /-- at a write address -/
  committed : s.chip.kind = .reference → isReadAddr a = false → p.cells = (s.chip.commit s.cfg a b).cells

/-- Element `f` of a tuple in the order of the calendar snapshot (R55 (c), R91). -/
def tupleOf (y mo d wd h mi sec : Word16) : Field → Word16
  | .year => y
  | .month => mo
  | .day => d
  | .weekday => wd
  | .hour => h
  | .minute => mi
  | .second => sec

/-- The number of line events of an operation (R240). -/
def eventCount : Instr → Nat
  | .init => 4
  | .writeByte _ => 25
  | .readByte => 25
  | .getReg _ => 52
  | .setReg _ _ => 52
  | .wpWrite _ _ => 156
  | .start => 208
  | .stop => 208
  | .dec2bcd _ => 0
  | .bcd2dec _ => 0
  | .getSecond => 52
  | .getMinute => 52
  | .getHour => 52
  | .getDay => 52
  | .getMonth => 52
  | .getWeekday => 52
  | .getYear => 52
  | .getDatetime => 364
  | .setSecond _ => 156
  | .setMinute _ => 156
  | .setHour _ => 156
  | .setDay _ => 156
  | .setMonth _ => 156
  | .setWeekday _ => 156
  | .setYear _ => 156
  | .setDatetime _ _ _ _ _ _ _ => 1092
  | .readRam _ => 52
  | .writeRam _ _ => 156

/-- The operations made of frames: every one but `INIT`, the stand-alone transport and the BCD commands. -/
def isFramed : Instr → Bool
  | .init => false
  | .writeByte _ => false
  | .readByte => false
  | .dec2bcd _ => false
  | .bcd2dec _ => false
  | .getReg _ => true
  | .setReg _ _ => true
  | .wpWrite _ _ => true
  | .start => true
  | .stop => true
  | .getSecond => true
  | .getMinute => true
  | .getHour => true
  | .getDay => true
  | .getMonth => true
  | .getWeekday => true
  | .getYear => true
  | .getDatetime => true
  | .setSecond _ => true
  | .setMinute _ => true
  | .setHour _ => true
  | .setDay _ => true
  | .setMonth _ => true
  | .setWeekday _ => true
  | .setYear _ => true
  | .setDatetime _ _ _ _ _ _ _ => true
  | .readRam _ => true
  | .writeRam _ _ => true

/-- An event with its data bits left out: the levels of `DIO` (R102). -/
def Event.shape : Event → Event
  | .dir l d => .dir l d
  | .set .dio _ => .set .dio false
  | .set l b => .set l b
  | .get l _ => .get l false

/-! ### The framing property (41_register_access.md R135) -/

/-- Where a check of a trace stands: no frame open, or a frame open with a count of its rising clock edges, and the
level of the clock. -/
inductive FramePos where
  | closed
  | opened (pulses : Nat) (clkHigh : Bool)
  deriving DecidableEq, Repr

/-- One event of the check: every `SET(CLK,1)` lies in a frame (R135 (a)), `CS` changes only while `CLK` is low
(R135 (c)), and a frame closes directly after its 16th `SET(CLK,0)` (R135 (b), (d)). -/
def FramePos.next (p : FramePos) (e : Event) : Option FramePos :=
  match p, e with
  | .closed, .set .cs true => some (.opened 0 false)
  | .closed, _ => none
  | .opened n false, .set .cs false => if n = 16 then some .closed else none
  | .opened n false, .set .clk true => if n < 16 then some (.opened (n + 1) true) else none
  | .opened n true, .set .clk false => some (.opened n false)
  | .opened n false, .set .dio _ => if n < 16 then some (.opened n false) else none
  | .opened n false, .get .dio _ => if n < 16 then some (.opened n false) else none
  | .opened n false, .dir .dio _ => if n < 16 then some (.opened n false) else none
  | _, _ => none

/-- An event list made of complete frames, with nothing between them (R135 (a) to (e)). -/
def framedFrom : FramePos → List Event → Bool
  | p, [] => decide (p = .closed)
  | p, e :: es =>
    match p.next e with
    | some q => framedFrom q es
    | none => false

/-- An event list made of complete frames (R135). -/
def framed (es : List Event) : Bool := framedFrom .closed es

/-! ### The invariant -/

/-- A handle as the line contract leaves it (R20, R22): only an output has a level, and only an output without a
level holds one. -/
abbrev Pin.Sound (p : Pin) : Prop :=
  (p.lvl ≠ .unset → p.dir = .out) ∧ (p.held = true → p.dir = .out ∧ p.lvl = .unset)

/-- The running operation, if there is one, is a legal command at one of its events or past the last, and the
events left keep the line contract. -/
def State.SequencerSound (s : State) : Prop :=
  if s.busy then
    ∃ op, decode s.c = .ok op ∧ s.upc ≤ (microOps s.cfg op).length ∧
      ∀ f, runAll ((microOps s.cfg op).drop s.upc) s ≠ .stuck f
  else s.upc = 0

/-- The register store: canonical, and nothing is listed but registers of the map, each at its write address. -/
def State.StoreSound (s : State) : Prop :=
  Memory.wf s.chip.cells = true ∧
    ∀ e ∈ s.chip.cells, ∃ r, e.1 = (regAddr s.cfg r).toNat ∧ regAt s.cfg (regAddr s.cfg r) = some r

/-- What every step keeps. -/
structure State.Inv (s : State) : Prop where
  /-- the register store -/
  store : s.StoreSound
  /-- the peripheral counts at most 16 edges (R66) -/
  edges : s.chip.n ≤ 16
  /-- a modelled peripheral drives nothing while `CS` is low (R72) -/
  undriven : s.chip.kind ≠ .external → s.cs.wire = some false → s.chip.drv = none
  /-- `CLK` is never an input (R21) -/
  clkDir : s.clk.dir ≠ .inp
  /-- `CS` is never an input (R21) -/
  csDir : s.cs.dir ≠ .inp
  /-- the handles -/
  clkPin : s.clk.Sound
  dioPin : s.dio.Sound
  csPin : s.cs.Sound
  /-- the phase is `idle` unless `CS` is driven high (R24) -/
  phaseCs : s.phase ≠ .idle ↔ s.cs.lvl = .driven true
  /-- the sequencer -/
  sequencer : s.SequencerSound
  /-- a response that is not `OK` has value 0 (R93) -/
  abnormal : s.rsp.status ≠ .ok → s.rsp.value = 0
  /-- `LINE_FAULT` only if `LINE_FAULTS` (R191) -/
  faultFree : s.cfg.lineFaults = false → s.rsp.status ≠ .lineFault

/-! ### Safe runs -/

/-- `k` steps that neither fault nor are refused. -/
def State.safeFor : Nat → State → Prop
  | 0, _ => True
  | k + 1, s => ∃ t, step s = .next t ∧ t.safeFor k

end Sys2Proof.Machine
end

