-- ==== Sys2Proof/Certificates/Slice0/Obligations.lean ====
section
/-! DEFINITION. The statements for the provers. Where one names the fields that are the model's own (`events`, log 5;
`res`, log 9; `trace` and `journal`, log 10; `dioIn`, log 11; `lineFail`, log 12; `stepping`, log 7), what it says of
them is the model's choice; so is what one says of `sh`, `acc`, `i` and `t` between operations (log 30) and of the
command port, `rsp_valid` and `upc` (log 20), and of the bytes that a chip that keeps time stores between two frames
(log 23). A statement says nothing of the value of a free value. A decision `D<n>` is the spec's own choice
(92_eei_decisions.md), which the rules cited follow. -/

open Sys2Proof Sys2Proof.Machine

/-! ### Encoding (30_encoding.md) -/

/-- R91 to R95: decoding the word of an operation gives the operation back, with every operand at every value.
Rests on decisions D2, D3, D4. -/
def Obligations.DecodeInvertsEncode : Prop := ∀ i : Instr, decode (encode i) = .ok i

/-- R91, R92, R96: a legal word is the word of its operation, so no operation has two words.
Rests on decisions D2, D3, D6. -/
def Obligations.EncodeInvertsDecode : Prop := ∀ (w : Command) (i : Instr), decode w = .ok i → encode i = w

/-- R96 (a) to (c): which words are illegal, and why. Rests on decisions D3, D6. -/
def Obligations.IllegalWordsAreNamed : Prop := ∀ w : Command,
  (decode w = .error .reservedOpcode ↔
    ¬((Command.op w).toNat ≤ 0x09 ∨ 0x10 ≤ (Command.op w).toNat ∧ (Command.op w).toNat ≤ 0x21)) ∧
  (decode w = .error .reservedField ↔
    ((Command.op w).toNat ≤ 0x09 ∨ 0x10 ≤ (Command.op w).toNat ∧ (Command.op w).toNat ≤ 0x21) ∧
      Command.rsv w ≠ 0#8) ∧
  (decode w = .error .payloadBit ↔ Command.rsv w = 0#8 ∧
    ∃ f, formatOf (Command.op w) = some f ∧ Command.payload w &&& ~~~f.free ≠ 0#112)

/-- Words of 95_test_vectors.md and the operations they stand for. Rests on decisions D2, D3, D4. -/
def Obligations.WordsFromTheSpecDecode : Prop :=
  decode 0x01000000000000000000000000B20000#128 = .ok (.writeByte 0xB2) ∧
  decode 0x03000000000000000000000000000081#128 = .ok (.getReg 0x81) ∧
  decode 0x04000000000000000000000000450080#128 = .ok (.setReg 0x80 0x45) ∧
  decode 0x09000000000000000000000000000045#128 = .ok (.bcd2dec 0x45) ∧
  decode 0x1800000000000000000000000000004B#128 = .ok (.setSecond 75) ∧
  decode 0x1F00001E002D000D0005000F000307E8#128 = .ok (.setDatetime 2024 3 15 5 13 45 30) ∧
  decode 0x21000000000000000000000000CD0024#128 = .ok (.writeRam 36 0xCD)

/-! ### One step (00_scope.md R7, R8; 10_state.md R25; 60_exceptions.md) -/

/-- R8, R25, R90: the step of an idle controller at a legal command runs the operation it decodes to, or, in the event
view (log 7), accepts it. Rests on decision D1. -/
def Obligations.StepRunsTheCommand : Prop :=
  (∀ (s : State) (w : Command) (i : Instr), s.resetPin = false → s.busy = false → s.cmd = some w →
    decode w = .ok i →
    (s.stepping = .operation → step s = exec i s) ∧
    (s.stepping = .event → s.Accepting → step s = .next (s.accept w))) ∧
  (∀ (s : State) (nbits w : Nat) (i : Instr), decodeTableWord nbits w = some i →
    step (s.withFetchWord nbits w) = exec i (s.withFetchWord nbits w))

/-- R96, R192: an illegal command changes no state but the response. That the word leaves its port and `rsp_valid` is 1 is the
model's choice (log 20). Rests on decisions D5, D6. -/
def Obligations.IllegalCommandChangesOnlyTheResponse : Prop := ∀ (s : State) (w : Command) (e : Illegal),
  s.resetPin = false → s.Accepting → s.cmd = some w → decode w = .error e →
    step s = .next { s with rsp := { status := .illegal, value := 0 }, rspValid := true, cmd := none }

/-- R194, R226: a command while another runs has no step. Rests on decision D7. -/
def Obligations.CommandWhileBusyIsRefused : Prop :=
  (∀ (s : State) (w : Command), s.resetPin = false → s.busy = true → s.cmd = some w →
    step s = .refused .commandWhileBusy) ∧
  (∀ (s : State) (i : Instr), s.busy = true → exec i s = .refused .commandWhileBusy)

/-- R222: before `INIT` or reset has made `CLK` and `CS` outputs, every operation but `INIT` is refused. -/
def Obligations.NothingRunsBeforeInit : Prop := ∀ (s : State) (i : Instr), s.busy = false →
  ¬(s.clk.dir = .out ∧ s.cs.dir = .out) → i ≠ .init → exec i s = .refused .notInitialised

/-! ### Completion (60_exceptions.md R190, R191; 70_reset_and_hazards.md R222, R240) -/

/-- R190, R222, R240: under the launch premises every operation runs all its events, answers `OK` and leaves the lines
idle; `INIT` needs only that no operation runs. Rests on decisions D1, D5, D29. -/
def Obligations.EveryOperationCompletes : Prop := ∀ (i : Instr) (s : State),
  s.busy = false → s.cfg.lineFaults = false → (i ≠ .init → s.Idle) →
    ∃ t es, exec i s = .next t ∧ s.Ran t es t.rsp.value ∧ es.length = eventCount i ∧ t.Idle

/-- R191, R193: whatever the levels of the lines, and whether or not lines may fail, an accepted operation ends with
`OK`, or with `LINE_FAULT` and value 0, the latter only if lines may fail. Rests on decisions D5, D16. -/
def Obligations.OperationsEndOkOrInALineFault : Prop := ∀ (i : Instr) (s : State),
  s.busy = false → (i ≠ .init → s.Accepting) →
    ∃ t, exec i s = .next t ∧ t.busy = false ∧ t.rspValid = true ∧
      (t.rsp.status = .ok ∨ s.cfg.lineFaults = true ∧ t.rsp = { status := .lineFault, value := 0 })

/-! ### INIT and reset (70_reset_and_hazards.md R220, R221; 10_state.md R37) -/

/-- R220: the four events of `INIT`, and no other; no register of a peripheral that keeps no time changes, and with
the lines idle already and nothing driven the peripheral is left as it is (of one that keeps time, log 23). As after every operation, `C` holds its word
(R25) and the response is latched; the command port, `rsp_valid` and `upc` (log 20), `res` (log 9) and `trace` and
`events` (logs 5, 10) are the model's choice. Rests on decisions D10, D19. -/
def Obligations.InitSetsTheIdleLines : Prop := ∀ s : State, s.busy = false → s.cfg.lineFaults = false →
  ∃ p, exec .init s = .next (({ s with
      clk := Pin.driving false, cs := Pin.driving false, phase := .idle, chip := p,
      trace := initEvents.reverse ++ s.trace, events := s.events + 4 } : State).answered .init [] 0) ∧
    (s.chip.kind ≠ .ticking → p.cells = s.chip.cells) ∧ (s.Idle → s.chip.drv = none → p = s.chip)

/-- R221, R37: reset abandons the running operation, performs the four events of `INIT`, makes `DIO` unset and the
response `(OK, 0)`; what R37 leaves unspecified takes some value (log 2), and the registers keep theirs. The model's choice
(log 6): one step that does not fail, `DIO` unset and the response `(OK, 0)` as R37 says where R220 and D11 differ, no pulse
of `rsp_valid`, the command port kept; `res` cleared is log 9. Rests on decisions D11, D19. -/
def Obligations.ResetAbandonsTheOperation : Prop := ∀ s : State, s.resetPin = true →
  ∃ sh acc i t c p, step s = .next { s with
      resetPin := false, busy := false, upc := 0, rsp := { status := .ok, value := 0 }, rspValid := false, res := [],
      sh := sh, acc := acc, i := i, t := t, c := c,
      clk := Pin.driving false, cs := Pin.driving false, dio := Pin.floating, phase := .idle, chip := p,
      trace := initEvents.reverse ++ s.trace, events := s.events + 4 } ∧
    (s.chip.kind ≠ .ticking → p.cells = s.chip.cells)

/-- R37: the values the table of reset values gives; the response is `(OK, 0)` where D11 differs (log 6), and the empty
register store is log 4. Rests on decision D11. -/
def Obligations.ResetStateIsTheTable : Prop :=
  State.reset.clk.dir = .out ∧ State.reset.clk.lvl = .driven false ∧
  State.reset.cs.dir = .out ∧ State.reset.cs.lvl = .driven false ∧
  State.reset.dio.dir = .unset ∧ State.reset.dio.lvl = .unset ∧
  State.reset.busy = false ∧ State.reset.upc = 0 ∧ State.reset.phase = .idle ∧
  State.reset.rsp = { status := .ok, value := 0 } ∧ State.reset.chip.cells = []

/-! ### The response word and the ports (30_encoding.md R93; 60_exceptions.md R191; 10_state.md R38) -/

/-- R93, R191: the response word has the status in bits 113:112, `OK` as 0, `ILLEGAL` as 1, `LINE_FAULT` as 2 and never 3,
and the value in bits 111:0. Rests on decision D5. -/
def Obligations.ResponseWordLayout : Prop := ∀ r : Rsp,
  r.word.extractLsb' 0 112 = r.value ∧
  (r.word.extractLsb' 112 2 = 0#2 ↔ r.status = .ok) ∧
  (r.word.extractLsb' 112 2 = 1#2 ↔ r.status = .illegal) ∧
  (r.word.extractLsb' 112 2 = 2#2 ↔ r.status = .lineFault) ∧
  r.word.extractLsb' 112 2 ≠ 3#2

/-- R22, R38, R93: what the output ports show: the level of `CLK` and of `CS` while it drives one, the level and the
direction of `DIO`, `busy`, and the response word, status and value. An output without a level shows one level, which only
an event on its own line changes and its next `SET` ends. That the ports are functions of the state is DEDUCED (log 31), and
so is the place of that one level (log 17). Rests on decisions D5, D18, D22. -/
def Obligations.OutputPortsShowTheState : Prop := ∀ s : State,
  (∀ b, s.clk.dir = .out → s.clk.lvl = .driven b → s.ports.clkPin = some b) ∧
  (s.clk.dir ≠ .out → s.ports.clkPin = none) ∧
  (∀ b, s.cs.dir = .out → s.cs.lvl = .driven b → s.ports.csPin = some b) ∧
  (s.cs.dir ≠ .out → s.ports.csPin = none) ∧
  (∀ (l : Line) (shown : Ports → Option Bool), l = .clk ∧ shown = Ports.clkPin ∨ l = .cs ∧ shown = Ports.csPin →
    (s.pin l).dir = .out → (s.pin l).lvl = .unset → ∃ b, shown s.ports = some b ∧
      (∀ l' d, l' ≠ l ∨ d = .out → shown (s.applyDir l' d).ports = some b) ∧
      (∀ l' v, l' ≠ l → shown (s.applySet l' v).ports = some b) ∧
      (∀ k, shown (s.applyGet k).ports = some b) ∧ ∀ v, shown (s.applySet l v).ports = some v) ∧
  s.ports.dioOut = s.dio.lvl ∧ (s.ports.dioOe = true ↔ s.dio.dir = .out) ∧
  s.ports.busy = s.busy ∧ s.ports.rspValid = s.rspValid ∧ s.ports.rsp.extractLsb' 0 112 = s.rsp.value ∧
  s.ports.rsp.extractLsb' 112 2 = (match s.rsp.status with
    | .ok => 0#2
    | .illegal => 1#2
    | .lineFault => 2#2)

/-! ### The byte transport (40_byte_transport.md) -/

/-- R121: the 25 events of `WRITE_BYTE b`, and the lines after it. Rests on decision D29. -/
def Obligations.WriteByteShiftsLsbFirst : Prop := ∀ (s : State) (b : Byte), s.Ready →
  ∃ t, exec (.writeByte b) s = .next t ∧ s.Ran t (byteOutEvents b) 0 ∧
    t.dio.dir = .out ∧ t.dio.lvl = .driven (b.getLsbD 7) ∧
    t.clk.dir = .out ∧ t.clk.lvl = .driven false ∧ t.cs = s.cs

/-- R122: the 25 events of `READ_BYTE`, the byte assembled from its samples, and the lines after it. -/
def Obligations.ReadByteAssemblesLsbFirst : Prop := ∀ s : State, s.Ready →
  ∃ t r, exec .readByte s = .next t ∧ s.Ran t (byteInEvents r) (byteValue r) ∧
    t.dio.dir = .inp ∧ t.dio.lvl = .unset ∧ t.clk.dir = .out ∧ t.clk.lvl = .driven false ∧ t.cs = s.cs

/-- R123, R232: what a stand-alone transport command leaves, and that with `CS` low it reaches no peripheral; while
nothing drives `DIO`, the byte read is what the port `dio_in` has (R22; log 11). `C` holds the command's word (R25). What it
says of `sh`, `acc`, `i` (log 30), the command port and `upc` (log 20) and `res` (log 9) is the model's choice, and that a
chip that keeps time advances only when a frame begins (log 23). Rests on decisions D18, D19, D29. -/
def Obligations.TransportLeavesTheRest : Prop := ∀ s : State, s.Ready →
  (∀ b : Byte, exec (.writeByte b) s = .next ((s.afterByteOut b s.chip).answered (.writeByte b) [] 0)) ∧
  ∃ r ls, exec .readByte s = .next ((s.afterByteIn r ls s.chip).answered .readByte [] (byteValue r)) ∧
    (s.chipDrives = none → r = s.portByte (s.events + 1) ∧ ls = s.dioIn.drop 8)

/-! ### Register access (41_register_access.md) -/

/-- R130: `GET_REG` is one read frame, at the address as given, and answers the byte sampled. -/
def Obligations.GetRegIsOneReadFrame : Prop := ∀ (s : State) (a : Byte), s.Ready →
  ∃ t r, exec (.getReg a) s = .next t ∧ s.Ran t (readFrameEvents a r) (byteValue r) ∧ t.Idle ∧ t.dio.dir = .inp

/-- R131: `SET_REG` is one write frame, of the address and the byte as given. Rests on decision D29. -/
def Obligations.SetRegIsOneWriteFrame : Prop := ∀ (s : State) (a b : Byte), s.Ready →
  ∃ t, exec (.setReg a b) s = .next t ∧ s.Ran t (writeFrameEvents a b) 0 ∧ t.Idle ∧
    t.dio.dir = .out ∧ t.dio.lvl = .driven (b.getLsbD 7)

/-- R132: `WP_WRITE` is the three frames `(WP, WP_OFF)`, `(addr, b)`, `(WP, WP_ON)`, whatever the target, and `WP` holds
`WP_ON` after it. Rests on decisions D19, D20, D29. -/
def Obligations.WpWriteIsThreeWriteFrames : Prop := ∀ (s : State) (a b : Byte), s.Ready →
  ∃ t, exec (.wpWrite a b) s = .next t ∧
    s.Ran t (writeFrameEvents s.cfg.addrWp s.cfg.wpOff ++ writeFrameEvents a b ++
      writeFrameEvents s.cfg.addrWp s.cfg.wpOn) 0 ∧
    t.Idle ∧ t.dio.dir = .out ∧ t.dio.lvl = .driven (s.cfg.wpOn.getLsbD 7) ∧
    (s.RefReady → t.chip.cell s.cfg .wp = s.cfg.wpOn)

/-- R133: `START` reads `SECOND` and writes it back, guarded, with the clock-halt bit cleared.
Rests on decisions D19, D20, D29. -/
def Obligations.StartClearsTheHaltBit : Prop := ∀ s : State, s.Ready → s.cfg.wf = true →
  ∃ t r, exec .start s = .next t ∧
    s.Ran t (readFrameEvents (s.cfg.addrSecond + 1) r ++
      guardedEvents s.cfg s.cfg.addrSecond (r &&& ~~~(1#8 <<< s.cfg.chBit.val))) 0 ∧
    t.Idle ∧ t.dio.dir = .out ∧ t.dio.lvl = .driven (s.cfg.wpOn.getLsbD 7) ∧
    (s.cfg.chBit = 7 → r &&& ~~~(1#8 <<< s.cfg.chBit.val) = r &&& 0x7F#8) ∧
    (s.RefReady → protects s.cfg.wpOff = false → r = s.chip.cell s.cfg (.field .second) ∧
      t.chip.cell s.cfg (.field .second) = r &&& ~~~(1#8 <<< s.cfg.chBit.val) ∧
      t.chip.cell s.cfg .wp = s.cfg.wpOn)

/-- R134: `STOP` does the same with the clock-halt bit set. Rests on decisions D19, D20, D29. -/
def Obligations.StopSetsTheHaltBit : Prop := ∀ s : State, s.Ready → s.cfg.wf = true →
  ∃ t r, exec .stop s = .next t ∧
    s.Ran t (readFrameEvents (s.cfg.addrSecond + 1) r ++
      guardedEvents s.cfg s.cfg.addrSecond (r ||| 1#8 <<< s.cfg.chBit.val)) 0 ∧
    t.Idle ∧ t.dio.dir = .out ∧ t.dio.lvl = .driven (s.cfg.wpOn.getLsbD 7) ∧
    (s.cfg.chBit = 7 → r ||| 1#8 <<< s.cfg.chBit.val = r ||| 0x80#8) ∧
    (s.RefReady → protects s.cfg.wpOff = false → r = s.chip.cell s.cfg (.field .second) ∧
      t.chip.cell s.cfg (.field .second) = r ||| 1#8 <<< s.cfg.chBit.val ∧
      t.chip.cell s.cfg .wp = s.cfg.wpOn)

/-! ### Field accessors (42_field_accessors.md) -/

/-- R150, R152 to R158: a field read is one read frame at the field's write address plus one, and answers the byte
decoded from BCD and reduced by the field's modulus, plus `YEAR_BASE` for the year. For a byte with a digit above 9 it rests
on decision D14 (log 13); that the year is reduced on read is decision D13. -/
def Obligations.GetFieldDecodesAndReduces : Prop := ∀ (s : State) (f : Field), s.Ready → s.cfg.wf = true →
  ∃ t r, exec (getOf f) s = .next t ∧
    s.Ran t (readFrameEvents (fieldAddr s.cfg f + 1) r)
      (scalar (BitVec.ofNat 16 ((r.toNat / 16 * 10 + r.toNat % 16) % fieldModulus s.cfg f +
        if f = .year then s.cfg.yearBase else 0))) ∧
    t.Idle ∧ t.dio.dir = .inp ∧
    (s.cfg = Cfg.default → fieldModulus s.cfg f = tableModulus f ∧ s.cfg.yearBase = 2000)

/-- R151, R159 to R165: a field write is one guarded write, at the field's write address, of the operand reduced by the
field's modulus and encoded in BCD, whatever the field. Rests on decisions D24, D25, D29. -/
def Obligations.SetFieldWritesReducedBcd : Prop := ∀ (s : State) (f : Field) (v : Word16), s.Ready →
  ∃ t, exec (setOf v f) s = .next t ∧
    s.Ran t (guardedEvents s.cfg (fieldAddr s.cfg f) (BitVec.ofNat 8
      (v.toNat % fieldModulus s.cfg f / 10 * 16 + v.toNat % fieldModulus s.cfg f % 10))) 0 ∧
    t.Idle ∧ (s.cfg = Cfg.default → fieldModulus s.cfg f = tableModulus f)

/-! ### What frames leave unchanged -/

/-- R130, R150, R158, R168: the whole state after an operation of one read frame. `GET_REG` and `READ_RAM` answer the
byte as it is, at the address given and at the cell `idx mod RAM_CELLS`; a field read, `GET_YEAR` among them, keeps the
byte in `t` and answers its value. The peripheral is left as `State.ReadLeaves` says: at a read address the reference
peripheral keeps every register, at a write address it commits a byte at that address alone (R53, R69, U3). What it says of
`sh`, `acc`, `i`, `t` (log 30), the command port and `upc` (log 20), `res` (log 9) and `dioIn` (log 11) is the model's
choice. Rests on decisions D9, D13, D14 (log 13), D18, D19, D27, D29. -/
def Obligations.SingleReadsLeaveTheRest : Prop := ∀ s : State, s.Ready →
  (∀ a, ∃ r ls p, exec (.getReg a) s = .next ((s.afterReadFrame a r ls p).answered (.getReg a) [] (byteValue r)) ∧
    s.FromPort r ls p ∧ s.ReadLeaves a p) ∧
  (∀ idx, ∃ r ls p, exec (.readRam idx) s = .next
      ((s.afterReadFrame (readAddr s.cfg (ramAddr s.cfg (idx.toNat % s.cfg.ramCells))) r ls p).answered
        (.readRam idx) [] (byteValue r)) ∧
    s.FromPort r ls p ∧ s.ReadLeaves (readAddr s.cfg (ramAddr s.cfg (idx.toNat % s.cfg.ramCells))) p) ∧
  (∀ f, ∃ r ls p, exec (getOf f) s = .next
      ((({ s with t := r } : State).afterReadFrame (readAddr s.cfg (fieldAddr s.cfg f)) r ls p).answered
        (getOf f) [fieldValue s.cfg f r] (scalar (fieldValue s.cfg f r))) ∧
    s.FromPort r ls p ∧ s.ReadLeaves (readAddr s.cfg (fieldAddr s.cfg f)) p)

/-- R131, R132, R151, R163, R169: the whole state after `SET_REG`, and after an operation of one guarded write; a field
write or `WRITE_RAM` leaves its mutation record besides (R203, log 10). `SET_REG` leaves the peripheral as
`State.WriteLeaves` says, and stores at its address alone; a guarded write stores only there and at `ADDR_WP`. What it says of
`sh`, `i` (log 30), the command port and `upc` (log 20) and `res` (log 9) is the model's choice. Rests on decisions D9, D19,
D20, D21, D24, D27, D29. -/
def Obligations.WritesLeaveTheRest : Prop := ∀ s : State, s.Ready →
  (∀ a b, ∃ p, exec (.setReg a b) s = .next ((s.afterWriteFrame a b p).answered (.setReg a b) [] 0) ∧
    s.WriteLeaves a b p) ∧
  (∀ i a b, guardedTarget s.cfg i = some (a, b) → ∃ p, exec i s = .next
      ((({ s with journal := mutationsOf s.cfg i ++ s.journal } : State).afterGuardedWrite a b p).answered i [] 0) ∧
    s.StoresOnlyAt (guardedStores s.cfg a) p)

/-- R133, R134: the whole state after `START` and after `STOP`. `C` holds the command's word (R25). What it says of `sh`,
`acc`, `i`, `t` (log 30), the command port and `upc` (log 20) and `res` (log 9) is the model's choice. Rests on decisions
D19 (what the reference peripheral keeps), D29. -/
def Obligations.StartAndStopLeaveTheRest : Prop := ∀ s : State, s.Ready →
  (∃ r ls p q, exec .start s = .next
      (((({ s with t := r } : State).afterReadFrame (readAddr s.cfg s.cfg.addrSecond) r ls p).afterGuardedWrite
        s.cfg.addrSecond (startByte s.cfg r) q).answered .start [] 0) ∧
    s.FromPort r ls p ∧ (s.chip.kind = .external → q = s.chip) ∧
    (s.RefReady → ∀ k, k ≠ s.cfg.addrSecond.toNat → k ≠ s.cfg.addrWp.toNat →
      Memory.read q.cells k = Memory.read s.chip.cells k)) ∧
  (∃ r ls p q, exec .stop s = .next
      (((({ s with t := r } : State).afterReadFrame (readAddr s.cfg s.cfg.addrSecond) r ls p).afterGuardedWrite
        s.cfg.addrSecond (stopByte s.cfg r) q).answered .stop [] 0) ∧
    s.FromPort r ls p ∧ (s.chip.kind = .external → q = s.chip) ∧
    (s.RefReady → ∀ k, k ≠ s.cfg.addrSecond.toNat → k ≠ s.cfg.addrWp.toNat →
      Memory.read q.cells k = Memory.read s.chip.cells k))

/-- R166: `GET_DATETIME` is the seven read frames of the calendar snapshot, in its order, and answers their values; the
whole state after it. What it says of `sh`, `acc`, `i`, `t` (log 30), the command port and `upc` (log 20), `res` (log 9) and
`dioIn` (log 11) is the model's choice. Rests on decisions D12, D13, D14 (log 13), D19 (what the reference peripheral holds
and keeps), D29. -/
def Obligations.GetDatetimeReadsTheTuple : Prop := ∀ s : State, s.Ready →
  ∃ (r : Field → Byte) (ls : List Bool) (p : Chip), exec .getDatetime s = .next (({ s with
      sh := readAddr s.cfg s.cfg.addrSecond, acc := r .second, t := r .second, i := 7, dio := Pin.input, dioIn := ls,
      clk := Pin.driving false, cs := Pin.driving false, phase := .idle, chip := p,
      trace := ([Field.year, .month, .day, .weekday, .hour, .minute, .second].flatMap
        fun f => fieldReadEvents s.cfg f (r f)).reverse ++ s.trace,
      events := s.events + 364 } : State).answered .getDatetime
        ([Field.year, .month, .day, .weekday, .hour, .minute, .second].map fun f => fieldValue s.cfg f (r f))
        (packElements
          ([Field.year, .month, .day, .weekday, .hour, .minute, .second].map fun f => fieldValue s.cfg f (r f)))) ∧
    (s.chip.kind = .external → p = s.chip) ∧
    (s.RefReady → p.cells = s.chip.cells ∧ ∀ f, r f = s.chip.cell s.cfg (.field f))

/-- R167: `SET_DATETIME` is the seven guarded writes of the tuple, in its order; the whole state after it. What it says of
`sh`, `i` (log 30), the command port and `upc` (log 20), `res` (log 9) and the journal (log 10) is the model's choice.
Rests on decisions D12, D19 (what the reference peripheral keeps), D21, D24, D29. -/
def Obligations.SetDatetimeWritesTheTuple : Prop := ∀ (s : State) (y mo d wd h mi sec : Word16), s.Ready →
  ∃ p : Chip, exec (.setDatetime y mo d wd h mi sec) s = .next (({ s with
      sh := s.cfg.wpOn, i := 7, dio := Pin.driving (s.cfg.wpOn.getLsbD 7),
      clk := Pin.driving false, cs := Pin.driving false, phase := .idle, chip := p,
      journal := ([Field.year, .month, .day, .weekday, .hour, .minute, .second].map
        fun f => Mutation.field f (fieldReduce s.cfg f (tupleOf y mo d wd h mi sec f))).reverse ++ s.journal,
      trace := ([Field.year, .month, .day, .weekday, .hour, .minute, .second].flatMap
        fun f => fieldWriteEvents s.cfg f (tupleOf y mo d wd h mi sec f)).reverse ++ s.trace,
      events := s.events + 1092 } : State).answered (.setDatetime y mo d wd h mi sec) [] 0) ∧
    (s.chip.kind = .external → p = s.chip) ∧
    (s.RefReady → ∀ k, k ≠ s.cfg.addrWp.toNat → (∀ f, k ≠ (fieldAddr s.cfg f).toNat) →
      Memory.read p.cells k = Memory.read s.chip.cells k)

/-- R93, R166: element `k` of what `GET_DATETIME` answers is in bits 16k+15:16k of the response word, year, month, day,
weekday, hour, minute, second for `k` from 0 to 6. Rests on decisions D12, D13, D14 (log 13), D30. -/
def Obligations.DatetimeElementsInPlace : Prop := ∀ s : State, s.Ready →
  ∃ (t : State) (r : Field → Byte), exec .getDatetime s = .next t ∧ t.rsp.status = .ok ∧
    t.trace = ([Field.year, .month, .day, .weekday, .hour, .minute, .second].flatMap
      fun f => fieldReadEvents s.cfg f (r f)).reverse ++ s.trace ∧
    t.rsp.word.extractLsb' 0 16 = fieldValue s.cfg .year (r .year) ∧
    t.rsp.word.extractLsb' 16 16 = fieldValue s.cfg .month (r .month) ∧
    t.rsp.word.extractLsb' 32 16 = fieldValue s.cfg .day (r .day) ∧
    t.rsp.word.extractLsb' 48 16 = fieldValue s.cfg .weekday (r .weekday) ∧
    t.rsp.word.extractLsb' 64 16 = fieldValue s.cfg .hour (r .hour) ∧
    t.rsp.word.extractLsb' 80 16 = fieldValue s.cfg .minute (r .minute) ∧
    t.rsp.word.extractLsb' 96 16 = fieldValue s.cfg .second (r .second)

/-! ### BCD (43_bcd.md) -/

/-- R180, in its range: `DEC2BCD n` answers `(n div 10) * 16 + (n mod 10)` and performs no event. -/
def Obligations.Dec2bcdInRange : Prop := ∀ (s : State) (n : Byte), s.Accepting → n.toNat < 100 →
  ∃ t, exec (.dec2bcd n) s = .next t ∧ s.Ran t [] (scalar (BitVec.ofNat 16 (n.toNat / 10 * 16 + n.toNat % 10))) ∧
    t.clk = s.clk ∧ t.dio = s.dio ∧ t.cs = s.cs

/-- R181, in its range: `BCD2DEC n` answers `(n div 16) * 10 + (n mod 16)` and performs no event. -/
def Obligations.Bcd2decInRange : Prop := ∀ (s : State) (n : Byte),
  s.Accepting → n.toNat / 16 ≤ 9 → n.toNat % 16 ≤ 9 →
  ∃ t, exec (.bcd2dec n) s = .next t ∧ s.Ran t [] (scalar (BitVec.ofNat 16 (n.toNat / 16 * 10 + n.toNat % 16))) ∧
    t.clk = s.clk ∧ t.dio = s.dio ∧ t.cs = s.cs

/-- R183, decision D14 (log 13): out of their range too, the two blocks answer their formula; the whole
state after. `C` holds the command's word (R25); what it says of the command port and `upc` (log 20), `res` (log 9) and a chip
that keeps time (log 23) is the model's choice. -/
def Obligations.BcdCommandsLeaveTheRest : Prop := ∀ (s : State) (n : Byte), s.Accepting →
  exec (.dec2bcd n) s = .next
    (s.answered (.dec2bcd n) [] (scalar (BitVec.ofNat 16 (n.toNat / 10 * 16 + n.toNat % 10)))) ∧
  exec (.bcd2dec n) s = .next
    (s.answered (.bcd2dec n) [] (scalar (BitVec.ofNat 16 (n.toNat / 16 * 10 + n.toNat % 16))))

/-- R182: the two commands undo each other in their range. Rests on decision D30. -/
def Obligations.BcdCommandsRoundTrip : Prop := ∀ (s : State) (n : Byte), s.Accepting →
  (n.toNat < 100 → ∃ t u, exec (.dec2bcd n) s = .next t ∧
    exec (.bcd2dec (t.rsp.value.extractLsb' 0 8)) t = .next u ∧ u.rsp = { status := .ok, value := byteValue n }) ∧
  (n.toNat / 16 ≤ 9 → n.toNat % 16 ≤ 9 → ∃ t u, exec (.bcd2dec n) s = .next t ∧
    exec (.dec2bcd (t.rsp.value.extractLsb' 0 8)) t = .next u ∧ u.rsp = { status := .ok, value := byteValue n })

/-! ### The reference peripheral (20_memory.md R66 to R75) -/

/-- R6, R51, R52, R71: in an admissible configuration every register has a write address and a read address of its
own. Rests on decisions D8, D9. -/
def Obligations.EveryRegisterHasItsOwnAddress : Prop := ∀ (c : Cfg) (x : Reg), c.wf = true → x ∈ regMap c →
  isReadAddr (regAddr c x) = false ∧ decodeAddr c (regAddr c x) = some x ∧
  isReadAddr (readAddr c (regAddr c x)) = true ∧ decodeAddr c (readAddr c (regAddr c x)) = some x

/-- R69, R71, R75 (a), R75 (c): an operation of one read frame at a read address finds what the register of the address
holds, or any byte where no register has the address (U4), and changes no register. Rests on decision D19. -/
def Obligations.ReadFrameReturnsTheRegister : Prop := ∀ (s : State) (i : Instr) (a : Byte), s.RefReady →
  readTarget s.cfg i = some a → isReadAddr a = true →
    ∃ t r, exec i s = .next t ∧ t.trace = (readFrameEvents a r).reverse ++ s.trace ∧
      (∀ x, decodeAddr s.cfg a = some x → r = s.chip.cell s.cfg x) ∧
      t.chip.cells = s.chip.cells ∧ t.chip.drv = none ∧ t.Idle

/-- R59, R70, R75 (b), R234: `SET_REG` at a write address stores the byte in that register alone, if it is `WP` or
protection is off; else, or where no register has the address, it stores nothing. Rests on decisions D19, D20. -/
def Obligations.WriteFrameCommits : Prop := ∀ (s : State) (a b : Byte), s.RefReady → isReadAddr a = false →
  ∃ t, exec (.setReg a b) s = .next t ∧ t.rsp.status = .ok ∧ t.chip.drv = none ∧
    (decodeAddr s.cfg a = none → t.chip.cells = s.chip.cells) ∧
    ∀ x, decodeAddr s.cfg a = some x →
      (x = .wp ∨ protects (s.chip.cell s.cfg .wp) = false → t.chip.cell s.cfg x = b ∧
        ∀ k, k ≠ a.toNat → Memory.read t.chip.cells k = Memory.read s.chip.cells k) ∧
      (x ≠ .wp → protects (s.chip.cell s.cfg .wp) = true → t.chip.cells = s.chip.cells)

/-- R53, R68, R69, R229: `SET_REG` at a read address stores nothing; `GET_REG` at a write address has the effect of a
`SET_REG` there of a byte that nothing fixes. Rests on decision D19. -/
def Obligations.MispairedFrames : Prop := ∀ (s : State) (a b : Byte), s.RefReady →
  (isReadAddr a = true → ∃ t, exec (.setReg a b) s = .next t ∧ t.chip.cells = s.chip.cells) ∧
  (isReadAddr a = false → ∃ t v u, exec (.getReg a) s = .next t ∧ exec (.setReg a v) s = .next u ∧
    t.chip.cells = u.chip.cells)

/-- R59, R60 (d), R132: an operation of one guarded write leaves `WP_ON` in `WP` and stores nowhere but there and at its
address. It puts its byte in the register of that address whatever the protection was, if `WP_OFF` lifts it; at a read
address, at an address of no register, or where `WP_OFF` protects, it stores nothing but in `WP`. Rests on decisions D19,
D20. -/
def Obligations.GuardedWriteCommits : Prop := ∀ (s : State) (i : Instr) (a b : Byte), s.RefReady →
  guardedTarget s.cfg i = some (a, b) →
    ∃ t, exec i s = .next t ∧ t.chip.cell s.cfg .wp = s.cfg.wpOn ∧
      (∀ k, k ≠ a.toNat → k ≠ s.cfg.addrWp.toNat → Memory.read t.chip.cells k = Memory.read s.chip.cells k) ∧
      (∀ x, protects s.cfg.wpOff = false → isReadAddr a = false → decodeAddr s.cfg a = some x → x ≠ .wp →
        t.chip.cell s.cfg x = b) ∧
      (isReadAddr a = true ∨ decodeAddr s.cfg a = none ∨ protects s.cfg.wpOff = true →
        ∀ k, k ≠ s.cfg.addrWp.toNat → Memory.read t.chip.cells k = Memory.read s.chip.cells k)

/-- R172: a field read after a write of the field answers the value reduced by the modulus, plus the offset.
Rests on decisions D13, D19, D24. -/
def Obligations.FieldRoundTrip : Prop := ∀ (s : State) (f : Field) (v : Word16), s.RefReady →
  protects s.cfg.wpOff = false →
    ∃ t u, exec (setOf v f) s = .next t ∧ exec (getOf f) t = .next u ∧
      u.rsp = { status := .ok,
                value := scalar (BitVec.ofNat 16 (v.toNat % fieldModulus s.cfg f + fieldOffset s.cfg f)) }

/-- R168, R169, R172: `READ_RAM j` after `WRITE_RAM i, b` answers `b` whenever the indices name one cell.
Rests on decisions D9, D19, D26. -/
def Obligations.RamAliasRoundTrip : Prop := ∀ (s : State) (i j : Word16) (b : Byte), s.RefReady →
  protects s.cfg.wpOff = false → i.toNat % s.cfg.ramCells = j.toNat % s.cfg.ramCells →
    ∃ t u, exec (.writeRam i b) s = .next t ∧ exec (.readRam j) t = .next u ∧
      u.rsp = { status := .ok, value := byteValue b }

/-- R172: `GET_DATETIME` after `SET_DATETIME` answers the tuple, each element reduced and the year offset.
Rests on decisions D12, D13, D19, D24. -/
def Obligations.DatetimeRoundTrip : Prop := ∀ (s : State) (y mo d wd h mi sec : Word16), s.RefReady →
  protects s.cfg.wpOff = false →
    ∃ t u, exec (.setDatetime y mo d wd h mi sec) s = .next t ∧ exec .getDatetime t = .next u ∧
      u.rsp = { status := .ok,
                value := packElements ([Field.year, .month, .day, .weekday, .hour, .minute, .second].map fun f =>
                  BitVec.ofNat 16 ((tupleOf y mo d wd h mi sec f).toNat % fieldModulus s.cfg f +
                    fieldOffset s.cfg f)) }

/-- R133, R134: `STOP` halts the oscillator, `START` after it lets it run, and the other bits of `SECOND` are as they
were. Rests on decision D19. -/
def Obligations.StopThenStartRestores : Prop := ∀ s : State, s.RefReady → protects s.cfg.wpOff = false →
  ∃ t u, exec .stop s = .next t ∧ exec .start t = .next u ∧
    clockHalted s.cfg (t.chip.cell s.cfg (.field .second)) = true ∧
    clockHalted s.cfg (u.chip.cell s.cfg (.field .second)) = false ∧
    ∀ k : Nat, k ≠ s.cfg.chBit.val →
      (u.chip.cell s.cfg (.field .second)).getLsbD k = (s.chip.cell s.cfg (.field .second)).getLsbD k

/-- R227 (b): with the clock-halt bit set, `GET_SECOND` answers the second plus 20, modulo 60.
Rests on decisions D14, D19. -/
def Obligations.HaltedSecondReadsWrong : Prop := ∀ (s : State) (x : Byte), s.RefReady → s.cfg.chBit = 7 →
  s.cfg.mSecond = 60 → x.getLsbD 7 = false → s.chip.cell s.cfg (.field .second) = x ||| 0x80#8 →
    ∃ t, exec .getSecond s = .next t ∧
      t.rsp = { status := .ok, value := scalar (BitVec.ofNat 16 ((bcd2dec x.toNat + 20) % 60)) }

/-- R227 (a): `SET_SECOND` and `SET_DATETIME` let the oscillator run. Rests on decision D19. -/
def Obligations.SetSecondStartsTheOscillator : Prop := ∀ (s : State) (y mo d wd h mi sec : Word16), s.RefReady →
  protects s.cfg.wpOff = false → s.cfg.chBit = 7 → s.cfg.mSecond = 60 →
    (∃ t, exec (.setSecond sec) s = .next t ∧ clockHalted s.cfg (t.chip.cell s.cfg (.field .second)) = false) ∧
    (∃ t, exec (.setDatetime y mo d wd h mi sec) s = .next t ∧
      clockHalted s.cfg (t.chip.cell s.cfg (.field .second)) = false)

/-- R74: on a chip that keeps time, every operation leaves every byte as it was outside the calendar registers and the
addresses it stores at, and a read at a read address while the oscillator is halted changes none. That the bytes in the
calendar change when a frame begins and at no other time is log 23. Rests on decisions D19, D27. -/
def Obligations.TickingChipKeepsTheRest : Prop := ∀ (s : State) (i : Instr), s.Ready → s.chip.kind = .ticking →
  ∃ t, exec i s = .next t ∧
    (∀ k, k ∉ storedAt s.cfg i → (∀ f, k ≠ (fieldAddr s.cfg f).toNat) →
      Memory.read t.chip.cells k = Memory.read s.chip.cells k) ∧
    (∀ a, readTarget s.cfg i = some a → isReadAddr a = true →
      clockHalted s.cfg (s.chip.cell s.cfg (.field .second)) = true → t.chip.cells = s.chip.cells)

/-- R59, R70, R74: on a chip that keeps time, `WP`, `CTRL` and the RAM are read as they stand; `SET_REG` at a write address
puts its byte in its register, if that is `WP` or protection is off, and does not reach `CTRL` or the RAM else; a
guarded write at a register of these puts its byte there, if `WP_OFF` lifts protection; every guarded write leaves `WP_ON`
in `WP`. The clause on a calendar register reads the byte stored between two frames, where the model's choice of when the
chip advances it (log 23) shows. Rests on decisions D19, D20, D27. -/
def Obligations.TickingChipStoresWhatIsWritten : Prop := ∀ s : State, s.Ready → s.cfg.wf = true →
  s.chip.kind = .ticking →
  (∀ i a x, readTarget s.cfg i = some a → isReadAddr a = true → decodeAddr s.cfg a = some x → (∀ f, x ≠ .field f) →
    ∃ t, exec i s = .next t ∧ t.trace = (readFrameEvents a (s.chip.cell s.cfg x)).reverse ++ s.trace) ∧
  (∀ a b x, isReadAddr a = false → decodeAddr s.cfg a = some x →
    ∃ t, exec (.setReg a b) s = .next t ∧
      (x = .wp ∨ protects (s.chip.cell s.cfg .wp) = false → t.chip.cell s.cfg x = b) ∧
      (x ≠ .wp → protects (s.chip.cell s.cfg .wp) = true → (∀ f, x ≠ .field f) →
        t.chip.cell s.cfg x = s.chip.cell s.cfg x)) ∧
  (∀ i a b, guardedTarget s.cfg i = some (a, b) →
    ∃ t, exec i s = .next t ∧ t.chip.cell s.cfg .wp = s.cfg.wpOn ∧
      (∀ x, protects s.cfg.wpOff = false → isReadAddr a = false → decodeAddr s.cfg a = some x → x ≠ .wp →
        (∀ f, x ≠ .field f) → t.chip.cell s.cfg x = b)) ∧
  (∀ i, i = .start ∨ i = .stop ∨ (∃ y mo d wd h mi sec, i = .setDatetime y mo d wd h mi sec) →
    ∃ t, exec i s = .next t ∧ t.chip.cell s.cfg .wp = s.cfg.wpOn)

/-- R70, R74, R132, R151: on a chip that keeps time a guarded write at a calendar register puts its byte there, if `WP_OFF`
lifts protection: the register holds it at the end of the frame that carries it, the 104th event of the operation or, for
element `k` of `SET_DATETIME`, event 156k + 104; and it holds it after the operation if the oscillator is halted, before the
write or, at `SECOND`, by it. `STOP` leaves the oscillator halted, and the frame in which `START` writes, which ends at event
156, lets it run. That the chip advances these registers only when a frame begins is the model's choice (log 23), and one
event a step is the view of log 7. Rests on decisions D19, D20, D27. -/
def Obligations.TickingChipStoresInTheCalendar : Prop := ∀ s : State, s.Ready → s.cfg.wf = true →
  s.chip.kind = .ticking → protects s.cfg.wpOff = false →
  (∀ i a b f, guardedTarget s.cfg i = some (a, b) → isReadAddr a = false → decodeAddr s.cfg a = some (.field f) →
    (f ≠ .second ∧ clockHalted s.cfg (s.chip.cell s.cfg (.field .second)) = true ∨
        f = .second ∧ clockHalted s.cfg b = true →
      ∃ t, exec i s = .next t ∧ t.chip.cell s.cfg (.field f) = b) ∧
    (s.resetPin = false → s.stepping = .event → s.cmd = some (encode i) →
      ∃ u, Sys2Proof.core.run 105 s = .next u ∧ u.chip.cell s.cfg (.field f) = b)) ∧
  (∃ t, exec .stop s = .next t ∧ clockHalted s.cfg (t.chip.cell s.cfg (.field .second)) = true) ∧
  (s.resetPin = false → s.stepping = .event →
    (s.cmd = some (encode .start) →
      ∃ u, Sys2Proof.core.run 157 s = .next u ∧ clockHalted s.cfg (u.chip.cell s.cfg (.field .second)) = false) ∧
    ∀ y mo d wd h mi sec k f, s.cmd = some (encode (.setDatetime y mo d wd h mi sec)) →
      [Field.year, .month, .day, .weekday, .hour, .minute, .second][k]? = some f →
        ∃ u, Sys2Proof.core.run (156 * k + 105) s = .next u ∧
          u.chip.cell s.cfg (.field f) = fieldByte s.cfg f (tupleOf y mo d wd h mi sec f))

/-! ### Whole-machine rules -/

/-- R135: an operation made of frames performs complete frames of 16 clock pulses and nothing between them.
Rests on decision D29. -/
def Obligations.FramesAreComplete : Prop := ∀ (s : State) (i : Instr), s.Ready → isFramed i = true →
  ∃ (t : State) (es : List Event), exec i s = .next t ∧ t.trace = es.reverse ++ s.trace ∧ framed es = true

/-- R102: the shape of the event list of an operation depends on its operation code alone. Rests on decision D29. -/
def Obligations.ShapeDependsOnTheCodeAlone : Prop := ∀ (s s' : State) (i j : Instr), s.Ready → s'.Ready →
  opcode i = opcode j →
    ∃ (t t' : State) (es es' : List Event), exec i s = .next t ∧ exec j s' = .next t' ∧
      t.trace = es.reverse ++ s.trace ∧ t'.trace = es'.reverse ++ s'.trace ∧
      es.map Event.shape = es'.map Event.shape

/-- R193, R197: when event `k` of an operation is the first to fail, exactly the events before it have happened, and the
response is `(LINE_FAULT, 0)`. Rests on decision D16. -/
def Obligations.LineFaultEndsWhereItStands : Prop := ∀ (s : State) (i : Instr) (k : Nat) (rest : List Bool),
  s.Idle → s.cfg.lineFaults = true → k < eventCount i → s.lineFail = List.replicate k false ++ true :: rest →
    ∃ (t u : State) (es : List Event), exec i s = .next t ∧
      exec i { s with cfg := { s.cfg with lineFaults := false } } = .next u ∧
      u.trace = es.reverse ++ s.trace ∧ t.trace = (es.take k).reverse ++ s.trace ∧
      t.rsp = { status := .lineFault, value := 0 } ∧ t.busy = false ∧ t.lineFail = rest

/-- R8: the two views agree. One step for the acceptance, one for each line event and one for the response lead where
the operation leads. Rests on decision D1. -/
def Obligations.EventViewAgrees : Prop := ∀ (s : State) (i : Instr), s.busy = false → s.resetPin = false →
  s.cmd = some (encode i) → s.stepping = .event → s.cfg.lineFaults = false → (i ≠ .init → s.Accepting) →
    ∃ t, exec i s = .next t ∧ Sys2Proof.core.run (eventCount i + 2) s = .next t

/-- R136, R221, R224: a reset between the frames of a guarded write leaves `WP_OFF` in `WP` and the lines idle.
Rests on decisions D11, D19, D20. -/
def Obligations.CutGuardedWriteLeavesProtectionOff : Prop := ∀ (s : State) (a b : Byte) (k : Nat), s.RefReady →
  s.resetPin = false → s.stepping = .event → s.cmd = some (encode (.wpWrite a b)) →
  decodeAddr s.cfg a ≠ some .wp → k = 52 ∨ k = 104 →
    ∃ u v, Sys2Proof.core.run (k + 1) s = .next u ∧ step { u with resetPin := true } = .next v ∧
      v.chip.cell s.cfg .wp = s.cfg.wpOff ∧ v.Idle

/-- R167, R225: a reset after three of the seven guarded writes of `SET_DATETIME` leaves the year, the month and the day
new and the rest as it was. Rests on decisions D11, D12, D19. -/
def Obligations.CutDatetimeIsTorn : Prop := ∀ (s : State) (y mo d wd h mi sec : Word16), s.RefReady →
  protects s.cfg.wpOff = false → s.resetPin = false → s.stepping = .event →
  s.cmd = some (encode (.setDatetime y mo d wd h mi sec)) →
    ∃ u v, Sys2Proof.core.run 469 s = .next u ∧ step { u with resetPin := true } = .next v ∧
      v.chip.cell s.cfg (.field .year) = fieldByte s.cfg .year y ∧
      v.chip.cell s.cfg (.field .month) = fieldByte s.cfg .month mo ∧
      v.chip.cell s.cfg (.field .day) = fieldByte s.cfg .day d ∧
      (∀ f ∈ [Field.weekday, .hour, .minute, .second],
        v.chip.cell s.cfg (.field f) = s.chip.cell s.cfg (.field f)) ∧
      v.chip.cell s.cfg .wp = s.cfg.wpOn

/-- R5, R8: no step changes the configuration or undoes an event. That none changes the kind of the peripheral is the
model's choice (log 24), and so are what a step is (log 7), the event count (log 5), the trace and the journal (log 10). -/
def Obligations.StepKeepsTheConfiguration : Prop := ∀ s t : State, step s = .next t →
  t.cfg = s.cfg ∧ t.chip.kind = s.chip.kind ∧ t.stepping = s.stepping ∧ s.events ≤ t.events ∧
    (∃ es, t.trace = es ++ s.trace) ∧ ∃ ms, t.journal = ms ++ s.journal

/-- Every step keeps the invariant: the register store canonical, the lines and the phase as R20 to R24 say, the
peripheral as R66 and R72 say (decision D19), the sequencer inside a legal operation, an abnormal response with value 0.
That the phase is `selected` after a `SET(CS, 1)` while `CS` is high is log 33, and the level an output without a level
holds is log 17. -/
def Obligations.StepKeepsInvariant : Prop := ∀ s t : State, s.Inv → step s = .next t → t.Inv

/-- The invariant holds right after reset and at power-up. What the state at power-up is, beyond its unset lines (R20), is
the model's choice (log 22). -/
def Obligations.ResetMeetsInvariant : Prop := State.reset.Inv ∧ State.powerUp.Inv

/-- R190: no step from a state that meets the invariant faults. -/
def Obligations.InvariantStatesNeverFault : Prop := ∀ (s : State) (f : Fault), s.Inv → step s ≠ .fault f

/-- R5, R6: the defaults of the table are an admissible configuration; `T_EDGE` has none. The ten addresses are PRESUMED
(log 1, decision D8). Rests on decisions D2, D4, D9, D16, D24, D25 besides. -/
def Obligations.DefaultConfigurationIsTheTable : Prop :=
  Cfg.default.wf = true ∧ (∀ f : Field, fieldModulus Cfg.default f = tableModulus f) ∧
  Cfg.default.addrSecond = 0x80 ∧ Cfg.default.addrMinute = 0x82 ∧ Cfg.default.addrHour = 0x84 ∧
  Cfg.default.addrDay = 0x86 ∧ Cfg.default.addrMonth = 0x88 ∧ Cfg.default.addrWeekday = 0x8A ∧
  Cfg.default.addrYear = 0x8C ∧ Cfg.default.addrWp = 0x8E ∧ Cfg.default.addrCtrl = 0x90 ∧
  Cfg.default.addrRam = 0xC0 ∧ Cfg.default.ramStride = 2 ∧ Cfg.default.wInt = 16 ∧ Cfg.default.wCmd = 128 ∧
  Cfg.default.ramCells = 31 ∧ Cfg.default.readOffset = 1 ∧ Cfg.default.yearBase = 2000 ∧ Cfg.default.chBit = 7 ∧
  Cfg.default.wpOff = 0x00 ∧ Cfg.default.wpOn = 0x80 ∧ Cfg.default.lineFaults = false
end

