-- ==== Sys2Proof/Laws/Bcd.lean ====
section
/-! SUPPORT. BCD and the field values (43_bcd.md R182, 42_field_accessors.md R170). -/

namespace Sys2Proof.Machine

theorem dec2bcd_lt (n : Nat) (h : n < 100) : dec2bcd n < 256 := by simp only [dec2bcd]; omega

theorem bcd2dec_le (b : Byte) : bcd2dec b.toNat ≤ 165 := by
  have := b.isLt
  simp only [bcd2dec]; omega

theorem bcd2dec_lt (n : Nat) (h : n / 16 ≤ 9) (h' : n % 16 ≤ 9) : bcd2dec n < 100 := by
  simp only [bcd2dec]; omega

end Sys2Proof.Machine
end

