-- ==== Sys2Proof/Laws/Config.lean ====
section
/-! SUPPORT. What an admissible configuration gives: addresses that differ, parities, moduli (00_scope.md R6). -/

namespace Sys2Proof.Machine

/-- The element of a list that a key names, where no two have the same key. -/
theorem find_unique {α β : Type} [BEq β] [LawfulBEq β] (f : α → β) (l : List α) (x : α) (hx : x ∈ l)
    (hn : (l.map f).Nodup) :
    (l.find? fun r => f r == f x) = some x := by
  induction l with
  | nil => simp at hx
  | cons y l ih =>
    simp only [List.map_cons, List.nodup_cons] at hn
    rw [List.find?_cons]
    by_cases h : f y = f x
    · have : x = y := by
        rcases List.mem_cons.1 hx with h' | h'
        · exact h'
        · exact absurd (h ▸ List.mem_map_of_mem h') hn.1
      simp [this]
    · have : x ∈ l := by
        rcases List.mem_cons.1 hx with h' | h'
        · exact absurd (by rw [h']) h
        · exact h'
      have hf : (f y == f x) = false := by simpa using h
      simp [hf, ih this hn.2]

/-- R6, clause by clause. -/
structure CfgOk (c : Cfg) : Prop where
  even : ∀ a ∈ c.addrRam :: c.nonRam, a.getLsbD 0 = false
  nodup : c.nonRam.Nodup
  stride : c.ramStride % 2 = 0
  stride2 : 2 ≤ c.ramStride
  cells : 0 < c.ramCells
  fits : c.addrRam.toNat + c.ramStride * (c.ramCells - 1) + c.readOffset ≤ 255
  disj : ∀ a ∈ c.ramAddrs, ∀ b ∈ c.nonRam, b.toNat ≠ a
  off : c.readOffset = 1
  moduli : ∀ f, 0 < fieldModulus c f ∧ fieldModulus c f ≤ 100
  year : c.yearBase + c.mYear ≤ 65536

theorem cfgOk (c : Cfg) (h : c.wf = true) : CfgOk c := by
  simp only [Cfg.wf, Bool.and_eq_true] at h
  obtain ⟨⟨⟨⟨⟨⟨⟨⟨h1, h2⟩, h3⟩, h4⟩, h5⟩, h6⟩, h7⟩, h8⟩, -⟩ := h
  constructor
  · simpa [Cfg.addrsEven, Cfg.nonRam] using h1
  · simpa [Cfg.nonRamDistinct] using h2
  · have := h3; simp [Cfg.strideOk] at this; exact this.1
  · have := h3; simp [Cfg.strideOk] at this; exact this.2
  · have := h4; simp [Cfg.ramFits] at this; exact this.1
  · have := h4; simp [Cfg.ramFits] at this; exact this.2
  · simp only [Cfg.ramDisjoint, List.all_eq_true] at h5
    intro a ha b hb
    simpa using h5 a ha b hb
  · simpa [Cfg.readOffsetOne] using h6
  · simp [Cfg.moduliOk] at h7
    intro f; cases f <;> simp [fieldModulus] <;> tauto
  · simpa [Cfg.yearFits] using h8

theorem ramAddr_toNat {c : Cfg} (h : CfgOk c) {k : Nat} (hk : k < c.ramCells) :
    (ramAddr c k).toNat = c.addrRam.toNat + c.ramStride * k := by
  have h1 : c.ramStride * k ≤ c.ramStride * (c.ramCells - 1) := Nat.mul_le_mul_left _ (by omega)
  have := h.fits
  simp only [ramAddr, BitVec.toNat_ofNat]
  apply Nat.mod_eq_of_lt; omega

/-- No two registers have one write address (R6). -/
theorem regMap_nodup {c : Cfg} (h : CfgOk c) : ((regMap c).map (regAddr c)).Nodup := by
  have e : (regMap c).map (regAddr c) = c.nonRam ++ (List.range c.ramCells).map (ramAddr c) := by
    simp [regMap, regAddr, fieldAddr, Cfg.nonRam, Function.comp_def]
  rw [e, List.nodup_append]
  refine ⟨h.nodup, ?_, ?_⟩
  · refine List.Nodup.map_on ?_ (List.nodup_range)
    intro a ha b hb hab
    have ha' := ramAddr_toNat h (List.mem_range.1 ha)
    have hb' := ramAddr_toNat h (List.mem_range.1 hb)
    rw [hab, hb'] at ha'
    have : c.ramStride * b = c.ramStride * a := by omega
    exact (Nat.eq_of_mul_eq_mul_left (by have := h.stride2; omega) this).symm
  · intro a ha b hb hab
    obtain ⟨k, hk, rfl⟩ := List.mem_map.1 hb
    refine h.disj _ ?_ a ha (by rw [hab, ramAddr_toNat h (List.mem_range.1 hk)])
    exact List.mem_map.2 ⟨k, hk, rfl⟩

/-- A register is found at its write address (R71). -/
theorem regAt_self {c : Cfg} (h : CfgOk c) {x : Reg} (hx : x ∈ regMap c) : regAt c (regAddr c x) = some x :=
  find_unique (regAddr c) (regMap c) x hx (regMap_nodup h)

/-- Bit 0 of an address is its parity (R52). -/
theorem lsb_mod (a : Byte) : a.getLsbD 0 = decide (a.toNat % 2 = 1) := by
  simp [BitVec.getLsbD, Nat.testBit_zero]

theorem regAddr_even {c : Cfg} (h : CfgOk c) {x : Reg} (hx : x ∈ regMap c) : (regAddr c x).getLsbD 0 = false := by
  simp only [regMap, List.mem_append, List.mem_cons, List.mem_map, List.mem_range, List.not_mem_nil, or_false] at hx
  have he := h.even
  simp only [Cfg.nonRam, List.forall_mem_cons] at he
  obtain ⟨e0, e1, e2, e3, e4, e5, e6, e7, e8, e9, -⟩ := he
  rcases hx with (rfl | rfl | rfl | rfl | rfl | rfl | rfl | rfl | rfl) | ⟨k, hk, rfl⟩ <;> try assumption
  simp only [regAddr]
  rw [lsb_mod] at *
  rw [ramAddr_toNat h hk]
  have := h.stride
  have h2 : c.ramStride * k % 2 = 0 := by rw [Nat.mul_mod, this]; simp
  simp at e0 ⊢; omega

theorem writeAddrOf_even (a : Byte) (h : a.getLsbD 0 = false) :
    writeAddrOf a = a ∧ writeAddrOf (a + 1) = a ∧ (a + 1).getLsbD 0 = true := by
  revert a; simp only [writeAddrOf]; decide +kernel

theorem readAddr_eq {c : Cfg} (h : CfgOk c) (a : Byte) : readAddr c a = a + 1 := by simp [readAddr, h.off]

/-- What a field read makes of the byte a field write made (R172, R182). -/
theorem fieldValue_fieldByte {c : Cfg} (hc : CfgOk c) (f : Field) (v : Word16) :
    fieldValue c f (fieldByte c f v) = BitVec.ofNat 16 (v.toNat % fieldModulus c f + fieldOffset c f) := by
  have hm := hc.moduli f
  have hlt : v.toNat % fieldModulus c f < fieldModulus c f := Nat.mod_lt _ hm.1
  simp only [fieldValue, fieldByte, fieldReduce]
  generalize v.toNat % fieldModulus c f = m at *
  have h1 : dec2bcd m < 2 ^ 8 := dec2bcd_lt m (by omega)
  have h2 : bcd2dec (dec2bcd m) = m := by simp only [bcd2dec, dec2bcd]; omega
  rw [BitVec.toNat_ofNat, Nat.mod_eq_of_lt h1, h2, Nat.mod_eq_of_lt hlt]

/-- Every register of the map is reached by a write address and a read address (R52, R71). -/
theorem reached {c : Cfg} (hc : CfgOk c) {x : Reg} (hx : x ∈ regMap c) :
    decodeAddr c (regAddr c x) = some x ∧ (readAddr c (regAddr c x)).getLsbD 0 = true ∧
      decodeAddr c (readAddr c (regAddr c x)) = some x := by
  obtain ⟨e1, e2, e3⟩ := writeAddrOf_even _ (regAddr_even hc hx)
  refine ⟨?_, ?_, ?_⟩
  · rw [decodeAddr, e1]; exact regAt_self hc hx
  · rw [readAddr_eq hc]; exact e3
  · rw [decodeAddr, readAddr_eq hc, e2]; exact regAt_self hc hx

end Sys2Proof.Machine
end

