-- ==== Sys2Proof/Laws/Encoding.lean ====
section
/-! SUPPORT. The encoding, part by part: command word, operands, formats (30_encoding.md R91, R92, R94 to R96). -/

namespace Sys2Proof

/-! ### The three parts of a command word (R91) -/

theorem Command.op_parts (o r : Byte) (p : Payload) : Command.op (o ++ r ++ p) = o := by
  simp only [Command.op]; apply BitVec.eq_of_getLsbD_eq; intro k hk
  simp only [BitVec.getLsbD_extractLsb', BitVec.getLsbD_append, hk]
  have h1 : ¬ (120 + k < 112) := by omega
  have h2 : ¬ (120 + k - 112 < 8) := by omega
  simp [h1, h2, show 120 + k - 112 - 8 = k by omega]

theorem Command.rsv_parts (o r : Byte) (p : Payload) : Command.rsv (o ++ r ++ p) = r := by
  simp only [Command.rsv]; apply BitVec.eq_of_getLsbD_eq; intro k hk
  simp only [BitVec.getLsbD_extractLsb', BitVec.getLsbD_append, hk]
  have h1 : ¬ (112 + k < 112) := by omega
  simp [h1, hk, show 112 + k - 112 = k by omega]

theorem Command.payload_parts (o r : Byte) (p : Payload) : Command.payload (o ++ r ++ p) = p := by
  simp only [Command.payload]; apply BitVec.eq_of_getLsbD_eq; intro k hk
  simp only [BitVec.getLsbD_extractLsb', BitVec.getLsbD_append, hk, Nat.zero_add, decide_true, Bool.true_and, if_true]

theorem Command.parts (w : Command) : ∃ (o r : Byte) (p : Payload), w = o ++ r ++ p := by
  refine ⟨w.extractLsb' 120 8, w.extractLsb' 112 8, w.extractLsb' 0 112, ?_⟩
  apply BitVec.eq_of_getLsbD_eq; intro k hk
  simp only [BitVec.getLsbD_extractLsb', BitVec.getLsbD_append]
  by_cases h1 : k < 112
  · simp [h1]
  · by_cases h2 : k - 112 < 8
    · simp [h1, h2, show 112 + (k - 112) = k by omega]
    · simp [h1, h2, show 120 + (k - 112 - 8) = k by omega]; intro; omega

/-- The decoder, part by part (R96): the code, then the reserved field, then the payload. -/
theorem decode_parts (o r : Byte) (p : Payload) : decode (o ++ r ++ p) = match assemble o p, formatOf o with
    | some i, some f => if r = 0#8 then if p &&& ~~~f.free = 0#112 then .ok i else .error .payloadBit
        else .error .reservedField
    | _, _ => .error .reservedOpcode := by
  have hs : (assemble o p).isSome = (formatOf o).isSome := by
    simp only [assemble, formatOf]; split <;> rfl
  have h1 : Command.rsvClear (o ++ r ++ p) = (r == 0#8) := by rw [Command.rsvClear, Command.rsv_parts]
  have h2 : Command.payloadClear (o ++ r ++ p) = match formatOf o with
      | some f => p &&& ~~~f.free == 0#112
      | none   => false := by
    cases h : formatOf o <;> simp [Command.payloadClear, Command.op_parts, Command.payload_parts, h]
  rw [decode, Command.op_parts, Command.payload_parts, h1, h2]
  cases ha : assemble o p <;> cases hf : formatOf o <;> simp [ha, hf] at hs ⊢

/-! ### The payload bits a format leaves free (R92) -/

theorem free_bits (f : Format) (k : Nat) (hk : k < 112) : f.free.getLsbD k = match f with
    | .n => false
    | .b => decide (16 ≤ k ∧ k < 24)
    | .r => decide (k < 8)
    | .rb => decide (k < 8 ∨ 16 ≤ k ∧ k < 24)
    | .v => decide (k < 16)
    | .vb => decide (k < 24)
    | .t => true := by
  have : ∀ k : Fin 112, f.free.getLsbD k.val = match f with
    | .n => false
    | .b => decide (16 ≤ k.val ∧ k.val < 24)
    | .r => decide (k.val < 8)
    | .rb => decide (k.val < 8 ∨ 16 ≤ k.val ∧ k.val < 24)
    | .v => decide (k.val < 16)
    | .vb => decide (k.val < 24)
    | .t => true := by cases f <;> decide +kernel
  exact this ⟨k, hk⟩

/-- A bit that the format does not leave free is 0 in a legal payload. -/
theorem payload_bit {f : Format} {p : Payload} (h : p &&& ~~~f.free = 0#112) {k : Nat} (hk : k < 112)
    (hf : f.free.getLsbD k = false) : p.getLsbD k = false := by
  have := congrArg (fun q => BitVec.getLsbD q k) h
  simpa only [BitVec.getLsbD_and, BitVec.getLsbD_not, hf, hk, decide_true, Bool.true_and, Bool.not_false, Bool.and_true,
    BitVec.getLsbD_zero] using this

/-! ### A legal payload is the pack of its operands -/

theorem packB_operand {p : Payload} (h : p &&& ~~~Format.free .b = 0#112) : packB (operandB p) = p := by
  apply BitVec.eq_of_getLsbD_eq; intro k hk
  have z := payload_bit h hk
  rw [free_bits _ k hk] at z
  simp only [packB, operandB, BitVec.getLsbD_extractLsb', BitVec.getLsbD_append, BitVec.getLsbD_zero]
  by_cases h1 : k < 16
  · simp only [h1, if_true]; exact (z (by simp; omega)).symm
  · by_cases h2 : k - 16 < 8
    · simp only [h1, h2, if_true, if_false, decide_true, Bool.true_and, Nat.add_sub_cancel' (Nat.le_of_not_lt h1)]
    · simp only [h1, h2, if_false]; exact (z (by simp; omega)).symm

theorem packR_operand {p : Payload} (h : p &&& ~~~Format.free .r = 0#112) : packR (operandA8 p) = p := by
  apply BitVec.eq_of_getLsbD_eq; intro k hk
  have z := payload_bit h hk
  rw [free_bits _ k hk] at z
  simp only [packR, operandA8, BitVec.getLsbD_extractLsb', BitVec.getLsbD_append, BitVec.getLsbD_zero]
  by_cases h1 : k < 8
  · simp only [h1, if_true, decide_true, Bool.true_and, Nat.zero_add]
  · simp only [h1, if_false]; exact (z (by simp; omega)).symm

theorem packRB_operand {p : Payload} (h : p &&& ~~~Format.free .rb = 0#112) :
    packRB (operandA8 p) (operandB p) = p := by
  apply BitVec.eq_of_getLsbD_eq; intro k hk
  have z := payload_bit h hk
  rw [free_bits _ k hk] at z
  simp only [packRB, operandA8, operandB, BitVec.getLsbD_extractLsb', BitVec.getLsbD_append, BitVec.getLsbD_zero]
  by_cases h1 : k < 8
  · simp only [h1, if_true, decide_true, Bool.true_and, Nat.zero_add]
  · by_cases h2 : k - 8 < 8
    · simp only [h1, h2, if_true, if_false]; exact (z (by simp; omega)).symm
    · by_cases h3 : k - 8 - 8 < 8
      · simp only [h1, h2, h3, if_true, if_false, decide_true, Bool.true_and, show 16 + (k - 8 - 8) = k by omega]
      · simp only [h1, h2, h3, if_false]; exact (z (by simp; omega)).symm

theorem packV_operand {p : Payload} (h : p &&& ~~~Format.free .v = 0#112) : packV (operandA16 p) = p := by
  apply BitVec.eq_of_getLsbD_eq; intro k hk
  have z := payload_bit h hk
  rw [free_bits _ k hk] at z
  simp only [packV, operandA16, BitVec.getLsbD_extractLsb', BitVec.getLsbD_append, BitVec.getLsbD_zero]
  by_cases h1 : k < 16
  · simp only [h1, if_true, decide_true, Bool.true_and, Nat.zero_add]
  · simp only [h1, if_false]; exact (z (by simp; omega)).symm

theorem packVB_operand {p : Payload} (h : p &&& ~~~Format.free .vb = 0#112) :
    packVB (operandA16 p) (operandB p) = p := by
  apply BitVec.eq_of_getLsbD_eq; intro k hk
  have z := payload_bit h hk
  rw [free_bits _ k hk] at z
  simp only [packVB, operandA16, operandB, BitVec.getLsbD_extractLsb', BitVec.getLsbD_append, BitVec.getLsbD_zero]
  by_cases h1 : k < 16
  · simp only [h1, if_true, decide_true, Bool.true_and, Nat.zero_add]
  · by_cases h3 : k - 16 < 8
    · simp only [h1, h3, if_true, if_false, decide_true, Bool.true_and, Nat.add_sub_cancel' (Nat.le_of_not_lt h1)]
    · simp only [h1, h3, if_false]; exact (z (by simp; omega)).symm

theorem packT_operand (p : Payload) : packT (operandT p 0) (operandT p 1) (operandT p 2) (operandT p 3) (operandT p 4)
    (operandT p 5) (operandT p 6) = p := by
  apply BitVec.eq_of_getLsbD_eq; intro k hk
  simp only [packT, operandT, BitVec.getLsbD_extractLsb', BitVec.getLsbD_append]
  by_cases h0 : k < 16
  · simp only [h0, if_true, decide_true, Bool.true_and, show 16 * 0 + k = k by omega]
  by_cases h1 : k - 16 < 16
  · simp only [h0, h1, if_true, if_false, decide_true, Bool.true_and, show 16 * 1 + (k - 16) = k by omega]
  by_cases h2 : k - 16 - 16 < 16
  · simp only [h0, h1, h2, if_true, if_false, decide_true, Bool.true_and, show 16 * 2 + (k - 16 - 16) = k by omega]
  by_cases h3 : k - 16 - 16 - 16 < 16
  · simp only [h0, h1, h2, h3, if_true, if_false, decide_true, Bool.true_and,
      show 16 * 3 + (k - 16 - 16 - 16) = k by omega]
  by_cases h4 : k - 16 - 16 - 16 - 16 < 16
  · simp only [h0, h1, h2, h3, h4, if_true, if_false, decide_true, Bool.true_and,
      show 16 * 4 + (k - 16 - 16 - 16 - 16) = k by omega]
  by_cases h5 : k - 16 - 16 - 16 - 16 - 16 < 16
  · simp only [h0, h1, h2, h3, h4, h5, if_true, if_false, decide_true, Bool.true_and,
      show 16 * 5 + (k - 16 - 16 - 16 - 16 - 16) = k by omega]
  have h6 : k - 16 - 16 - 16 - 16 - 16 - 16 < 16 := by omega
  simp only [h0, h1, h2, h3, h4, h5, h6, if_false, decide_true, Bool.true_and,
      show 16 * 6 + (k - 16 - 16 - 16 - 16 - 16 - 16) = k by omega]

theorem packN {p : Payload} (h : p &&& ~~~Format.free .n = 0#112) : 0#112 = p := by
  apply BitVec.eq_of_getLsbD_eq; intro k hk
  have z := payload_bit h hk
  rw [free_bits _ k hk] at z
  rw [z rfl, BitVec.getLsbD_zero]

/-- A legal payload is that of the operation assembled from it (R91, R92). -/
theorem assembled {o : Byte} {p : Payload} {i : Instr} {f : Format} (ha : assemble o p = some i)
    (hf : formatOf o = some f) (hp : p &&& ~~~f.free = 0#112) : opcode i = o ∧ payloadOf i = p := by
  have ho : opcode i = o := by
    apply BitVec.eq_of_toNat_eq
    simp only [assemble] at ha
    split at ha <;> rename_i he <;> first | cases ha; rw [he]; rfl | cases ha
  have hf' : formatOf (opcode i) = some f := ho ▸ hf
  have ha' : assemble (opcode i) p = some i := ho ▸ ha
  refine ⟨ho, ?_⟩
  clear ho ha hf
  cases i
  case init => cases hf'; exact packN hp
  case readByte => cases hf'; exact packN hp
  case start => cases hf'; exact packN hp
  case stop => cases hf'; exact packN hp
  case getSecond => cases hf'; exact packN hp
  case getMinute => cases hf'; exact packN hp
  case getHour => cases hf'; exact packN hp
  case getDay => cases hf'; exact packN hp
  case getMonth => cases hf'; exact packN hp
  case getWeekday => cases hf'; exact packN hp
  case getYear => cases hf'; exact packN hp
  case getDatetime => cases hf'; exact packN hp
  case writeByte => cases hf'; injection ha' with e; injection e with e; subst e; exact packB_operand hp
  case getReg => cases hf'; injection ha' with e; injection e with e; subst e; exact packR_operand hp
  case dec2bcd => cases hf'; injection ha' with e; injection e with e; subst e; exact packR_operand hp
  case bcd2dec => cases hf'; injection ha' with e; injection e with e; subst e; exact packR_operand hp
  case setSecond => cases hf'; injection ha' with e; injection e with e; subst e; exact packV_operand hp
  case setMinute => cases hf'; injection ha' with e; injection e with e; subst e; exact packV_operand hp
  case setHour => cases hf'; injection ha' with e; injection e with e; subst e; exact packV_operand hp
  case setDay => cases hf'; injection ha' with e; injection e with e; subst e; exact packV_operand hp
  case setMonth => cases hf'; injection ha' with e; injection e with e; subst e; exact packV_operand hp
  case setWeekday => cases hf'; injection ha' with e; injection e with e; subst e; exact packV_operand hp
  case setYear => cases hf'; injection ha' with e; injection e with e; subst e; exact packV_operand hp
  case readRam => cases hf'; injection ha' with e; injection e with e; subst e; exact packV_operand hp
  case setReg =>
    cases hf'; injection ha' with e; injection e with e e'; subst e; subst e'; exact packRB_operand hp
  case wpWrite =>
    cases hf'; injection ha' with e; injection e with e e'; subst e; subst e'; exact packRB_operand hp
  case writeRam =>
    cases hf'; injection ha' with e; injection e with e e'; subst e; subst e'; exact packVB_operand hp
  case setDatetime =>
    injection ha' with e; injection e with e0 e1 e2 e3 e4 e5 e6; subst e0 e1 e2 e3 e4 e5 e6; exact packT_operand p

/-- The 28 codes (R95). -/
theorem formatOf_isSome (o : Byte) : (formatOf o).isSome = true ↔ o.toNat ≤ 0x09 ∨ 0x10 ≤ o.toNat ∧ o.toNat ≤ 0x21 := by
  revert o; decide +kernel

theorem assemble_isSome (o : Byte) (p : Payload) : (assemble o p).isSome = (formatOf o).isSome := by
  simp only [assemble, formatOf]; split <;> rfl

/-! ### The operands of a pack (R91) -/

theorem operandB_pack (b : Byte) : operandB (packB b) = b := by
  apply BitVec.eq_of_getLsbD_eq; intro k hk
  simp only [packB, operandB, BitVec.getLsbD_extractLsb', BitVec.getLsbD_append, hk, decide_true, Bool.true_and,
    if_true, show ¬ (16 + k < 16) by omega, if_false, show 16 + k - 16 = k by omega]

theorem operandA8_packR (a : Byte) : operandA8 (packR a) = a := by
  apply BitVec.eq_of_getLsbD_eq; intro k hk
  simp only [packR, operandA8, BitVec.getLsbD_extractLsb', BitVec.getLsbD_append, hk, decide_true, Bool.true_and,
    if_true, Nat.zero_add]

theorem operandA8_packRB (a b : Byte) : operandA8 (packRB a b) = a := by
  apply BitVec.eq_of_getLsbD_eq; intro k hk
  simp only [packRB, operandA8, BitVec.getLsbD_extractLsb', BitVec.getLsbD_append, hk, decide_true, Bool.true_and,
    if_true, Nat.zero_add]

theorem operandB_packRB (a b : Byte) : operandB (packRB a b) = b := by
  apply BitVec.eq_of_getLsbD_eq; intro k hk
  simp only [packRB, operandB, BitVec.getLsbD_extractLsb', BitVec.getLsbD_append, hk, decide_true, Bool.true_and,
    if_true, show ¬ (16 + k < 8) by omega, show ¬ (16 + k - 8 < 8) by omega, if_false,
    show 16 + k - 8 - 8 = k by omega]

theorem operandA16_packV (v : Word16) : operandA16 (packV v) = v := by
  apply BitVec.eq_of_getLsbD_eq; intro k hk
  simp only [packV, operandA16, BitVec.getLsbD_extractLsb', BitVec.getLsbD_append, hk, decide_true, Bool.true_and,
    if_true, Nat.zero_add]

theorem operandA16_packVB (v : Word16) (b : Byte) : operandA16 (packVB v b) = v := by
  apply BitVec.eq_of_getLsbD_eq; intro k hk
  simp only [packVB, operandA16, BitVec.getLsbD_extractLsb', BitVec.getLsbD_append, hk, decide_true, Bool.true_and,
    if_true, Nat.zero_add]

theorem operandB_packVB (v : Word16) (b : Byte) : operandB (packVB v b) = b := by
  apply BitVec.eq_of_getLsbD_eq; intro k hk
  simp only [packVB, operandB, BitVec.getLsbD_extractLsb', BitVec.getLsbD_append, hk, decide_true, Bool.true_and,
    if_true, show ¬ (16 + k < 16) by omega, if_false, show 16 + k - 16 = k by omega]

theorem operandT_pack (t0 t1 t2 t3 t4 t5 t6 : Word16) :
    operandT (packT t0 t1 t2 t3 t4 t5 t6) 0 = t0 ∧ operandT (packT t0 t1 t2 t3 t4 t5 t6) 1 = t1 ∧
    operandT (packT t0 t1 t2 t3 t4 t5 t6) 2 = t2 ∧ operandT (packT t0 t1 t2 t3 t4 t5 t6) 3 = t3 ∧
    operandT (packT t0 t1 t2 t3 t4 t5 t6) 4 = t4 ∧ operandT (packT t0 t1 t2 t3 t4 t5 t6) 5 = t5 ∧
    operandT (packT t0 t1 t2 t3 t4 t5 t6) 6 = t6 := by
  refine ⟨?_, ?_, ?_, ?_, ?_, ?_, ?_⟩ <;> (apply BitVec.eq_of_getLsbD_eq; intro k hk) <;>
    simp only [packT, operandT, BitVec.getLsbD_extractLsb', BitVec.getLsbD_append, hk, decide_true, Bool.true_and]
  · rw [if_pos (by omega)]; congr 1; omega
  · rw [if_neg (by omega), if_pos (by omega)]; congr 1; omega
  · rw [if_neg (by omega), if_neg (by omega), if_pos (by omega)]; congr 1; omega
  · rw [if_neg (by omega), if_neg (by omega), if_neg (by omega), if_pos (by omega)]; congr 1; omega
  · rw [if_neg (by omega), if_neg (by omega), if_neg (by omega), if_neg (by omega), if_pos (by omega)]; congr 1; omega
  · rw [if_neg (by omega), if_neg (by omega), if_neg (by omega), if_neg (by omega), if_neg (by omega),
      if_pos (by omega)]; congr 1; omega
  · rw [if_neg (by omega), if_neg (by omega), if_neg (by omega), if_neg (by omega), if_neg (by omega),
      if_neg (by omega)]; congr 1; omega

/-! ### A pack uses only the bits its format leaves free (R92) -/

theorem pack_free {f : Format} {p : Payload} (h : ∀ k, k < 112 → f.free.getLsbD k = false → p.getLsbD k = false) :
    p &&& ~~~f.free = 0#112 := by
  apply BitVec.eq_of_getLsbD_eq; intro k hk
  simp only [BitVec.getLsbD_and, BitVec.getLsbD_not, hk, decide_true, Bool.true_and, BitVec.getLsbD_zero]
  cases hf : f.free.getLsbD k
  · simp only [h k hk hf, Bool.false_and]
  · simp only [Bool.not_true, Bool.and_false]

theorem packB_free (b : Byte) : packB b &&& ~~~Format.free .b = 0#112 := by
  refine pack_free fun k hk hf => ?_
  rw [free_bits _ k hk] at hf
  have h := of_decide_eq_false hf
  simp only [packB, BitVec.getLsbD_append, BitVec.getLsbD_zero]
  by_cases h1 : k < 16
  · rw [if_pos h1]
  · rw [if_neg h1, if_neg (by omega)]

theorem packR_free (a : Byte) : packR a &&& ~~~Format.free .r = 0#112 := by
  refine pack_free fun k hk hf => ?_
  rw [free_bits _ k hk] at hf
  have h := of_decide_eq_false hf
  simp only [packR, BitVec.getLsbD_append, BitVec.getLsbD_zero]
  rw [if_neg h]

theorem packRB_free (a b : Byte) : packRB a b &&& ~~~Format.free .rb = 0#112 := by
  refine pack_free fun k hk hf => ?_
  rw [free_bits _ k hk] at hf
  have h := of_decide_eq_false hf
  simp only [packRB, BitVec.getLsbD_append, BitVec.getLsbD_zero]
  rw [if_neg (by omega)]
  by_cases h1 : k - 8 < 8
  · rw [if_pos h1]
  · rw [if_neg h1, if_neg (by omega)]

theorem packV_free (v : Word16) : packV v &&& ~~~Format.free .v = 0#112 := by
  refine pack_free fun k hk hf => ?_
  rw [free_bits _ k hk] at hf
  have h := of_decide_eq_false hf
  simp only [packV, BitVec.getLsbD_append, BitVec.getLsbD_zero]
  rw [if_neg h]

theorem packVB_free (v : Word16) (b : Byte) : packVB v b &&& ~~~Format.free .vb = 0#112 := by
  refine pack_free fun k hk hf => ?_
  rw [free_bits _ k hk] at hf
  have h := of_decide_eq_false hf
  simp only [packVB, BitVec.getLsbD_append, BitVec.getLsbD_zero]
  rw [if_neg (by omega), if_neg (by omega)]

theorem zero_free (f : Format) : 0#112 &&& ~~~f.free = 0#112 := BitVec.zero_and

theorem all_free (p : Payload) : p &&& ~~~Format.free .t = 0#112 :=
  pack_free fun k hk hf => by rw [free_bits _ k hk] at hf; cases hf

/-- The format of an operation's code leaves free what its payload uses (R92). -/
theorem payloadOf_free (i : Instr) : ∃ f, formatOf (opcode i) = some f ∧ payloadOf i &&& ~~~f.free = 0#112 := by
  cases i
  case writeByte b => exact ⟨.b, rfl, packB_free b⟩
  case getReg a => exact ⟨.r, rfl, packR_free a⟩
  case dec2bcd n => exact ⟨.r, rfl, packR_free n⟩
  case bcd2dec n => exact ⟨.r, rfl, packR_free n⟩
  case setReg a b => exact ⟨.rb, rfl, packRB_free a b⟩
  case wpWrite a b => exact ⟨.rb, rfl, packRB_free a b⟩
  case setSecond v => exact ⟨.v, rfl, packV_free v⟩
  case setMinute v => exact ⟨.v, rfl, packV_free v⟩
  case setHour v => exact ⟨.v, rfl, packV_free v⟩
  case setDay v => exact ⟨.v, rfl, packV_free v⟩
  case setMonth v => exact ⟨.v, rfl, packV_free v⟩
  case setWeekday v => exact ⟨.v, rfl, packV_free v⟩
  case setYear v => exact ⟨.v, rfl, packV_free v⟩
  case readRam v => exact ⟨.v, rfl, packV_free v⟩
  case writeRam v b => exact ⟨.vb, rfl, packVB_free v b⟩
  case setDatetime => exact ⟨.t, rfl, all_free _⟩
  all_goals exact ⟨.n, rfl, zero_free .n⟩

/-- The operands come back from the payload (R91). -/
theorem assemble_payloadOf (i : Instr) : assemble (opcode i) (payloadOf i) = some i := by
  cases i
  case writeByte b => exact congrArg (some ∘ Instr.writeByte) (operandB_pack b)
  case getReg a => exact congrArg (some ∘ Instr.getReg) (operandA8_packR a)
  case dec2bcd n => exact congrArg (some ∘ Instr.dec2bcd) (operandA8_packR n)
  case bcd2dec n => exact congrArg (some ∘ Instr.bcd2dec) (operandA8_packR n)
  case setReg a b => exact congrArg₂ (fun x y => some (Instr.setReg x y)) (operandA8_packRB a b) (operandB_packRB a b)
  case wpWrite a b => exact congrArg₂ (fun x y => some (Instr.wpWrite x y)) (operandA8_packRB a b) (operandB_packRB a b)
  case setSecond v => exact congrArg (some ∘ Instr.setSecond) (operandA16_packV v)
  case setMinute v => exact congrArg (some ∘ Instr.setMinute) (operandA16_packV v)
  case setHour v => exact congrArg (some ∘ Instr.setHour) (operandA16_packV v)
  case setDay v => exact congrArg (some ∘ Instr.setDay) (operandA16_packV v)
  case setMonth v => exact congrArg (some ∘ Instr.setMonth) (operandA16_packV v)
  case setWeekday v => exact congrArg (some ∘ Instr.setWeekday) (operandA16_packV v)
  case setYear v => exact congrArg (some ∘ Instr.setYear) (operandA16_packV v)
  case readRam v => exact congrArg (some ∘ Instr.readRam) (operandA16_packV v)
  case writeRam v b => exact congrArg₂ (fun x y => some (Instr.writeRam x y)) (operandA16_packVB v b) (operandB_packVB v b)
  case setDatetime t0 t1 t2 t3 t4 t5 t6 =>
    obtain ⟨h0, h1, h2, h3, h4, h5, h6⟩ := operandT_pack t0 t1 t2 t3 t4 t5 t6
    show some (Instr.setDatetime _ _ _ _ _ _ _) = _
    rw [payloadOf, h0, h1, h2, h3, h4, h5, h6]
  all_goals rfl

end Sys2Proof
end

