-- ==== Sys2Proof/Laws/Memory.lean ====
section
/-! SUPPORT. The register store: read after write, and the canonical form. -/

namespace Sys2Proof.Machine

@[simp] theorem Memory.read_write_same (m : Memory) (a : Nat) (b : Byte) :
    Memory.read (Memory.write m a b) a = some b := by
  induction m with
  | nil => simp [Memory.write, Memory.read]
  | cons e m ih =>
    obtain ⟨k, v⟩ := e
    by_cases h : a < k
    · simp [Memory.write, Memory.read, h]
    · by_cases h' : a = k <;> simp [Memory.write, Memory.read, h, h', ih]

theorem Memory.read_write_other (m : Memory) (a a' : Nat) (b : Byte) (h : a' ≠ a) :
    Memory.read (Memory.write m a b) a' = Memory.read m a' := by
  induction m with
  | nil => simp [Memory.write, Memory.read, h]
  | cons e m ih =>
    obtain ⟨k, v⟩ := e
    by_cases h1 : a < k
    · simp [Memory.write, Memory.read, h1, h]
    · by_cases h2 : a = k
      · subst h2; simp [Memory.write, Memory.read, h]
      · simp [Memory.write, Memory.read, h1, h2, ih]

theorem Memory.risesFrom_write (m : Memory) (a : Nat) (b : Byte) (lo : Nat) (hm : Memory.risesFrom lo m = true)
    (hl : lo ≤ a) : Memory.risesFrom lo (Memory.write m a b) = true := by
  induction m generalizing lo with
  | nil => simp [Memory.write, Memory.risesFrom, hl]
  | cons e m ih =>
    obtain ⟨k, v⟩ := e
    simp only [Memory.risesFrom, Bool.and_eq_true, decide_eq_true_eq] at hm
    by_cases h1 : a < k
    · simp [Memory.write, Memory.risesFrom, h1, hl, Nat.succ_le_of_lt h1, hm.2]
    · by_cases h2 : a = k
      · subst h2; simp [Memory.write, Memory.risesFrom, hl, hm.2]
      · simp [Memory.write, Memory.risesFrom, h1, h2, hm.1, ih (k + 1) hm.2 (by omega)]

/-- A write keeps the canonical form. -/
theorem Memory.wf_write (m : Memory) (a : Nat) (b : Byte) (hm : Memory.wf m = true) :
    Memory.wf (Memory.write m a b) = true := Memory.risesFrom_write m a b 0 hm (Nat.zero_le a)

/-- What a write lists was listed before, or is the entry written. -/
theorem Memory.mem_write (m : Memory) (a : Nat) (b : Byte) (e : Host.Cell) (h : e ∈ Memory.write m a b) :
    e = (a, b) ∨ e ∈ m := by
  induction m with
  | nil => simpa [Memory.write] using h
  | cons x m ih =>
    obtain ⟨k, v⟩ := x
    by_cases h1 : a < k
    · simpa [Memory.write, h1] using h
    · by_cases h2 : a = k
      · subst h2
        simp only [Memory.write, Nat.lt_irrefl, if_true, if_false, List.mem_cons] at h ⊢
        rcases h with h | h
        · exact .inl h
        · exact .inr (.inr h)
      · simp only [Memory.write, h1, h2, if_false, List.mem_cons] at h
        rcases h with h | h
        · exact .inr (List.mem_cons.2 (.inl h))
        · rcases ih h with h | h
          · exact .inl h
          · exact .inr (List.mem_cons.2 (.inr h))

/-- The store reset leaves is in the canonical form. -/
theorem Memory.wf_reset : Memory.wf State.reset.chip.cells = true := rfl

@[simp] theorem Chip.setCell_kind (c : Cfg) (r : Reg) (b : Byte) (p : Chip) : (p.setCell c r b).kind = p.kind := rfl
@[simp] theorem Chip.setCell_cells (c : Cfg) (r : Reg) (b : Byte) (p : Chip) :
    (p.setCell c r b).cells = Memory.write p.cells (regAddr c r).toNat b := rfl
@[simp] theorem Chip.setCell_n (c : Cfg) (r : Reg) (b : Byte) (p : Chip) : (p.setCell c r b).n = p.n := rfl
@[simp] theorem Chip.setCell_ab (c : Cfg) (r : Reg) (b : Byte) (p : Chip) : (p.setCell c r b).ab = p.ab := rfl
@[simp] theorem Chip.setCell_db (c : Cfg) (r : Reg) (b : Byte) (p : Chip) : (p.setCell c r b).db = p.db := rfl
@[simp] theorem Chip.setCell_ob (c : Cfg) (r : Reg) (b : Byte) (p : Chip) : (p.setCell c r b).ob = p.ob := rfl
@[simp] theorem Chip.setCell_drv (c : Cfg) (r : Reg) (b : Byte) (p : Chip) : (p.setCell c r b).drv = p.drv := rfl

/-- A cell reads as what was last put in it. -/
@[simp] theorem Chip.cell_setCell_same (c : Cfg) (r : Reg) (b : Byte) (p : Chip) :
    (p.setCell c r b).cell c r = b := by simp [Chip.cell, Chip.setCell]

/-- A cell is untouched by a write to another address. -/
theorem Chip.cell_setCell_other (c : Cfg) (r r' : Reg) (b : Byte) (p : Chip)
    (h : regAddr c r' ≠ regAddr c r) : (p.setCell c r b).cell c r' = p.cell c r' := by
  have h' : (regAddr c r').toNat ≠ (regAddr c r).toNat := fun e => h (BitVec.eq_of_toNat_eq e)
  simp [Chip.cell, Chip.setCell, Memory.read_write_other _ _ _ _ h']

end Sys2Proof.Machine
end

