-- ==== Sys2Proof/Laws/State.lean ====
section
/-! SUPPORT. One lemma per field per named update of State: what the update writes, and what it leaves. -/

namespace Sys2Proof.Machine

/-! ### What each update leaves -/

@[simp] theorem State.setPin_cfg (s : State) (l : Line) (p : Pin) : (s.setPin l p).cfg = s.cfg := by cases l <;> rfl
@[simp] theorem State.setPin_sh (s : State) (l : Line) (p : Pin) : (s.setPin l p).sh = s.sh := by cases l <;> rfl
@[simp] theorem State.setPin_acc (s : State) (l : Line) (p : Pin) : (s.setPin l p).acc = s.acc := by cases l <;> rfl
@[simp] theorem State.setPin_i (s : State) (l : Line) (p : Pin) : (s.setPin l p).i = s.i := by cases l <;> rfl
@[simp] theorem State.setPin_t (s : State) (l : Line) (p : Pin) : (s.setPin l p).t = s.t := by cases l <;> rfl
@[simp] theorem State.setPin_res (s : State) (l : Line) (p : Pin) : (s.setPin l p).res = s.res := by cases l <;> rfl
@[simp] theorem State.setPin_busy (s : State) (l : Line) (p : Pin) :
    (s.setPin l p).busy = s.busy := by cases l <;> rfl
@[simp] theorem State.setPin_upc (s : State) (l : Line) (p : Pin) : (s.setPin l p).upc = s.upc := by cases l <;> rfl
@[simp] theorem State.setPin_phase (s : State) (l : Line) (p : Pin) :
    (s.setPin l p).phase = s.phase := by cases l <;> rfl
@[simp] theorem State.setPin_c (s : State) (l : Line) (p : Pin) : (s.setPin l p).c = s.c := by cases l <;> rfl
@[simp] theorem State.setPin_rsp (s : State) (l : Line) (p : Pin) : (s.setPin l p).rsp = s.rsp := by cases l <;> rfl
@[simp] theorem State.setPin_rspValid (s : State) (l : Line) (p : Pin) :
    (s.setPin l p).rspValid = s.rspValid := by cases l <;> rfl
@[simp] theorem State.setPin_cmd (s : State) (l : Line) (p : Pin) : (s.setPin l p).cmd = s.cmd := by cases l <;> rfl
@[simp] theorem State.setPin_resetPin (s : State) (l : Line) (p : Pin) :
    (s.setPin l p).resetPin = s.resetPin := by cases l <;> rfl
@[simp] theorem State.setPin_dioIn (s : State) (l : Line) (p : Pin) :
    (s.setPin l p).dioIn = s.dioIn := by cases l <;> rfl
@[simp] theorem State.setPin_lineFail (s : State) (l : Line) (p : Pin) :
    (s.setPin l p).lineFail = s.lineFail := by cases l <;> rfl
@[simp] theorem State.setPin_script (s : State) (l : Line) (p : Pin) :
    (s.setPin l p).script = s.script := by cases l <;> rfl
@[simp] theorem State.setPin_chip (s : State) (l : Line) (p : Pin) :
    (s.setPin l p).chip = s.chip := by cases l <;> rfl
@[simp] theorem State.setPin_events (s : State) (l : Line) (p : Pin) :
    (s.setPin l p).events = s.events := by cases l <;> rfl
@[simp] theorem State.setPin_trace (s : State) (l : Line) (p : Pin) :
    (s.setPin l p).trace = s.trace := by cases l <;> rfl
@[simp] theorem State.setPin_journal (s : State) (l : Line) (p : Pin) :
    (s.setPin l p).journal = s.journal := by cases l <;> rfl
@[simp] theorem State.setPin_stepping (s : State) (l : Line) (p : Pin) :
    (s.setPin l p).stepping = s.stepping := by cases l <;> rfl

@[simp] theorem State.moveLine_cfg (s : State) (l : Line) (p : Pin) :
    (s.moveLine l p).cfg = s.cfg := by cases l <;> rfl
@[simp] theorem State.moveLine_sh (s : State) (l : Line) (p : Pin) : (s.moveLine l p).sh = s.sh := by cases l <;> rfl
@[simp] theorem State.moveLine_acc (s : State) (l : Line) (p : Pin) :
    (s.moveLine l p).acc = s.acc := by cases l <;> rfl
@[simp] theorem State.moveLine_i (s : State) (l : Line) (p : Pin) : (s.moveLine l p).i = s.i := by cases l <;> rfl
@[simp] theorem State.moveLine_t (s : State) (l : Line) (p : Pin) : (s.moveLine l p).t = s.t := by cases l <;> rfl
@[simp] theorem State.moveLine_res (s : State) (l : Line) (p : Pin) :
    (s.moveLine l p).res = s.res := by cases l <;> rfl
@[simp] theorem State.moveLine_busy (s : State) (l : Line) (p : Pin) :
    (s.moveLine l p).busy = s.busy := by cases l <;> rfl
@[simp] theorem State.moveLine_upc (s : State) (l : Line) (p : Pin) :
    (s.moveLine l p).upc = s.upc := by cases l <;> rfl
@[simp] theorem State.moveLine_phase (s : State) (l : Line) (p : Pin) :
    (s.moveLine l p).phase = s.phase := by cases l <;> rfl
@[simp] theorem State.moveLine_c (s : State) (l : Line) (p : Pin) : (s.moveLine l p).c = s.c := by cases l <;> rfl
@[simp] theorem State.moveLine_rsp (s : State) (l : Line) (p : Pin) :
    (s.moveLine l p).rsp = s.rsp := by cases l <;> rfl
@[simp] theorem State.moveLine_rspValid (s : State) (l : Line) (p : Pin) :
    (s.moveLine l p).rspValid = s.rspValid := by cases l <;> rfl
@[simp] theorem State.moveLine_cmd (s : State) (l : Line) (p : Pin) :
    (s.moveLine l p).cmd = s.cmd := by cases l <;> rfl
@[simp] theorem State.moveLine_resetPin (s : State) (l : Line) (p : Pin) :
    (s.moveLine l p).resetPin = s.resetPin := by cases l <;> rfl
@[simp] theorem State.moveLine_dioIn (s : State) (l : Line) (p : Pin) :
    (s.moveLine l p).dioIn = s.dioIn := by cases l <;> rfl
@[simp] theorem State.moveLine_lineFail (s : State) (l : Line) (p : Pin) :
    (s.moveLine l p).lineFail = s.lineFail := by cases l <;> rfl
@[simp] theorem State.moveLine_script (s : State) (l : Line) (p : Pin) :
    (s.moveLine l p).script = s.script := by cases l <;> rfl
@[simp] theorem State.moveLine_events (s : State) (l : Line) (p : Pin) :
    (s.moveLine l p).events = s.events := by cases l <;> rfl
@[simp] theorem State.moveLine_trace (s : State) (l : Line) (p : Pin) :
    (s.moveLine l p).trace = s.trace := by cases l <;> rfl
@[simp] theorem State.moveLine_journal (s : State) (l : Line) (p : Pin) :
    (s.moveLine l p).journal = s.journal := by cases l <;> rfl
@[simp] theorem State.moveLine_stepping (s : State) (l : Line) (p : Pin) :
    (s.moveLine l p).stepping = s.stepping := by cases l <;> rfl

@[simp] theorem State.stamp_cfg (s : State) (e : Event) : (s.stamp e).cfg = s.cfg := rfl
@[simp] theorem State.stamp_clk (s : State) (e : Event) : (s.stamp e).clk = s.clk := rfl
@[simp] theorem State.stamp_dio (s : State) (e : Event) : (s.stamp e).dio = s.dio := rfl
@[simp] theorem State.stamp_cs (s : State) (e : Event) : (s.stamp e).cs = s.cs := rfl
@[simp] theorem State.stamp_sh (s : State) (e : Event) : (s.stamp e).sh = s.sh := rfl
@[simp] theorem State.stamp_acc (s : State) (e : Event) : (s.stamp e).acc = s.acc := rfl
@[simp] theorem State.stamp_i (s : State) (e : Event) : (s.stamp e).i = s.i := rfl
@[simp] theorem State.stamp_t (s : State) (e : Event) : (s.stamp e).t = s.t := rfl
@[simp] theorem State.stamp_res (s : State) (e : Event) : (s.stamp e).res = s.res := rfl
@[simp] theorem State.stamp_busy (s : State) (e : Event) : (s.stamp e).busy = s.busy := rfl
@[simp] theorem State.stamp_upc (s : State) (e : Event) : (s.stamp e).upc = s.upc := rfl
@[simp] theorem State.stamp_phase (s : State) (e : Event) : (s.stamp e).phase = s.phase := rfl
@[simp] theorem State.stamp_c (s : State) (e : Event) : (s.stamp e).c = s.c := rfl
@[simp] theorem State.stamp_rsp (s : State) (e : Event) : (s.stamp e).rsp = s.rsp := rfl
@[simp] theorem State.stamp_rspValid (s : State) (e : Event) : (s.stamp e).rspValid = s.rspValid := rfl
@[simp] theorem State.stamp_cmd (s : State) (e : Event) : (s.stamp e).cmd = s.cmd := rfl
@[simp] theorem State.stamp_resetPin (s : State) (e : Event) : (s.stamp e).resetPin = s.resetPin := rfl
@[simp] theorem State.stamp_dioIn (s : State) (e : Event) : (s.stamp e).dioIn = s.dioIn := rfl
@[simp] theorem State.stamp_lineFail (s : State) (e : Event) : (s.stamp e).lineFail = s.lineFail := rfl
@[simp] theorem State.stamp_script (s : State) (e : Event) : (s.stamp e).script = s.script := rfl
@[simp] theorem State.stamp_chip (s : State) (e : Event) : (s.stamp e).chip = s.chip := rfl
@[simp] theorem State.stamp_journal (s : State) (e : Event) : (s.stamp e).journal = s.journal := rfl
@[simp] theorem State.stamp_stepping (s : State) (e : Event) : (s.stamp e).stepping = s.stepping := rfl

@[simp] theorem State.applyDir_cfg (s : State) (l : Line) (d : Dir) :
    (s.applyDir l d).cfg = s.cfg := by cases l <;> rfl
@[simp] theorem State.applyDir_sh (s : State) (l : Line) (d : Dir) : (s.applyDir l d).sh = s.sh := by cases l <;> rfl
@[simp] theorem State.applyDir_acc (s : State) (l : Line) (d : Dir) :
    (s.applyDir l d).acc = s.acc := by cases l <;> rfl
@[simp] theorem State.applyDir_i (s : State) (l : Line) (d : Dir) : (s.applyDir l d).i = s.i := by cases l <;> rfl
@[simp] theorem State.applyDir_t (s : State) (l : Line) (d : Dir) : (s.applyDir l d).t = s.t := by cases l <;> rfl
@[simp] theorem State.applyDir_res (s : State) (l : Line) (d : Dir) :
    (s.applyDir l d).res = s.res := by cases l <;> rfl
@[simp] theorem State.applyDir_busy (s : State) (l : Line) (d : Dir) :
    (s.applyDir l d).busy = s.busy := by cases l <;> rfl
@[simp] theorem State.applyDir_upc (s : State) (l : Line) (d : Dir) :
    (s.applyDir l d).upc = s.upc := by cases l <;> rfl
@[simp] theorem State.applyDir_phase (s : State) (l : Line) (d : Dir) :
    (s.applyDir l d).phase = s.phase := by cases l <;> rfl
@[simp] theorem State.applyDir_c (s : State) (l : Line) (d : Dir) : (s.applyDir l d).c = s.c := by cases l <;> rfl
@[simp] theorem State.applyDir_rsp (s : State) (l : Line) (d : Dir) :
    (s.applyDir l d).rsp = s.rsp := by cases l <;> rfl
@[simp] theorem State.applyDir_rspValid (s : State) (l : Line) (d : Dir) :
    (s.applyDir l d).rspValid = s.rspValid := by cases l <;> rfl
@[simp] theorem State.applyDir_cmd (s : State) (l : Line) (d : Dir) :
    (s.applyDir l d).cmd = s.cmd := by cases l <;> rfl
@[simp] theorem State.applyDir_resetPin (s : State) (l : Line) (d : Dir) :
    (s.applyDir l d).resetPin = s.resetPin := by cases l <;> rfl
@[simp] theorem State.applyDir_dioIn (s : State) (l : Line) (d : Dir) :
    (s.applyDir l d).dioIn = s.dioIn := by cases l <;> rfl
@[simp] theorem State.applyDir_lineFail (s : State) (l : Line) (d : Dir) :
    (s.applyDir l d).lineFail = s.lineFail := by cases l <;> rfl
@[simp] theorem State.applyDir_script (s : State) (l : Line) (d : Dir) :
    (s.applyDir l d).script = s.script := by cases l <;> rfl
@[simp] theorem State.applyDir_journal (s : State) (l : Line) (d : Dir) :
    (s.applyDir l d).journal = s.journal := by cases l <;> rfl
@[simp] theorem State.applyDir_stepping (s : State) (l : Line) (d : Dir) :
    (s.applyDir l d).stepping = s.stepping := by cases l <;> rfl

@[simp] theorem State.applySet_cfg (s : State) (l : Line) (b : Bool) :
    (s.applySet l b).cfg = s.cfg := by cases l <;> rfl
@[simp] theorem State.applySet_sh (s : State) (l : Line) (b : Bool) : (s.applySet l b).sh = s.sh := by cases l <;> rfl
@[simp] theorem State.applySet_acc (s : State) (l : Line) (b : Bool) :
    (s.applySet l b).acc = s.acc := by cases l <;> rfl
@[simp] theorem State.applySet_i (s : State) (l : Line) (b : Bool) : (s.applySet l b).i = s.i := by cases l <;> rfl
@[simp] theorem State.applySet_t (s : State) (l : Line) (b : Bool) : (s.applySet l b).t = s.t := by cases l <;> rfl
@[simp] theorem State.applySet_res (s : State) (l : Line) (b : Bool) :
    (s.applySet l b).res = s.res := by cases l <;> rfl
@[simp] theorem State.applySet_busy (s : State) (l : Line) (b : Bool) :
    (s.applySet l b).busy = s.busy := by cases l <;> rfl
@[simp] theorem State.applySet_upc (s : State) (l : Line) (b : Bool) :
    (s.applySet l b).upc = s.upc := by cases l <;> rfl
@[simp] theorem State.applySet_c (s : State) (l : Line) (b : Bool) : (s.applySet l b).c = s.c := by cases l <;> rfl
@[simp] theorem State.applySet_rsp (s : State) (l : Line) (b : Bool) :
    (s.applySet l b).rsp = s.rsp := by cases l <;> rfl
@[simp] theorem State.applySet_rspValid (s : State) (l : Line) (b : Bool) :
    (s.applySet l b).rspValid = s.rspValid := by cases l <;> rfl
@[simp] theorem State.applySet_cmd (s : State) (l : Line) (b : Bool) :
    (s.applySet l b).cmd = s.cmd := by cases l <;> rfl
@[simp] theorem State.applySet_resetPin (s : State) (l : Line) (b : Bool) :
    (s.applySet l b).resetPin = s.resetPin := by cases l <;> rfl
@[simp] theorem State.applySet_dioIn (s : State) (l : Line) (b : Bool) :
    (s.applySet l b).dioIn = s.dioIn := by cases l <;> rfl
@[simp] theorem State.applySet_lineFail (s : State) (l : Line) (b : Bool) :
    (s.applySet l b).lineFail = s.lineFail := by cases l <;> rfl
@[simp] theorem State.applySet_script (s : State) (l : Line) (b : Bool) :
    (s.applySet l b).script = s.script := by cases l <;> rfl
@[simp] theorem State.applySet_journal (s : State) (l : Line) (b : Bool) :
    (s.applySet l b).journal = s.journal := by cases l <;> rfl
@[simp] theorem State.applySet_stepping (s : State) (l : Line) (b : Bool) :
    (s.applySet l b).stepping = s.stepping := by cases l <;> rfl

@[simp] theorem State.applyGet_cfg (s : State) (k : Fin 8) : (s.applyGet k).cfg = s.cfg := rfl
@[simp] theorem State.applyGet_clk (s : State) (k : Fin 8) : (s.applyGet k).clk = s.clk := rfl
@[simp] theorem State.applyGet_dio (s : State) (k : Fin 8) : (s.applyGet k).dio = s.dio := rfl
@[simp] theorem State.applyGet_cs (s : State) (k : Fin 8) : (s.applyGet k).cs = s.cs := rfl
@[simp] theorem State.applyGet_sh (s : State) (k : Fin 8) : (s.applyGet k).sh = s.sh := rfl
@[simp] theorem State.applyGet_t (s : State) (k : Fin 8) : (s.applyGet k).t = s.t := rfl
@[simp] theorem State.applyGet_res (s : State) (k : Fin 8) : (s.applyGet k).res = s.res := rfl
@[simp] theorem State.applyGet_busy (s : State) (k : Fin 8) : (s.applyGet k).busy = s.busy := rfl
@[simp] theorem State.applyGet_upc (s : State) (k : Fin 8) : (s.applyGet k).upc = s.upc := rfl
@[simp] theorem State.applyGet_phase (s : State) (k : Fin 8) : (s.applyGet k).phase = s.phase := rfl
@[simp] theorem State.applyGet_c (s : State) (k : Fin 8) : (s.applyGet k).c = s.c := rfl
@[simp] theorem State.applyGet_rsp (s : State) (k : Fin 8) : (s.applyGet k).rsp = s.rsp := rfl
@[simp] theorem State.applyGet_rspValid (s : State) (k : Fin 8) : (s.applyGet k).rspValid = s.rspValid := rfl
@[simp] theorem State.applyGet_cmd (s : State) (k : Fin 8) : (s.applyGet k).cmd = s.cmd := rfl
@[simp] theorem State.applyGet_resetPin (s : State) (k : Fin 8) : (s.applyGet k).resetPin = s.resetPin := rfl
@[simp] theorem State.applyGet_lineFail (s : State) (k : Fin 8) : (s.applyGet k).lineFail = s.lineFail := rfl
@[simp] theorem State.applyGet_script (s : State) (k : Fin 8) : (s.applyGet k).script = s.script := rfl
@[simp] theorem State.applyGet_chip (s : State) (k : Fin 8) : (s.applyGet k).chip = s.chip := rfl
@[simp] theorem State.applyGet_journal (s : State) (k : Fin 8) : (s.applyGet k).journal = s.journal := rfl
@[simp] theorem State.applyGet_stepping (s : State) (k : Fin 8) : (s.applyGet k).stepping = s.stepping := rfl

@[simp] theorem State.advance_cfg (s : State) : s.advance.cfg = s.cfg := rfl
@[simp] theorem State.advance_clk (s : State) : s.advance.clk = s.clk := rfl
@[simp] theorem State.advance_dio (s : State) : s.advance.dio = s.dio := rfl
@[simp] theorem State.advance_cs (s : State) : s.advance.cs = s.cs := rfl
@[simp] theorem State.advance_sh (s : State) : s.advance.sh = s.sh := rfl
@[simp] theorem State.advance_acc (s : State) : s.advance.acc = s.acc := rfl
@[simp] theorem State.advance_i (s : State) : s.advance.i = s.i := rfl
@[simp] theorem State.advance_t (s : State) : s.advance.t = s.t := rfl
@[simp] theorem State.advance_res (s : State) : s.advance.res = s.res := rfl
@[simp] theorem State.advance_busy (s : State) : s.advance.busy = s.busy := rfl
@[simp] theorem State.advance_phase (s : State) : s.advance.phase = s.phase := rfl
@[simp] theorem State.advance_c (s : State) : s.advance.c = s.c := rfl
@[simp] theorem State.advance_rsp (s : State) : s.advance.rsp = s.rsp := rfl
@[simp] theorem State.advance_rspValid (s : State) : s.advance.rspValid = s.rspValid := rfl
@[simp] theorem State.advance_cmd (s : State) : s.advance.cmd = s.cmd := rfl
@[simp] theorem State.advance_resetPin (s : State) : s.advance.resetPin = s.resetPin := rfl
@[simp] theorem State.advance_dioIn (s : State) : s.advance.dioIn = s.dioIn := rfl
@[simp] theorem State.advance_lineFail (s : State) : s.advance.lineFail = s.lineFail := rfl
@[simp] theorem State.advance_script (s : State) : s.advance.script = s.script := rfl
@[simp] theorem State.advance_chip (s : State) : s.advance.chip = s.chip := rfl
@[simp] theorem State.advance_events (s : State) : s.advance.events = s.events := rfl
@[simp] theorem State.advance_trace (s : State) : s.advance.trace = s.trace := rfl
@[simp] theorem State.advance_journal (s : State) : s.advance.journal = s.journal := rfl
@[simp] theorem State.advance_stepping (s : State) : s.advance.stepping = s.stepping := rfl

@[simp] theorem State.passFailed_cfg (s : State) : s.passFailed.cfg = s.cfg := rfl
@[simp] theorem State.passFailed_clk (s : State) : s.passFailed.clk = s.clk := rfl
@[simp] theorem State.passFailed_dio (s : State) : s.passFailed.dio = s.dio := rfl
@[simp] theorem State.passFailed_cs (s : State) : s.passFailed.cs = s.cs := rfl
@[simp] theorem State.passFailed_sh (s : State) : s.passFailed.sh = s.sh := rfl
@[simp] theorem State.passFailed_acc (s : State) : s.passFailed.acc = s.acc := rfl
@[simp] theorem State.passFailed_i (s : State) : s.passFailed.i = s.i := rfl
@[simp] theorem State.passFailed_t (s : State) : s.passFailed.t = s.t := rfl
@[simp] theorem State.passFailed_res (s : State) : s.passFailed.res = s.res := rfl
@[simp] theorem State.passFailed_busy (s : State) : s.passFailed.busy = s.busy := rfl
@[simp] theorem State.passFailed_upc (s : State) : s.passFailed.upc = s.upc := rfl
@[simp] theorem State.passFailed_phase (s : State) : s.passFailed.phase = s.phase := rfl
@[simp] theorem State.passFailed_c (s : State) : s.passFailed.c = s.c := rfl
@[simp] theorem State.passFailed_rsp (s : State) : s.passFailed.rsp = s.rsp := rfl
@[simp] theorem State.passFailed_rspValid (s : State) : s.passFailed.rspValid = s.rspValid := rfl
@[simp] theorem State.passFailed_cmd (s : State) : s.passFailed.cmd = s.cmd := rfl
@[simp] theorem State.passFailed_resetPin (s : State) : s.passFailed.resetPin = s.resetPin := rfl
@[simp] theorem State.passFailed_dioIn (s : State) : s.passFailed.dioIn = s.dioIn := rfl
@[simp] theorem State.passFailed_script (s : State) : s.passFailed.script = s.script := rfl
@[simp] theorem State.passFailed_chip (s : State) : s.passFailed.chip = s.chip := rfl
@[simp] theorem State.passFailed_trace (s : State) : s.passFailed.trace = s.trace := rfl
@[simp] theorem State.passFailed_journal (s : State) : s.passFailed.journal = s.journal := rfl
@[simp] theorem State.passFailed_stepping (s : State) : s.passFailed.stepping = s.stepping := rfl

@[simp] theorem State.accept_cfg (s : State) (w : Command) : (s.accept w).cfg = s.cfg := rfl
@[simp] theorem State.accept_clk (s : State) (w : Command) : (s.accept w).clk = s.clk := rfl
@[simp] theorem State.accept_dio (s : State) (w : Command) : (s.accept w).dio = s.dio := rfl
@[simp] theorem State.accept_cs (s : State) (w : Command) : (s.accept w).cs = s.cs := rfl
@[simp] theorem State.accept_sh (s : State) (w : Command) : (s.accept w).sh = s.sh := rfl
@[simp] theorem State.accept_acc (s : State) (w : Command) : (s.accept w).acc = s.acc := rfl
@[simp] theorem State.accept_i (s : State) (w : Command) : (s.accept w).i = s.i := rfl
@[simp] theorem State.accept_t (s : State) (w : Command) : (s.accept w).t = s.t := rfl
@[simp] theorem State.accept_phase (s : State) (w : Command) : (s.accept w).phase = s.phase := rfl
@[simp] theorem State.accept_rsp (s : State) (w : Command) : (s.accept w).rsp = s.rsp := rfl
@[simp] theorem State.accept_resetPin (s : State) (w : Command) : (s.accept w).resetPin = s.resetPin := rfl
@[simp] theorem State.accept_dioIn (s : State) (w : Command) : (s.accept w).dioIn = s.dioIn := rfl
@[simp] theorem State.accept_lineFail (s : State) (w : Command) : (s.accept w).lineFail = s.lineFail := rfl
@[simp] theorem State.accept_script (s : State) (w : Command) : (s.accept w).script = s.script := rfl
@[simp] theorem State.accept_chip (s : State) (w : Command) : (s.accept w).chip = s.chip := rfl
@[simp] theorem State.accept_events (s : State) (w : Command) : (s.accept w).events = s.events := rfl
@[simp] theorem State.accept_trace (s : State) (w : Command) : (s.accept w).trace = s.trace := rfl
@[simp] theorem State.accept_journal (s : State) (w : Command) : (s.accept w).journal = s.journal := rfl
@[simp] theorem State.accept_stepping (s : State) (w : Command) : (s.accept w).stepping = s.stepping := rfl

@[simp] theorem State.respond_cfg (s : State) (st : Status) (v : Payload) : (s.respond st v).cfg = s.cfg := rfl
@[simp] theorem State.respond_clk (s : State) (st : Status) (v : Payload) : (s.respond st v).clk = s.clk := rfl
@[simp] theorem State.respond_dio (s : State) (st : Status) (v : Payload) : (s.respond st v).dio = s.dio := rfl
@[simp] theorem State.respond_cs (s : State) (st : Status) (v : Payload) : (s.respond st v).cs = s.cs := rfl
@[simp] theorem State.respond_sh (s : State) (st : Status) (v : Payload) : (s.respond st v).sh = s.sh := rfl
@[simp] theorem State.respond_acc (s : State) (st : Status) (v : Payload) : (s.respond st v).acc = s.acc := rfl
@[simp] theorem State.respond_i (s : State) (st : Status) (v : Payload) : (s.respond st v).i = s.i := rfl
@[simp] theorem State.respond_t (s : State) (st : Status) (v : Payload) : (s.respond st v).t = s.t := rfl
@[simp] theorem State.respond_res (s : State) (st : Status) (v : Payload) : (s.respond st v).res = s.res := rfl
@[simp] theorem State.respond_phase (s : State) (st : Status) (v : Payload) : (s.respond st v).phase = s.phase := rfl
@[simp] theorem State.respond_c (s : State) (st : Status) (v : Payload) : (s.respond st v).c = s.c := rfl
@[simp] theorem State.respond_cmd (s : State) (st : Status) (v : Payload) : (s.respond st v).cmd = s.cmd := rfl
@[simp] theorem State.respond_resetPin (s : State) (st : Status) (v : Payload) :
    (s.respond st v).resetPin = s.resetPin := rfl
@[simp] theorem State.respond_dioIn (s : State) (st : Status) (v : Payload) : (s.respond st v).dioIn = s.dioIn := rfl
@[simp] theorem State.respond_lineFail (s : State) (st : Status) (v : Payload) :
    (s.respond st v).lineFail = s.lineFail := rfl
@[simp] theorem State.respond_script (s : State) (st : Status) (v : Payload) :
    (s.respond st v).script = s.script := rfl
@[simp] theorem State.respond_chip (s : State) (st : Status) (v : Payload) : (s.respond st v).chip = s.chip := rfl
@[simp] theorem State.respond_events (s : State) (st : Status) (v : Payload) :
    (s.respond st v).events = s.events := rfl
@[simp] theorem State.respond_trace (s : State) (st : Status) (v : Payload) : (s.respond st v).trace = s.trace := rfl
@[simp] theorem State.respond_journal (s : State) (st : Status) (v : Payload) :
    (s.respond st v).journal = s.journal := rfl
@[simp] theorem State.respond_stepping (s : State) (st : Status) (v : Payload) :
    (s.respond st v).stepping = s.stepping := rfl

@[simp] theorem State.endIllegal_cfg (s : State) : s.endIllegal.cfg = s.cfg := rfl
@[simp] theorem State.endIllegal_clk (s : State) : s.endIllegal.clk = s.clk := rfl
@[simp] theorem State.endIllegal_dio (s : State) : s.endIllegal.dio = s.dio := rfl
@[simp] theorem State.endIllegal_cs (s : State) : s.endIllegal.cs = s.cs := rfl
@[simp] theorem State.endIllegal_sh (s : State) : s.endIllegal.sh = s.sh := rfl
@[simp] theorem State.endIllegal_acc (s : State) : s.endIllegal.acc = s.acc := rfl
@[simp] theorem State.endIllegal_i (s : State) : s.endIllegal.i = s.i := rfl
@[simp] theorem State.endIllegal_t (s : State) : s.endIllegal.t = s.t := rfl
@[simp] theorem State.endIllegal_res (s : State) : s.endIllegal.res = s.res := rfl
@[simp] theorem State.endIllegal_busy (s : State) : s.endIllegal.busy = s.busy := rfl
@[simp] theorem State.endIllegal_upc (s : State) : s.endIllegal.upc = s.upc := rfl
@[simp] theorem State.endIllegal_phase (s : State) : s.endIllegal.phase = s.phase := rfl
@[simp] theorem State.endIllegal_c (s : State) : s.endIllegal.c = s.c := rfl
@[simp] theorem State.endIllegal_resetPin (s : State) : s.endIllegal.resetPin = s.resetPin := rfl
@[simp] theorem State.endIllegal_dioIn (s : State) : s.endIllegal.dioIn = s.dioIn := rfl
@[simp] theorem State.endIllegal_lineFail (s : State) : s.endIllegal.lineFail = s.lineFail := rfl
@[simp] theorem State.endIllegal_script (s : State) : s.endIllegal.script = s.script := rfl
@[simp] theorem State.endIllegal_chip (s : State) : s.endIllegal.chip = s.chip := rfl
@[simp] theorem State.endIllegal_events (s : State) : s.endIllegal.events = s.events := rfl
@[simp] theorem State.endIllegal_trace (s : State) : s.endIllegal.trace = s.trace := rfl
@[simp] theorem State.endIllegal_journal (s : State) : s.endIllegal.journal = s.journal := rfl
@[simp] theorem State.endIllegal_stepping (s : State) : s.endIllegal.stepping = s.stepping := rfl


/-! ### What each update writes -/

@[simp] theorem State.pin_setPin (s : State) (l l' : Line) (p : Pin) :
    (s.setPin l p).pin l' = if l' = l then p else s.pin l' := by cases l <;> cases l' <;> rfl

@[simp] theorem State.setPin_clk (s : State) (l : Line) (p : Pin) :
    (s.setPin l p).clk = if l = .clk then p else s.clk := by cases l <;> rfl
@[simp] theorem State.setPin_dio (s : State) (l : Line) (p : Pin) :
    (s.setPin l p).dio = if l = .dio then p else s.dio := by cases l <;> rfl
@[simp] theorem State.setPin_cs (s : State) (l : Line) (p : Pin) :
    (s.setPin l p).cs = if l = .cs then p else s.cs := by cases l <;> rfl

@[simp] theorem State.moveLine_clk (s : State) (l : Line) (p : Pin) :
    (s.moveLine l p).clk = if l = .clk then p else s.clk := by cases l <;> rfl
@[simp] theorem State.moveLine_dio (s : State) (l : Line) (p : Pin) :
    (s.moveLine l p).dio = if l = .dio then p else s.dio := by cases l <;> rfl
@[simp] theorem State.moveLine_cs (s : State) (l : Line) (p : Pin) :
    (s.moveLine l p).cs = if l = .cs then p else s.cs := by cases l <;> rfl
@[simp] theorem State.moveLine_chip (s : State) (l : Line) (p : Pin) :
    (s.moveLine l p).chip = s.chipAfter l p := rfl

@[simp] theorem State.stamp_trace (s : State) (e : Event) : (s.stamp e).trace = e :: s.trace := rfl
@[simp] theorem State.stamp_events (s : State) (e : Event) : (s.stamp e).events = s.events + 1 := rfl

@[simp] theorem State.applyDir_clk (s : State) (l : Line) (d : Dir) :
    (s.applyDir l d).clk = if l = .clk then s.clk.turn d s.events else s.clk := by cases l <;> rfl
@[simp] theorem State.applyDir_dio (s : State) (l : Line) (d : Dir) :
    (s.applyDir l d).dio = if l = .dio then s.dio.turn d s.events else s.dio := by cases l <;> rfl
@[simp] theorem State.applyDir_cs (s : State) (l : Line) (d : Dir) :
    (s.applyDir l d).cs = if l = .cs then s.cs.turn d s.events else s.cs := by cases l <;> rfl
@[simp] theorem State.applyDir_chip (s : State) (l : Line) (d : Dir) :
    (s.applyDir l d).chip = s.chipAfter l ((s.pin l).turn d s.events) := by cases l <;> rfl
@[simp] theorem State.applyDir_trace (s : State) (l : Line) (d : Dir) :
    (s.applyDir l d).trace = .dir l d :: s.trace := by cases l <;> rfl
@[simp] theorem State.applyDir_events (s : State) (l : Line) (d : Dir) :
    (s.applyDir l d).events = s.events + 1 := by cases l <;> rfl

@[simp] theorem State.applySet_clk (s : State) (l : Line) (b : Bool) :
    (s.applySet l b).clk = if l = .clk then s.clk.drive b else s.clk := by cases l <;> rfl
@[simp] theorem State.applySet_dio (s : State) (l : Line) (b : Bool) :
    (s.applySet l b).dio = if l = .dio then s.dio.drive b else s.dio := by cases l <;> rfl
@[simp] theorem State.applySet_cs (s : State) (l : Line) (b : Bool) :
    (s.applySet l b).cs = if l = .cs then s.cs.drive b else s.cs := by cases l <;> rfl
@[simp] theorem State.applySet_chip (s : State) (l : Line) (b : Bool) :
    (s.applySet l b).chip = s.chipAfter l ((s.pin l).drive b) := by cases l <;> rfl
@[simp] theorem State.applySet_phase (s : State) (l : Line) (b : Bool) :
    (s.applySet l b).phase = s.phase.after l b := by cases l <;> rfl
@[simp] theorem State.applySet_trace (s : State) (l : Line) (b : Bool) :
    (s.applySet l b).trace = .set l b :: s.trace := by cases l <;> rfl
@[simp] theorem State.applySet_events (s : State) (l : Line) (b : Bool) :
    (s.applySet l b).events = s.events + 1 := by cases l <;> rfl

@[simp] theorem State.applyGet_i (s : State) (k : Fin 8) : (s.applyGet k).i = k := rfl
@[simp] theorem State.applyGet_acc (s : State) (k : Fin 8) :
    (s.applyGet k).acc = s.acc ||| ((BitVec.ofBool s.sampled).setWidth 8 <<< k.val) := rfl
@[simp] theorem State.applyGet_dioIn (s : State) (k : Fin 8) : (s.applyGet k).dioIn = s.dioInAfter := rfl
@[simp] theorem State.applyGet_trace (s : State) (k : Fin 8) :
    (s.applyGet k).trace = .get .dio s.sampled :: s.trace := rfl
@[simp] theorem State.applyGet_events (s : State) (k : Fin 8) : (s.applyGet k).events = s.events + 1 := rfl

@[simp] theorem State.advance_upc (s : State) : s.advance.upc = s.upc + 1 := rfl
@[simp] theorem State.passFailed_events (s : State) : s.passFailed.events = s.events + 1 := rfl
@[simp] theorem State.passFailed_lineFail (s : State) : s.passFailed.lineFail = s.lineFail.tail := rfl

@[simp] theorem State.accept_c (s : State) (w : Command) : (s.accept w).c = w := rfl
@[simp] theorem State.accept_busy (s : State) (w : Command) : (s.accept w).busy = true := rfl
@[simp] theorem State.accept_upc (s : State) (w : Command) : (s.accept w).upc = 0 := rfl
@[simp] theorem State.accept_res (s : State) (w : Command) : (s.accept w).res = [] := rfl
@[simp] theorem State.accept_cmd (s : State) (w : Command) : (s.accept w).cmd = none := rfl
@[simp] theorem State.accept_rspValid (s : State) (w : Command) : (s.accept w).rspValid = false := rfl

@[simp] theorem State.respond_rsp (s : State) (st : Status) (v : Payload) :
    (s.respond st v).rsp = { status := st, value := v } := rfl
@[simp] theorem State.respond_busy (s : State) (st : Status) (v : Payload) : (s.respond st v).busy = false := rfl
@[simp] theorem State.respond_upc (s : State) (st : Status) (v : Payload) : (s.respond st v).upc = 0 := rfl
@[simp] theorem State.respond_rspValid (s : State) (st : Status) (v : Payload) :
    (s.respond st v).rspValid = true := rfl

/-! ### Reset -/

@[simp] theorem State.resetNow_cfg (s : State) : s.resetNow.cfg = s.cfg := by simp [State.resetNow]
@[simp] theorem State.resetNow_cmd (s : State) : s.resetNow.cmd = s.cmd := by simp [State.resetNow]
@[simp] theorem State.resetNow_dioIn (s : State) : s.resetNow.dioIn = s.dioIn := by simp [State.resetNow]
@[simp] theorem State.resetNow_lineFail (s : State) : s.resetNow.lineFail = s.lineFail := by simp [State.resetNow]
@[simp] theorem State.resetNow_script (s : State) : s.resetNow.script = s.script := by simp [State.resetNow]
@[simp] theorem State.resetNow_journal (s : State) : s.resetNow.journal = s.journal := by simp [State.resetNow]
@[simp] theorem State.resetNow_stepping (s : State) : s.resetNow.stepping = s.stepping := by simp [State.resetNow]

end Sys2Proof.Machine
end

