-- ==== Sys2Proof/Laws/Run.lean ====
section
/-! SUPPORT. What runs of micro-operations do to the lines and the trace: pulses, bit cells, bytes (40_byte_transport.md). -/

namespace Sys2Proof.Machine

@[simp] theorem Pin.drive_dir (p : Pin) (b : Bool) : (p.drive b).dir = p.dir := rfl
@[simp] theorem Pin.drive_lvl (p : Pin) (b : Bool) : (p.drive b).lvl = .driven b := rfl
theorem Pin.wire_drive {p : Pin} (b : Bool) (h : p.dir = .out) : (p.drive b).wire = some b := by
  simp [Pin.wire, Pin.drive, h]
theorem Pin.wire_of {p : Pin} {b : Bool} (h : p.dir = .out) (hl : p.lvl = .driven b) : p.wire = some b := by
  simp [Pin.wire, h, hl]

/-! ### Runs -/

theorem perform_eq (m : Micro) (s : State) (h : s.cfg.lineFaults = false) : perform m s = performOk m s := by
  simp [perform, h]

theorem runAll_append (xs ys : List Micro) (s : State) :
    runAll (xs ++ ys) s = match runAll xs s with
      | .done s' => runAll ys s'
      | r => r := by
  induction xs generalizing s with
  | nil => rfl
  | cons m ms ih =>
    simp only [List.cons_append, runAll]
    cases perform m s <;> simp [ih]

theorem runAll_append_done {xs ys : List Micro} {s t : State} (h : runAll xs s = .done t) :
    runAll (xs ++ ys) s = runAll ys t := by rw [runAll_append, h]

theorem driveLine_of_out {s : State} {l : Line} (b : Bool) (h : (s.pin l).dir = .out) :
    driveLine s l b = .done (s.applySet l b).advance := by simp [driveLine, h]

/-- What the peripheral becomes under one clock pulse while `CS` is at `sel`. -/
def State.chipPulsed (s : State) (sel : Bool) : Chip :=
  if s.chip.kind = .external ∨ sel = false then s.chip
  else (s.chip.clkRise s.cfg s.chipSees).clkFall s.cfg (s.events + 1)

/-- The state after one clock pulse. -/
def State.afterPulse (s : State) (sel : Bool) : State :=
  { s with clk := Pin.driving false
           phase := s.phase.after .clk true
           chip := s.chipPulsed sel
           trace := .set .clk false :: .set .clk true :: s.trace
           events := s.events + 2
           upc := s.upc + 2 }

@[simp] theorem Chip.clkRise_kind (c : Cfg) (d : Bool) (p : Chip) : (p.clkRise c d).kind = p.kind := by
  simp only [Chip.clkRise, Chip.commit]
  split
  · rfl
  split
  · split
    · rfl
    · split
      · split <;> try rfl
        split <;> rfl
      · rfl
  · rfl

@[simp] theorem Chip.clkFall_kind (c : Cfg) (ev : Nat) (p : Chip) : (p.clkFall c ev).kind = p.kind := by
  simp only [Chip.clkFall]
  repeat' split
  all_goals rfl

theorem runAll_pulse (s : State) (sel : Bool) (hf : s.cfg.lineFaults = false) (hd : s.clk.dir = .out)
    (hl : s.clk.lvl = .driven false) (hs : s.cs.wire = some sel) :
    runAll pulse s = .done (s.afterPulse sel) := by
  have w0 : s.clk.wire = some false := Pin.wire_of hd hl
  have w1 : (s.clk.drive true).wire = some true := Pin.wire_drive _ hd
  have w2 : ((s.clk.drive true).drive false).wire = some false := Pin.wire_drive _ hd
  have h1 : (s.applySet .clk true).chip =
      if s.chip.kind = .external ∨ sel = false then s.chip else s.chip.clkRise s.cfg s.chipSees := by
    simp only [State.applySet_chip, State.chipAfter, State.selectLevel, hs, State.pin, w0, w1, Option.getD_some]
    cases hk : s.chip.kind <;> cases sel <;> simp
  have h2 : ((s.applySet .clk true).advance.applySet .clk false).chip = s.chipPulsed sel := by
    simp only [State.applySet_chip .., State.chipAfter, State.selectLevel, State.advance_cs, State.advance_chip,
      State.advance_cfg, State.advance_events, State.applySet_cs, State.applySet_cfg,
      State.applySet_events, State.pin, State.advance_clk, State.applySet_clk, State.chipPulsed, reduceCtorEq, if_true, if_false, hs, w0, w1, w2,
      Option.getD_some]
    cases hk : s.chip.kind <;> cases sel <;> simp [hk]
  have e1 : perform (.set .clk true) s = .done (s.applySet .clk true).advance := by
    rw [perform_eq _ _ hf]; exact driveLine_of_out _ hd
  have e2 : perform (.set .clk false) (s.applySet .clk true).advance =
      .done ((s.applySet .clk true).advance.applySet .clk false).advance := by
    rw [perform_eq _ _ (by simpa using hf)]
    exact driveLine_of_out _ (by simp [State.pin, Pin.drive, hd])
  simp only [pulse, runAll, e1, e2]
  have h3 : ((s.applySet .clk true).advance.applySet .clk false).advance =
      { s.afterPulse sel with chip := ((s.applySet .clk true).advance.applySet .clk false).chip } := by
    simp [State.applySet, State.moveLine, State.setPin, State.stamp, State.advance, State.afterPulse, Pin.driving,
      Pin.drive, Phase.after, State.pin, hd]
  rw [h3, h2]; rfl

@[simp] theorem Pin.driving_dir (b : Bool) : (Pin.driving b).dir = .out := rfl
@[simp] theorem Pin.driving_lvl (b : Bool) : (Pin.driving b).lvl = .driven b := rfl
@[simp] theorem Pin.driving_wire (b : Bool) : (Pin.driving b).wire = some b := rfl

/-! ### Bit cells -/

/-- The line premises under which bits are shifted: nothing fails, `CLK` is low, `CS` is at `sel`. -/
structure State.Shifting (s : State) (sel : Bool) : Prop where
  faults : s.cfg.lineFaults = false
  dir : s.clk.dir = .out
  lvl : s.clk.lvl = .driven false
  select : s.cs.wire = some sel

/-- The state after one bit cell that the controller drives. -/
def State.afterCellOut (s : State) (sel : Bool) (k : Fin 8) : State :=
  ({ s with i := k
            dio := Pin.driving (s.sh.getLsbD k.val)
            trace := .set .dio (s.sh.getLsbD k.val) :: s.trace
            events := s.events + 1
            upc := s.upc + 1 } : State).afterPulse sel

theorem runAll_cellOut (s : State) (sel : Bool) (k : Fin 8) (h : s.Shifting sel) (hd : s.dio.dir = .out)
    (rest : List Micro) :
    runAll (.putBit k :: (pulse ++ rest)) s = runAll rest (s.afterCellOut sel k) := by
  have hp : performOk (.putBit k) s = .done
      { s with i := k
               dio := Pin.driving (s.sh.getLsbD k.val)
               trace := .set .dio (s.sh.getLsbD k.val) :: s.trace
               events := s.events + 1
               upc := s.upc + 1 } := by
    rw [performOk, driveLine_of_out _ (by simpa [State.pin] using hd)]
    simp [State.applySet, State.moveLine, State.setPin, State.stamp, State.advance, Pin.driving, Pin.drive, Phase.after,
      State.pin, hd, State.chipAfter]
    cases s.chip.kind <;> rfl
  rw [runAll, perform_eq _ _ h.faults, hp]
  exact runAll_append_done (runAll_pulse _ sel h.faults h.dir h.lvl h.select)

/-- The state after bit cells that the controller drives. -/
def State.cellsOut (sel : Bool) : List (Fin 8) → State → State
  | [], s => s
  | k :: ks, s => State.cellsOut sel ks (s.afterCellOut sel k)

theorem State.Shifting.cellOut {s : State} {sel : Bool} (h : s.Shifting sel) (k : Fin 8) :
    (s.afterCellOut sel k).Shifting sel := ⟨h.faults, rfl, rfl, h.select⟩

theorem runAll_cellsOut (ks : List (Fin 8)) (s : State) (sel : Bool) (h : s.Shifting sel) (hd : s.dio.dir = .out) :
    runAll (ks.flatMap fun k => .putBit k :: pulse) s = .done (s.cellsOut sel ks) := by
  induction ks generalizing s with
  | nil => rfl
  | cons k ks ih =>
    rw [List.flatMap_cons, List.cons_append, runAll_cellOut s sel k h hd]
    exact ih _ (h.cellOut k) rfl

/-- What `READ_BYTE` puts in the accumulator for the bit of index `k`. -/
def bitAt (b : Bool) (k : Fin 8) : Byte := (BitVec.ofBool b).setWidth 8 <<< k.val

/-- The state after one bit cell that the controller samples. -/
def State.afterCellIn (s : State) (sel : Bool) (k : Fin 8) : State :=
  ({ s with i := k
            acc := s.acc ||| bitAt s.sampled k
            dioIn := s.dioInAfter
            trace := .get .dio s.sampled :: s.trace
            events := s.events + 1
            upc := s.upc + 1 } : State).afterPulse sel

theorem runAll_cellIn (s : State) (sel : Bool) (k : Fin 8) (h : s.Shifting sel) (hd : s.dio.dir = .inp)
    (rest : List Micro) :
    runAll (.getBit k :: (pulse ++ rest)) s = runAll rest (s.afterCellIn sel k) := by
  have hp : performOk (.getBit k) s = .done (s.applyGet k).advance := by
    simp [performOk, sampleLine, hd]
  rw [runAll, perform_eq _ _ h.faults, hp]
  exact runAll_append_done (runAll_pulse _ sel h.faults h.dir h.lvl h.select)

/-- The state after bit cells that the controller samples. -/
def State.cellsIn (sel : Bool) : List (Fin 8) → State → State
  | [], s => s
  | k :: ks, s => State.cellsIn sel ks (s.afterCellIn sel k)

theorem State.Shifting.cellIn {s : State} {sel : Bool} (h : s.Shifting sel) (k : Fin 8) :
    (s.afterCellIn sel k).Shifting sel := ⟨h.faults, rfl, rfl, h.select⟩

theorem runAll_cellsIn (ks : List (Fin 8)) (s : State) (sel : Bool) (h : s.Shifting sel) (hd : s.dio.dir = .inp) :
    runAll (ks.flatMap fun k => .getBit k :: pulse) s = .done (s.cellsIn sel ks) := by
  induction ks generalizing s with
  | nil => rfl
  | cons k ks ih =>
    rw [List.flatMap_cons, List.cons_append, runAll_cellIn s sel k h hd]
    exact ih _ (h.cellIn k) hd

/-! ### Bytes -/

/-- The state after the opening event of a `WRITE_BYTE` of `v`. -/
def State.openedOut (s : State) (v : Byte) : State :=
  { s with sh := v
           dio := s.dio.turn .out s.events
           trace := .dir .dio .out :: s.trace
           events := s.events + 1
           upc := s.upc + 1 }

/-- The state after the opening event of a `READ_BYTE`. -/
def State.openedIn (s : State) : State :=
  { s with acc := 0
           dio := Pin.input
           trace := .dir .dio .inp :: s.trace
           events := s.events + 1
           upc := s.upc + 1 }

theorem Pin.turn_out_dir (p : Pin) (ev : Nat) : (p.turn .out ev).dir = .out := by
  simp only [Pin.turn]; split <;> simp_all

theorem State.Shifting.openedOut {s : State} {sel : Bool} (h : s.Shifting sel) (v : Byte) :
    (s.openedOut v).Shifting sel := ⟨h.faults, h.dir, h.lvl, h.select⟩

theorem State.Shifting.openedIn {s : State} {sel : Bool} (h : s.Shifting sel) :
    s.openedIn.Shifting sel := ⟨h.faults, h.dir, h.lvl, h.select⟩

theorem State.chipAfter_dio (s : State) (p : Pin) : s.chipAfter .dio p = s.chip := by
  simp only [State.chipAfter]; cases s.chip.kind <;> rfl

/-- `WRITE_BYTE` as a sub-sequence (R121). -/
theorem runAll_shiftOut (src : ByteSource) (s : State) (sel : Bool) (h : s.Shifting sel) :
    runAll (shiftOut src) s = .done ((s.openedOut (src.value s)).cellsOut sel bitIndices) := by
  have hp : performOk (.beginOut src) s = .done (s.openedOut (src.value s)) := by
    simp [performOk, State.applyDir, State.moveLine, State.setPin, State.stamp, State.advance, State.openedOut,
      State.chipAfter_dio, State.pin]
  rw [shiftOut, runAll, perform_eq _ _ h.faults, hp]
  exact runAll_cellsOut _ _ sel (h.openedOut _) (Pin.turn_out_dir ..)

/-- `READ_BYTE` as a sub-sequence (R122). -/
theorem runAll_shiftIn (s : State) (sel : Bool) (h : s.Shifting sel) :
    runAll shiftIn s = .done (s.openedIn.cellsIn sel bitIndices) := by
  have hp : performOk .beginIn s = .done s.openedIn := by
    simp [performOk, State.applyDir, State.moveLine, State.setPin, State.stamp, State.advance, State.openedIn,
      State.chipAfter_dio, Pin.turn, Pin.input]
  rw [shiftIn, runAll, perform_eq _ _ h.faults, hp]
  exact runAll_cellsIn _ _ sel h.openedIn rfl

/-! ### What the bytes leave on the lines and in the trace -/

@[simp] theorem Phase.after_clk_twice (ph : Phase) : (ph.after .clk true).after .clk true = ph.after .clk true := by
  cases ph <;> rfl

/-- One driven bit cell, the peripheral aside. -/
def State.lineOut (s : State) (k : Fin 8) (p : Chip) : State :=
  { s with i := k
           dio := Pin.driving (s.sh.getLsbD k.val)
           clk := Pin.driving false
           phase := s.phase.after .clk true
           chip := p
           trace := .set .clk false :: .set .clk true :: .set .dio (s.sh.getLsbD k.val) :: s.trace
           events := s.events + 3
           upc := s.upc + 3 }

theorem afterCellOut_line (s : State) (sel : Bool) (k : Fin 8) : ∃ p, s.afterCellOut sel k = s.lineOut k p := ⟨_, rfl⟩

theorem byteOut_line (s : State) (sel : Bool) (v : Byte) : ∃ p,
    (s.openedOut v).cellsOut sel bitIndices =
      { s with sh := v
               i := 7
               dio := Pin.driving (v.getLsbD 7)
               clk := Pin.driving false
               phase := s.phase.after .clk true
               chip := p
               trace := (byteOutEvents v).reverse ++ s.trace
               events := s.events + 25
               upc := s.upc + 25 } := by
  simp only [bitIndices, State.cellsOut]
  obtain ⟨p0, h⟩ := afterCellOut_line (s.openedOut v) sel 0; rw [h]
  obtain ⟨p1, h⟩ := afterCellOut_line ((s.openedOut v).lineOut 0 p0) sel 1; rw [h]
  generalize hs2 : ((s.openedOut v).lineOut 0 p0).lineOut 1 p1 = s2
  obtain ⟨p2, h⟩ := afterCellOut_line s2 sel 2; rw [h]
  generalize hs3 : s2.lineOut 2 p2 = s3
  obtain ⟨p3, h⟩ := afterCellOut_line s3 sel 3; rw [h]
  generalize hs4 : s3.lineOut 3 p3 = s4
  obtain ⟨p4, h⟩ := afterCellOut_line s4 sel 4; rw [h]
  generalize hs5 : s4.lineOut 4 p4 = s5
  obtain ⟨p5, h⟩ := afterCellOut_line s5 sel 5; rw [h]
  generalize hs6 : s5.lineOut 5 p5 = s6
  obtain ⟨p6, h⟩ := afterCellOut_line s6 sel 6; rw [h]
  generalize hs7 : s6.lineOut 6 p6 = s7
  obtain ⟨p7, h⟩ := afterCellOut_line s7 sel 7; rw [h]
  subst hs7 hs6 hs5 hs4 hs3 hs2
  refine ⟨p7, ?_⟩
  simp [State.lineOut, State.openedOut, byteOutEvents, bitIndices, pulseEvents]

/-- The byte that eight levels make, the first of them bit 0 (R54, R122). -/
def byteOfLevels (ds : List Bool) : Byte := (bitIndices.zip ds).foldl (fun x kd => x ||| bitAt kd.2 kd.1) 0

theorem byteOfLevels_bit (d0 d1 d2 d3 d4 d5 d6 d7 : Bool) (k : Fin 8) :
    (byteOfLevels [d0, d1, d2, d3, d4, d5, d6, d7]).getLsbD k.val =
      [d0, d1, d2, d3, d4, d5, d6, d7].get (k.cast rfl) := by
  revert d0 d1 d2 d3 d4 d5 d6 d7 k; decide +kernel

/-- A byte is made of its bits. -/
theorem byteOfLevels_bits (b : Byte) : byteOfLevels (bitIndices.map fun k => b.getLsbD k.val) = b := by
  revert b; decide +kernel

/-- The levels that bit cells sample. -/
def State.levels (sel : Bool) : List (Fin 8) → State → List Bool
  | [], _ => []
  | k :: ks, s => s.sampled :: State.levels sel ks (s.afterCellIn sel k)

/-- The byte a `READ_BYTE` assembles. -/
def State.byteIn (s : State) (sel : Bool) : Byte := byteOfLevels (s.openedIn.levels sel bitIndices)

/-- One sampled bit cell, the peripheral and the port `dio_in` aside. -/
def State.lineIn (s : State) (k : Fin 8) (d : Bool) (ls : List Bool) (p : Chip) : State :=
  { s with i := k
           acc := s.acc ||| bitAt d k
           dioIn := ls
           clk := Pin.driving false
           phase := s.phase.after .clk true
           chip := p
           trace := .set .clk false :: .set .clk true :: .get .dio d :: s.trace
           events := s.events + 3
           upc := s.upc + 3 }

theorem afterCellIn_line (s : State) (sel : Bool) (k : Fin 8) :
    ∃ ls p, s.afterCellIn sel k = s.lineIn k s.sampled ls p := ⟨_, _, rfl⟩

theorem byteIn_line (s : State) (sel : Bool) : ∃ ls p,
    s.openedIn.cellsIn sel bitIndices =
      { s with acc := s.byteIn sel
               i := 7
               dio := Pin.input
               dioIn := ls
               clk := Pin.driving false
               phase := s.phase.after .clk true
               chip := p
               trace := (byteInEvents (s.byteIn sel)).reverse ++ s.trace
               events := s.events + 25
               upc := s.upc + 25 } := by
  simp only [State.byteIn, bitIndices, State.cellsIn, State.levels]
  obtain ⟨l0, p0, h⟩ := afterCellIn_line s.openedIn sel 0; rw [h]; clear h
  generalize h1 : s.openedIn.lineIn 0 s.openedIn.sampled l0 p0 = s1
  obtain ⟨l1, p1, h⟩ := afterCellIn_line s1 sel 1; rw [h]; clear h
  generalize h2 : s1.lineIn 1 s1.sampled l1 p1 = s2
  obtain ⟨l2, p2, h⟩ := afterCellIn_line s2 sel 2; rw [h]; clear h
  generalize h3 : s2.lineIn 2 s2.sampled l2 p2 = s3
  obtain ⟨l3, p3, h⟩ := afterCellIn_line s3 sel 3; rw [h]; clear h
  generalize h4 : s3.lineIn 3 s3.sampled l3 p3 = s4
  obtain ⟨l4, p4, h⟩ := afterCellIn_line s4 sel 4; rw [h]; clear h
  generalize h5 : s4.lineIn 4 s4.sampled l4 p4 = s5
  obtain ⟨l5, p5, h⟩ := afterCellIn_line s5 sel 5; rw [h]; clear h
  generalize h6 : s5.lineIn 5 s5.sampled l5 p5 = s6
  obtain ⟨l6, p6, h⟩ := afterCellIn_line s6 sel 6; rw [h]; clear h
  generalize h7 : s6.lineIn 6 s6.sampled l6 p6 = s7
  obtain ⟨l7, p7, h⟩ := afterCellIn_line s7 sel 7; rw [h]; clear h
  refine ⟨l7, p7, ?_⟩
  generalize s.openedIn.sampled = d0 at *
  generalize s1.sampled = d1 at *
  generalize s2.sampled = d2 at *
  generalize s3.sampled = d3 at *
  generalize s4.sampled = d4 at *
  generalize s5.sampled = d5 at *
  generalize s6.sampled = d6 at *
  generalize s7.sampled = d7 at *
  subst h7 h6 h5 h4 h3 h2 h1
  simp [State.lineIn, State.openedIn, byteInEvents, bitIndices, pulseEvents]
  clear * - 
  revert d0 d1 d2 d3 d4 d5 d6 d7
  decide +kernel

end Sys2Proof.Machine
end

