-- ==== Sys2Proof/Laws/Transport.lean ====
section
/-! SUPPORT. What a byte does to the peripheral, and what the controller reads from it (20_memory.md R68, R69). -/

namespace Sys2Proof.Machine

/-! ### The peripheral under a byte -/

/-- `x[n] <- b0, x[n+1] <- b1, …` -/
def setBits : Byte → Nat → List Bool → Byte
  | x, _, [] => x
  | x, n, b :: bs => setBits (setBit x n b) (n + 1) bs

theorem setBits_all (b : Byte) : setBits 0 0 (bitIndices.map fun k => b.getLsbD k.val) = b := by
  revert b; decide +kernel

/-- The bits of a byte that cells drive. -/
def bitsOf (b : Byte) (ks : List (Fin 8)) : List Bool := ks.map fun k => b.getLsbD k.val

theorem setBits_append (x : Byte) (n : Nat) (bs cs : List Bool) :
    setBits x n (bs ++ cs) = setBits (setBits x n bs) (n + bs.length) cs := by
  induction bs generalizing x n with
  | nil => rfl
  | cons b bs ih => simp [setBits, ih, Nat.add_assoc, Nat.add_comm 1]

theorem afterCellOut_chip {s : State} (k : Fin 8) (hk : s.chip.kind ≠ .external) :
    (s.afterCellOut true k).chip = (s.chip.clkRise s.cfg (if s.chip.drv.isSome then
      Config.contendedLevel (s.events + 1) else s.sh.getLsbD k.val)).clkFall s.cfg (s.events + 2) := by
  simp [State.afterCellOut, State.afterPulse, State.chipPulsed, hk, State.chipSees]

/-- The address bits but the last (R68, R69). -/
theorem cellsOut_address (ks : List (Fin 8)) (s : State) (hk : s.chip.kind ≠ .external)
    (hd : s.chip.drv = none) (hn : s.chip.n + ks.length ≤ 7) :
    (s.cellsOut true ks).chip =
      { s.chip with ab := setBits s.chip.ab s.chip.n (bitsOf s.sh ks), n := s.chip.n + ks.length } := by
  induction ks generalizing s with
  | nil => rfl
  | cons k ks ih =>
    simp only [List.length_cons] at hn
    have h1 : (s.afterCellOut true k).chip =
        { s.chip with ab := setBit s.chip.ab s.chip.n (s.sh.getLsbD k.val), n := s.chip.n + 1 } := by
      have h8 : s.chip.n < 8 := by omega
      rw [afterCellOut_chip k hk]
      simp only [hd, Chip.clkRise, h8, if_true, Option.isSome_none, Bool.false_eq_true, if_false, Chip.clkFall]
      have a1 : ¬ (s.chip.n + 1 = 8) := by omega
      have a2 : ¬ (9 ≤ s.chip.n + 1 ∧ s.chip.n + 1 ≤ 15) := by omega
      have a3 : ¬ (s.chip.n + 1 = 16) := by omega
      simp only [a1, a2, a3, if_false, ite_self]
    rw [State.cellsOut, ih _ (by rw [h1]; exact hk) (by rw [h1]; exact hd) (by rw [h1]; simp only; omega)]
    rw [h1]
    simp only [bitsOf, List.map_cons, setBits, List.length_cons]
    have : (s.afterCellOut true k).sh = s.sh := rfl
    rw [this]
    congr 1; omega

theorem cellsOut_append (sel : Bool) (ks js : List (Fin 8)) (s : State) :
    s.cellsOut sel (ks ++ js) = (s.cellsOut sel ks).cellsOut sel js := by
  induction ks generalizing s with
  | nil => rfl
  | cons k ks ih => exact ih _

theorem cellsIn_append (sel : Bool) (ks js : List (Fin 8)) (s : State) :
    s.cellsIn sel (ks ++ js) = (s.cellsIn sel ks).cellsIn sel js := by
  induction ks generalizing s with
  | nil => rfl
  | cons k ks ih => exact ih _

theorem levels_append (sel : Bool) (ks js : List (Fin 8)) (s : State) :
    s.levels sel (ks ++ js) = s.levels sel ks ++ (s.cellsIn sel ks).levels sel js := by
  induction ks generalizing s with
  | nil => rfl
  | cons k ks ih => simp [State.levels, State.cellsIn, ih]

theorem cellsOut_kept (sel : Bool) (ks : List (Fin 8)) (s : State) :
    (s.cellsOut sel ks).cfg = s.cfg ∧ (s.cellsOut sel ks).sh = s.sh ∧
      (s.cellsOut sel ks).events = s.events + 3 * ks.length := by
  induction ks generalizing s with
  | nil => exact ⟨rfl, rfl, rfl⟩
  | cons k ks ih =>
    obtain ⟨h1, h2, h3⟩ := ih (s.afterCellOut sel k)
    refine ⟨h1, h2, h3.trans ?_⟩
    rw [show (s.afterCellOut sel k).events = s.events + 3 from rfl, List.length_cons]; omega

theorem cellsIn_kept (sel : Bool) (ks : List (Fin 8)) (s : State) :
    (s.cellsIn sel ks).cfg = s.cfg ∧ (s.cellsIn sel ks).events = s.events + 3 * ks.length := by
  induction ks generalizing s with
  | nil => exact ⟨rfl, rfl⟩
  | cons k ks ih =>
    obtain ⟨h1, h3⟩ := ih (s.afterCellIn sel k)
    refine ⟨h1, h3.trans ?_⟩
    rw [show (s.afterCellIn sel k).events = s.events + 3 from rfl, List.length_cons]; omega

/-- A peripheral that has taken the address byte `a` (R68, R69). -/
def Chip.addressed (c : Cfg) (ev : Nat) (a : Byte) (p : Chip) : Chip :=
  ({ p with n := 8, ab := a } : Chip).clkFall c ev

/-- The peripheral under the address byte. -/
theorem byteOut_chip_address (s : State) (a : Byte) (hk : s.chip.kind ≠ .external) (hn : s.chip.n = 0)
    (ha : s.chip.ab = 0) (hd : s.chip.drv = none) :
    ((s.openedOut a).cellsOut true bitIndices).chip = s.chip.addressed s.cfg (s.events + 24) a := by
  rw [show bitIndices = [0, 1, 2, 3, 4, 5, 6] ++ [7] from rfl, cellsOut_append]
  have h7 := cellsOut_address [0, 1, 2, 3, 4, 5, 6] (s.openedOut a) hk hd (by simp [State.openedOut, hn])
  obtain ⟨k1, k2, k3⟩ := cellsOut_kept true [0, 1, 2, 3, 4, 5, 6] (s.openedOut a)
  generalize ((s.openedOut a).cellsOut true [0, 1, 2, 3, 4, 5, 6]) = s7 at *
  have hab : setBit (setBits 0 0 (bitsOf a [0, 1, 2, 3, 4, 5, 6])) 7 (a.getLsbD 7) = a := by
    have := setBits_all a
    rw [show (bitIndices.map fun k => a.getLsbD k.val) = bitsOf a [0, 1, 2, 3, 4, 5, 6] ++ [a.getLsbD 7] from rfl,
      setBits_append] at this
    simpa [setBits, bitsOf] using this
  simp only [State.cellsOut]
  rw [afterCellOut_chip 7 (by rw [h7]; exact hk), h7, k1, k2, k3]
  simp only [State.openedOut, hd, ha, hn, Chip.clkRise, Chip.addressed, List.length_cons, List.length_nil,
    Option.isSome_none, Bool.false_eq_true, if_false, Nat.reduceAdd, Nat.reduceLT, if_true, Fin.isValue]
  rw [show a.getLsbD (↑(7 : Fin 8)) = a.getLsbD 7 from rfl, hab]

/-- The data bits of a write frame but the last (R68). -/
theorem cellsOut_data (ks : List (Fin 8)) (s : State) (hk : s.chip.kind ≠ .external)
    (hd : s.chip.drv = none) (hr : isReadAddr s.chip.ab = false) (h8 : 8 ≤ s.chip.n)
    (hn : s.chip.n + ks.length ≤ 15) :
    (s.cellsOut true ks).chip =
      { s.chip with db := setBits s.chip.db (s.chip.n - 8) (bitsOf s.sh ks), n := s.chip.n + ks.length } := by
  induction ks generalizing s with
  | nil => rfl
  | cons k ks ih =>
    simp only [List.length_cons] at hn
    have h1 : (s.afterCellOut true k).chip =
        { s.chip with db := setBit s.chip.db (s.chip.n - 8) (s.sh.getLsbD k.val), n := s.chip.n + 1 } := by
      have a0 : ¬ s.chip.n < 8 := by omega
      have a1 : s.chip.n < 16 := by omega
      have a2 : ¬ s.chip.n + 1 = 16 := by omega
      rw [afterCellOut_chip k hk]
      simp [hd, Chip.clkRise, a0, a1, a2, hr, Chip.clkFall]
    rw [State.cellsOut, ih _ (by rw [h1]; exact hk) (by rw [h1]; exact hd) (by rw [h1]; exact hr)
      (by rw [h1]; simp only; omega) (by rw [h1]; simp only; omega), h1]
    simp only [bitsOf, List.map_cons, setBits, List.length_cons]
    rw [show (s.afterCellOut true k).sh = s.sh from rfl, show s.chip.n + 1 - 8 = s.chip.n - 8 + 1 by omega]
    congr 1; omega

theorem Chip.commit_frame (c : Cfg) (a b : Byte) (p : Chip) :
    (p.commit c a b).kind = p.kind ∧ (p.commit c a b).n = p.n ∧ (p.commit c a b).ab = p.ab ∧
      (p.commit c a b).db = p.db ∧ (p.commit c a b).ob = p.ob ∧ (p.commit c a b).drv = p.drv := by
  simp only [Chip.commit]
  split
  · simp
  · simp
  · split <;> simp

/-- The peripheral under the data byte of a write frame: the byte is committed (R68, R70). -/
theorem byteOut_chip_data (s : State) (b : Byte) (hk : s.chip.kind ≠ .external) (hn : s.chip.n = 8)
    (hb : s.chip.db = 0) (hd : s.chip.drv = none) (hr : isReadAddr s.chip.ab = false) :
    ((s.openedOut b).cellsOut true bitIndices).chip =
      ({ s.chip with n := 16, db := b } : Chip).commit s.cfg s.chip.ab b := by
  rw [show bitIndices = [0, 1, 2, 3, 4, 5, 6] ++ [7] from rfl, cellsOut_append]
  have h7 := cellsOut_data [0, 1, 2, 3, 4, 5, 6] (s.openedOut b) hk hd hr (by simp [State.openedOut, hn])
    (by simp [State.openedOut, hn])
  obtain ⟨k1, k2, k3⟩ := cellsOut_kept true [0, 1, 2, 3, 4, 5, 6] (s.openedOut b)
  generalize ((s.openedOut b).cellsOut true [0, 1, 2, 3, 4, 5, 6]) = s7 at *
  have hdb : setBit (setBits 0 0 (bitsOf b [0, 1, 2, 3, 4, 5, 6])) 7 (b.getLsbD 7) = b := by
    have := setBits_all b
    rw [show (bitIndices.map fun k => b.getLsbD k.val) = bitsOf b [0, 1, 2, 3, 4, 5, 6] ++ [b.getLsbD 7] from rfl,
      setBits_append] at this
    simpa [setBits, bitsOf] using this
  simp only [State.cellsOut]
  rw [afterCellOut_chip 7 (by rw [h7]; exact hk), h7, k1, k2, k3]
  have hc := (Chip.commit_frame s.cfg s.chip.ab b { s.chip with n := 16, db := b }).2.2.1
  simp only [State.openedOut, hd, hb, hn, Chip.clkRise, List.length_cons, List.length_nil, hr, Nat.reduceSub,
    Option.isSome_none, Bool.false_eq_true, if_false, Nat.reduceAdd, Nat.reduceLT, if_true, Fin.isValue, Chip.clkFall]
  rw [show b.getLsbD (↑(7 : Fin 8)) = b.getLsbD 7 from rfl, hdb]
  simp only [← hd]
  rw [hc]
  simp only [hr, Bool.false_eq_true, if_false]

/-- What a read frame presents at its `m`-th data bit. -/
theorem clkPulse_read (c : Cfg) (ev : Nat) (d : Bool) (p : Chip) (hr : isReadAddr p.ab = true) (h8 : 8 ≤ p.n)
    (hn : p.n ≤ 15) : (p.clkRise c d).clkFall c ev =
      { p with n := p.n + 1, drv := if p.n = 15 then none else some (p.ob.getLsbD (p.n - 7)) } := by
  have a0 : ¬ p.n < 8 := by omega
  have a1 : p.n < 16 := by omega
  have a2 : ¬ p.n + 1 = 8 := by omega
  simp only [Chip.clkRise, a0, a1, if_true, if_false, hr, Chip.clkFall, a2]
  by_cases h : p.n = 15
  · simp [h]
  · have : 9 ≤ p.n + 1 ∧ p.n + 1 ≤ 15 := by omega
    simp only [this, and_self, if_true, h, if_false]
    rw [show p.n + 1 - 8 = p.n - 7 by omega]

theorem cellsOut_read (ks : List (Fin 8)) (s : State) (hk : s.chip.kind ≠ .external)
    (hr : isReadAddr s.chip.ab = true) (h8 : 8 ≤ s.chip.n) (hn : s.chip.n + ks.length = 16) :
    (s.cellsOut true ks).chip =
      { s.chip with n := 16, drv := if ks = [] then s.chip.drv else none } := by
  induction ks generalizing s with
  | nil => simp only [List.length_nil, Nat.add_zero] at hn; simp [State.cellsOut, ← hn]
  | cons k ks ih =>
    simp only [List.length_cons] at hn
    have h1 := afterCellOut_chip (s := s) k hk
    rw [clkPulse_read _ _ _ _ hr h8 (by omega)] at h1
    rw [State.cellsOut, ih _ (by rw [h1]; exact hk) (by rw [h1]; exact hr) (by rw [h1]; simp only; omega)
      (by rw [h1]; simp only; omega), h1]
    cases ks with
    | nil => simp only [List.length_nil] at hn; simp [show s.chip.n = 15 by omega]
    | cons => simp

/-- The peripheral under a second byte that the controller drives into a read frame (U2): nothing is stored. -/
theorem byteOut_chip_read (s : State) (b : Byte) (hk : s.chip.kind ≠ .external)
    (hn : s.chip.n = 8) (hr : isReadAddr s.chip.ab = true) :
    ((s.openedOut b).cellsOut true bitIndices).chip = { s.chip with n := 16, drv := none } :=
  cellsOut_read bitIndices (s.openedOut b) hk hr (by simp [State.openedOut, hn]) (by simp [State.openedOut, hn, bitIndices])

theorem afterCellIn_chip {s : State} (k : Fin 8) (hk : s.chip.kind ≠ .external) :
    ∃ d, (s.afterCellIn true k).chip = (s.chip.clkRise s.cfg d).clkFall s.cfg (s.events + 2) := by
  refine ⟨({ s with i := k
                    acc := s.acc ||| bitAt s.sampled k
                    dioIn := s.dioInAfter
                    trace := .get .dio s.sampled :: s.trace
                    events := s.events + 1
                    upc := s.upc + 1 } : State).chipSees, ?_⟩
  simp [State.afterCellIn, State.afterPulse, State.chipPulsed, hk]

theorem cellsIn_read (ks : List (Fin 8)) (s : State) (hk : s.chip.kind ≠ .external)
    (hr : isReadAddr s.chip.ab = true) (h8 : 8 ≤ s.chip.n) (hn : s.chip.n + ks.length = 16)
    (hd : s.chip.drv = some (s.chip.ob.getLsbD (s.chip.n - 8))) :
    (s.cellsIn true ks).chip = { s.chip with n := 16, drv := if ks = [] then s.chip.drv else none } ∧
      s.levels true ks = (List.range' (s.chip.n - 8) ks.length).map s.chip.ob.getLsbD ∧
      (s.cellsIn true ks).dioIn = s.dioIn := by
  induction ks generalizing s with
  | nil =>
    simp only [List.length_nil, Nat.add_zero] at hn
    simp [State.cellsIn, State.levels, ← hn]
  | cons k ks ih =>
    simp only [List.length_cons] at hn
    have hdr : s.chipDrives = some (s.chip.ob.getLsbD (s.chip.n - 8)) := by
      rw [State.chipDrives, hd]; cases h : s.chip.kind <;> simp_all
    have hsam : s.sampled = s.chip.ob.getLsbD (s.chip.n - 8) := by simp [State.sampled, hdr]
    have hin : s.dioInAfter = s.dioIn := by simp [State.dioInAfter, hdr]
    obtain ⟨d, h1⟩ := afterCellIn_chip (s := s) k hk
    rw [clkPulse_read _ _ _ _ hr h8 (by omega)] at h1
    have hdio : (s.afterCellIn true k).dioIn = s.dioIn := hin
    simp only [State.cellsIn, State.levels]
    by_cases hl : ks = []
    · subst hl
      simp only [List.length_nil] at hn
      have : s.chip.n = 15 := by omega
      simp only [State.cellsIn, State.levels, h1, hsam]
      simp [this, hdio]
    · have h15 : s.chip.n ≠ 15 := by
        intro h; apply hl; apply List.eq_nil_of_length_eq_zero; omega
      obtain ⟨i1, i2, i3⟩ := ih (s.afterCellIn true k) (by rw [h1]; exact hk) (by rw [h1]; exact hr)
        (by rw [h1]; simp only; omega) (by rw [h1]; simp only; omega)
        (by rw [h1]; simp only [h15, if_false]; congr 2)
      refine ⟨?_, ?_, i3.trans hdio⟩
      · rw [i1, h1]; simp [hl]
      · rw [i2, h1, hsam]
        simp only [List.length_cons, List.range'_succ, List.map_cons]
        rw [show s.chip.n + 1 - 8 = s.chip.n - 8 + 1 by omega]

/-- The peripheral and the controller under the data byte of a read frame (R69, R75 (a)). -/
theorem byteIn_read (s : State) (hk : s.chip.kind ≠ .external) (hn : s.chip.n = 8)
    (hr : isReadAddr s.chip.ab = true) (hd : s.chip.drv = some (s.chip.ob.getLsbD 0)) :
    (s.openedIn.cellsIn true bitIndices).chip = { s.chip with n := 16, drv := none } ∧
      s.byteIn true = s.chip.ob ∧ (s.openedIn.cellsIn true bitIndices).dioIn = s.dioIn := by
  obtain ⟨h1, h2, h3⟩ := cellsIn_read bitIndices s.openedIn hk hr (by simp [State.openedIn, hn])
    (by simp [State.openedIn, hn, bitIndices]) (by simpa [State.openedIn, hn] using hd)
  refine ⟨h1, ?_, h3⟩
  rw [State.byteIn, h2]
  simp only [State.openedIn, hn]
  exact byteOfLevels_bits _

theorem cellsIn_data (ks : List (Fin 8)) (s : State) (hk : s.chip.kind ≠ .external)
    (hr : isReadAddr s.chip.ab = false) (h8 : 8 ≤ s.chip.n) (hn : s.chip.n + ks.length ≤ 15) :
    ∃ v, (s.cellsIn true ks).chip = { s.chip with db := v, n := s.chip.n + ks.length } := by
  induction ks generalizing s with
  | nil => exact ⟨s.chip.db, rfl⟩
  | cons k ks ih =>
    simp only [List.length_cons] at hn
    obtain ⟨d, h1⟩ := afterCellIn_chip (s := s) k hk
    have a0 : ¬ s.chip.n < 8 := by omega
    have a1 : s.chip.n < 16 := by omega
    have a2 : ¬ s.chip.n + 1 = 16 := by omega
    simp only [Chip.clkRise, a0, a1, a2, hr, Chip.clkFall, if_true, if_false, Bool.false_eq_true] at h1
    obtain ⟨v, hv⟩ := ih (s.afterCellIn true k) (by rw [h1]; exact hk) (by rw [h1]; exact hr)
      (by rw [h1]; simp only; omega) (by rw [h1]; simp only; omega)
    refine ⟨v, ?_⟩
    rw [State.cellsIn, hv, h1]
    simp only [List.length_cons]
    congr 1; omega

/-- The peripheral under a byte the controller samples in a write frame (U3): it commits what it saw. -/
theorem byteIn_chip_data (s : State) (hk : s.chip.kind ≠ .external) (hn : s.chip.n = 8)
    (hr : isReadAddr s.chip.ab = false) : ∃ v,
    (s.openedIn.cellsIn true bitIndices).chip =
      ({ s.chip with n := 16, db := v } : Chip).commit s.cfg s.chip.ab v := by
  rw [show bitIndices = [0, 1, 2, 3, 4, 5, 6] ++ [7] from rfl, cellsIn_append]
  obtain ⟨v, h7⟩ := cellsIn_data [0, 1, 2, 3, 4, 5, 6] s.openedIn hk hr (by simp [State.openedIn, hn])
    (by simp [State.openedIn, hn])
  obtain ⟨k1, -⟩ := cellsIn_kept true [0, 1, 2, 3, 4, 5, 6] s.openedIn
  generalize (s.openedIn.cellsIn true [0, 1, 2, 3, 4, 5, 6]) = s7 at *
  obtain ⟨d, h1⟩ := afterCellIn_chip (s := s7) 7 (by rw [h7]; exact hk)
  have hc := fun b => (Chip.commit_frame s.cfg s.chip.ab b { s.chip with n := 16, db := b }).2.2.1
  refine ⟨setBit v 7 d, ?_⟩
  simp only [State.cellsIn]
  rw [h1, h7, k1]
  simp only [State.openedIn, hn, Chip.clkRise, List.length_cons, List.length_nil, hr, Nat.reduceSub,
    Bool.false_eq_true, if_false, Nat.reduceAdd, Nat.reduceLT, if_true, Chip.clkFall]
  rw [hc]
  simp only [hr, Bool.false_eq_true, if_false]

/-! ### Chip kinds that have no state here, or are not selected -/

theorem chipPulsed_quiet (s : State) (sel : Bool) (h : s.chip.kind = .external ∨ sel = false) :
    s.chipPulsed sel = s.chip := by simp [State.chipPulsed, h]

theorem cellsOut_quiet (ks : List (Fin 8)) (s : State) (sel : Bool) (h : s.chip.kind = .external ∨ sel = false) :
    (s.cellsOut sel ks).chip = s.chip := by
  induction ks generalizing s with
  | nil => rfl
  | cons k ks ih =>
    have h1 : (s.afterCellOut sel k).chip = s.chip := chipPulsed_quiet _ sel h
    rw [State.cellsOut, ih _ (by rw [h1]; exact h), h1]

theorem cellsIn_quiet (ks : List (Fin 8)) (s : State) (sel : Bool) (h : s.chip.kind = .external ∨ sel = false) :
    (s.cellsIn sel ks).chip = s.chip := by
  induction ks generalizing s with
  | nil => rfl
  | cons k ks ih =>
    have h1 : (s.afterCellIn sel k).chip = s.chip := chipPulsed_quiet _ sel h
    rw [State.cellsIn, ih _ (by rw [h1]; exact h), h1]

/-- No modelled peripheral drives `DIO`, and none will under bit cells that the controller samples. -/
def State.Quiet (s : State) (sel : Bool) : Prop :=
  s.chip.kind = .external ∨
    s.chip.drv = none ∧ (sel = false ∨ isReadAddr s.chip.ab = false ∧ 8 ≤ s.chip.n)

theorem State.Quiet.chipDrives {s : State} {sel : Bool} (h : s.Quiet sel) : s.chipDrives = none := by
  rcases h with h | h
  · simp [State.chipDrives, h]
  · simp only [State.chipDrives, h.1]; cases s.chip.kind <;> rfl

/-- A clock pulse in the data byte of a write frame drives nothing (R69). -/
theorem clkPulse_write (c : Cfg) (ev : Nat) (d : Bool) (p : Chip) (hr : isReadAddr p.ab = false) (h8 : 8 ≤ p.n) :
    ((p.clkRise c d).clkFall c ev).drv = p.drv ∧ ((p.clkRise c d).clkFall c ev).ab = p.ab ∧
      8 ≤ ((p.clkRise c d).clkFall c ev).n := by
  have a0 : ¬ p.n < 8 := by omega
  have hrise : (p.clkRise c d).drv = p.drv ∧ (p.clkRise c d).ab = p.ab ∧ 8 ≤ (p.clkRise c d).n := by
    simp only [Chip.clkRise, a0, hr, Bool.false_eq_true, if_false]
    split
    · obtain ⟨-, h2, h3, -, -, h6⟩ := Chip.commit_frame c p.ab (setBit p.db (p.n - 8) d)
        { p with db := setBit p.db (p.n - 8) d, n := p.n + 1 }
      split
      · exact ⟨h6, h3, by rw [h2]; simp only; omega⟩
      · exact ⟨rfl, rfl, by simp only; omega⟩
    · exact ⟨rfl, rfl, h8⟩
  obtain ⟨h1, h2, h3⟩ := hrise
  simp only [Chip.clkFall, h2, hr, Bool.false_eq_true, if_false]
  exact ⟨h1, trivial, h3⟩

theorem State.Quiet.cellIn {s : State} {sel : Bool} (h : s.Quiet sel) (k : Fin 8) :
    (s.afterCellIn sel k).Quiet sel := by
  by_cases hq : s.chip.kind = .external ∨ sel = false
  · have h1 : (s.afterCellIn sel k).chip = s.chip := chipPulsed_quiet _ sel hq
    simpa only [State.Quiet, h1] using h
  · rcases h with h | ⟨hd, h | ⟨hr, h8⟩⟩
    · exact absurd (.inl h) hq
    · exact absurd (.inr h) hq
    · have hk : s.chip.kind ≠ .external := fun e => hq (.inl e)
      have hs : sel = true := by cases sel <;> simp_all
      subst hs
      obtain ⟨d, h1⟩ := afterCellIn_chip (s := s) k hk
      obtain ⟨e1, e2, e3⟩ := clkPulse_write s.cfg (s.events + 2) d s.chip hr h8
      rw [← h1] at e1 e2 e3
      exact .inr ⟨e1.trans hd, .inr ⟨e2 ▸ hr, e3⟩⟩

/-- While no modelled peripheral drives, the samples are the levels at the port, then free levels (R22). -/
theorem levels_port (ks : List (Fin 8)) (s : State) (sel : Bool) (h : s.Quiet sel) :
    s.levels sel ks = (List.range ks.length).map (fun j => (s.dioIn[j]?).getD
        (Config.floatLevel .sample (s.events + 3 * j))) ∧
      (s.cellsIn sel ks).dioIn = s.dioIn.drop ks.length := by
  induction ks generalizing s with
  | nil => simp [State.levels, State.cellsIn]
  | cons k ks ih =>
    obtain ⟨i1, i2⟩ := ih (s.afterCellIn sel k) (h.cellIn k)
    have hd := h.chipDrives
    have h2 : (s.afterCellIn sel k).dioIn = s.dioIn.tail := by
      show s.dioInAfter = _
      simp [State.dioInAfter, hd]
    have h3 : (s.afterCellIn sel k).events = s.events + 3 := rfl
    have hs : s.sampled = (s.dioIn[0]?).getD (Config.floatLevel .sample s.events) := by
      simp only [State.sampled, hd]; cases s.dioIn <;> rfl
    rw [h2] at i1 i2
    simp only [State.levels, State.cellsIn, List.length_cons, List.range_succ_eq_map, List.map_cons, List.map_map]
    refine ⟨?_, ?_⟩
    · rw [i1, hs, h3]
      simp only [Nat.mul_zero, Nat.add_zero, List.cons.injEq, true_and]
      refine List.map_congr_left fun j _ => ?_
      simp only [Function.comp_apply, List.getElem?_tail]
      congr 2
      simp only [Nat.succ_eq_add_one]; omega
    · rw [i2, List.drop_tail]

/-- The byte assembled while no modelled peripheral drives (R22, R122). -/
theorem byteIn_port (s : State) (sel : Bool) (h : s.Quiet sel) :
    s.byteIn sel = s.portByte (s.events + 1) ∧ (s.openedIn.cellsIn sel bitIndices).dioIn = s.dioIn.drop 8 := by
  obtain ⟨h1, h2⟩ := levels_port bitIndices s.openedIn sel h
  refine ⟨?_, h2⟩
  rw [State.byteIn, h1]
  simp [State.portByte, byteOf, byteOfLevels, bitIndices, bitAt, State.openedIn, List.range_succ]

/-- Bit `k` of a byte made of its bits (R9). -/
theorem byteOf_bit (f : Nat → Bool) (k : Fin 8) : (byteOf f).getLsbD k.val = f k.val := by
  simp only [byteOf, bitIndices, List.foldl_cons, List.foldl_nil, Fin.isValue]
  have e0 : f ↑(0 : Fin 8) = f 0 := rfl
  generalize h0 : f ↑(0 : Fin 8) = d0
  generalize h1 : f ↑(1 : Fin 8) = d1
  generalize h2 : f ↑(2 : Fin 8) = d2
  generalize h3 : f ↑(3 : Fin 8) = d3
  generalize h4 : f ↑(4 : Fin 8) = d4
  generalize h5 : f ↑(5 : Fin 8) = d5
  generalize h6 : f ↑(6 : Fin 8) = d6
  generalize h7 : f ↑(7 : Fin 8) = d7
  have hk : f k.val = [d0, d1, d2, d3, d4, d5, d6, d7].get (k.cast rfl) := by
    subst h0 h1 h2 h3 h4 h5 h6 h7
    fin_cases k <;> rfl
  rw [hk]
  clear hk h0 h1 h2 h3 h4 h5 h6 h7 e0
  revert d0 d1 d2 d3 d4 d5 d6 d7 k; decide +kernel

end Sys2Proof.Machine
end

