-- ==== Sys2Proof/Laws/Frames.lean ====
section
/-! SUPPORT. One lemma per frame: everything a read frame and a write frame do (41_register_access.md R130, R131). -/

namespace Sys2Proof.Machine

/-! ### Frames -/

/-- The line premises of a frame: R222 (a), (b), and nothing fails. -/
structure State.Framing (s : State) : Prop where
  faults : s.cfg.lineFaults = false
  clkDir : s.clk.dir = .out
  clkLvl : s.clk.lvl = .driven false
  csDir : s.cs.dir = .out
  csLvl : s.cs.lvl = .driven false

/-- The peripheral once `CS` has risen on it with `CLK` low (R67, R74). -/
def Chip.opened (c : Cfg) (ev : Nat) (p : Chip) : Chip :=
  { p.sinceLastFrame c ev with n := 0, ab := 0, db := 0, drv := none }

/-- The state after `SET(CS, 1)`. -/
def State.selected (s : State) : State :=
  { s with cs := Pin.driving true
           phase := .selected
           chip := if s.chip.kind = .external then s.chip else s.chip.opened s.cfg s.events
           trace := .set .cs true :: s.trace
           events := s.events + 1
           upc := s.upc + 1 }

theorem perform_select (s : State) (h : s.Framing) : perform (.set .cs true) s = .done s.selected := by
  have w0 : s.cs.wire = some false := Pin.wire_of h.csDir h.csLvl
  have w1 : (s.cs.drive true).wire = some true := Pin.wire_drive _ h.csDir
  have w2 : s.clk.wire = some false := Pin.wire_of h.clkDir h.clkLvl
  have hc : s.chipAfter .cs (s.cs.drive true) = s.selected.chip := by
    simp only [State.chipAfter, State.pin, w0, w1, w2, Option.getD_some, State.selected]
    cases hk : s.chip.kind <;> simp [Chip.csRise, Chip.opened]
  rw [perform_eq _ _ h.faults, performOk, driveLine_of_out _ (by simpa [State.pin] using h.csDir)]
  simp only [State.applySet, State.moveLine, State.pin, hc]
  simp [State.setPin, State.stamp, State.advance, State.selected, Pin.driving, Pin.drive, Phase.after, h.csDir]

theorem State.Framing.selected {s : State} (h : s.Framing) : s.selected.Shifting true :=
  ⟨h.faults, h.clkDir, h.clkLvl, rfl⟩

/-- The state after the `SET(CS, 0)` that ends a frame. -/
def State.deselected (s : State) : State :=
  { s with cs := Pin.driving false
           phase := .idle
           chip := if s.chip.kind = .external then s.chip else { s.chip with drv := none }
           trace := .set .cs false :: s.trace
           events := s.events + 1
           upc := s.upc + 1 }

theorem perform_endFrame (s : State) (x : AtEnd) (hf : s.cfg.lineFaults = false) (hd : s.cs.dir = .out) :
    perform (.endFrame x) s = .done (x.keepIn s.deselected) := by
  have w1 : (s.cs.drive false).wire = some false := Pin.wire_drive _ hd
  have hc : s.chipAfter .cs (s.cs.drive false) = s.deselected.chip := by
    simp only [State.chipAfter, State.pin, w1, Option.getD_some, State.deselected]
    cases hk : s.chip.kind <;> simp [Chip.csFall, hk]
  have he : driveLine s .cs false = .done s.deselected := by
    rw [driveLine_of_out _ (by simpa [State.pin] using hd)]
    simp only [State.applySet, State.moveLine, State.pin, hc]
    simp [State.setPin, State.stamp, State.advance, State.deselected, Pin.driving, Pin.drive, Phase.after, hd]
  rw [perform_eq _ _ hf, performOk, he]

/-- What a write frame of `b` at `a` makes of the peripheral (R67 to R70). -/
def Chip.wroteFrame (c : Cfg) (ev : Nat) (a b : Byte) (p : Chip) : Chip :=
  let q := p.opened c ev
  if isReadAddr a then
    { q with n := 16, ab := a, ob := ({ q with n := 8, ab := a } : Chip).fetch c (ev + 25) }
  else ({ q with n := 16, ab := a, db := b } : Chip).commit c a b

theorem Chip.opened_kind (c : Cfg) (ev : Nat) (p : Chip) : (p.opened c ev).kind = p.kind := by
  have ht : (p.tick c ev).kind = p.kind := rfl
  simp only [Chip.opened, Chip.sinceLastFrame]
  split
  · split <;> simp [ht]
  · rfl

/-- A write frame (R131): the lines, the trace and the peripheral after it. -/
theorem runAll_writeFrame (s : State) (h : s.Framing) (a : Byte) (src : ByteSource) (x : AtEnd) :
    ∃ p, runAll (writeFrame a src x) s = .done (x.keepIn
      { s with sh := src.value s
               i := 7
               dio := Pin.driving ((src.value s).getLsbD 7)
               clk := Pin.driving false
               cs := Pin.driving false
               phase := .idle
               chip := p
               trace := (writeFrameEvents a (src.value s)).reverse ++ s.trace
               events := s.events + 52
               upc := s.upc + 52 }) ∧
      (s.chip.kind = .external → p = s.chip) ∧
      (s.chip.kind ≠ .external → p = s.chip.wroteFrame s.cfg s.events a (src.value s)) := by
  have h1 := h.selected
  have r1 := runAll_shiftOut (.lit a) s.selected true h1
  obtain ⟨p1, e1⟩ := byteOut_line s.selected true a
  have c1q := fun hq => cellsOut_quiet bitIndices (s.selected.openedOut a) true hq
  have c1k := byteOut_chip_address s.selected a
  rw [e1] at c1q c1k
  rw [show ByteSource.value s.selected (.lit a) = a from rfl, e1] at r1
  generalize hs2 : ({ s.selected with sh := a, i := 7, dio := Pin.driving (a.getLsbD 7), clk := Pin.driving false, phase := s.selected.phase.after .clk true, chip := p1, trace := (byteOutEvents a).reverse ++ s.selected.trace, events := s.selected.events + 25, upc := s.selected.upc + 25 } : State) = s2 at *
  have h2 : s2.Shifting true := by subst hs2; exact ⟨h.faults, rfl, rfl, rfl⟩
  have hp1 : s2.chip = p1 := by rw [← hs2]
  have hv : src.value s2 = src.value s := by subst hs2; cases src <;> rfl
  have r2 := runAll_shiftOut src s2 true h2
  obtain ⟨p2, e2⟩ := byteOut_line s2 true (src.value s)
  have c2q := fun hq => cellsOut_quiet bitIndices (s2.openedOut (src.value s)) true hq
  have c2d := byteOut_chip_data s2 (src.value s)
  have c2r := byteOut_chip_read s2 (src.value s)
  rw [e2] at c2q c2d c2r
  rw [hv, e2] at r2
  have hrun : runAll (writeFrame a src x) s = .done (x.keepIn
      ({ s2 with sh := src.value s, i := 7, dio := Pin.driving ((src.value s).getLsbD 7), clk := Pin.driving false, phase := s2.phase.after .clk true, chip := p2, trace := (byteOutEvents (src.value s)).reverse ++ s2.trace, events := s2.events + 25, upc := s2.upc + 25 } : State).deselected) := by
    rw [writeFrame, List.append_assoc, List.append_assoc, List.singleton_append, runAll, perform_select s h]
    simp only []
    rw [runAll_append_done r1, runAll_append_done r2]
    simp only [runAll]
    rw [perform_endFrame _ _ (by subst hs2; exact h.faults) (by subst hs2; rfl)]
  rw [hrun]
  by_cases hk : s.chip.kind = .external
  · have q1 : p1 = s.chip := by rw [← hp1]; simpa [State.selected, State.openedOut, hk] using c1q
    have q2 : p2 = s.chip := by
      subst hs2; simpa [State.openedOut, q1, hk] using c2q
    refine ⟨s.chip, ?_, fun _ => rfl, fun h => absurd hk h⟩
    subst hs2
    simp [State.deselected, q2, hk, writeFrameEvents, State.selected]
  · have hsel : s.selected.chip = s.chip.opened s.cfg s.events := by simp [State.selected, hk]
    have q1 : p1 = (s.chip.opened s.cfg s.events).addressed s.cfg (s.events + 25) a := by
      have := c1k (by rw [hsel, Chip.opened_kind]; exact hk) (by rw [hsel]; rfl) (by rw [hsel]; rfl) (by rw [hsel]; rfl)
      rw [hsel, hp1] at this
      exact this
    have hp2 : ({ p2 with drv := none } : Chip) = s.chip.wroteFrame s.cfg s.events a (src.value s) ∧ p2.kind = s.chip.kind := by
      have k0 := Chip.opened_kind s.cfg s.events s.chip
      by_cases hr : isReadAddr a = true
      · have e : p1 = { s.chip.opened s.cfg s.events with n := 8, ab := a
                                                          ob := ({ s.chip.opened s.cfg s.events with n := 8, ab := a } : Chip).fetch s.cfg (s.events + 25)
                                                          drv := some ((({ s.chip.opened s.cfg s.events with n := 8, ab := a } : Chip).fetch s.cfg (s.events + 25)).getLsbD 0) } := by
          rw [q1]; simp [Chip.addressed, Chip.clkFall, hr]
        have f := c2r (by subst hs2; simp only [e, k0]; exact hk) (by subst hs2; simp only [e]) (by subst hs2; simp only [e]; exact hr)
        have f' : p2 = { p1 with n := 16, drv := none } := by subst hs2; exact f
        rw [f', e]
        refine ⟨?_, k0⟩
        simp only [Chip.wroteFrame, hr, if_true]
        rfl
      · have e : p1 = { s.chip.opened s.cfg s.events with n := 8, ab := a } := by
          rw [q1]; simp [Chip.addressed, Chip.clkFall, hr]
        have hr' : isReadAddr a = false := by simpa using hr
        have f := c2d (by subst hs2; simp only [e, k0]; exact hk) (by subst hs2; simp only [e]) (by subst hs2; simp only [e]; rfl) (by subst hs2; simp only [e]; rfl) (by subst hs2; simp only [e]; exact hr')
        have f' : p2 = ({ s.chip.opened s.cfg s.events with n := 16, ab := a, db := src.value s } : Chip).commit s.cfg a (src.value s) := by
          subst hs2; simpa only [e, show s.selected.cfg = s.cfg from rfl] using f
        have hc := Chip.commit_frame s.cfg a (src.value s) { s.chip.opened s.cfg s.events with n := 16, ab := a, db := src.value s }
        refine ⟨?_, by rw [f', hc.1]; exact k0⟩
        rw [f']
        simp only [Chip.wroteFrame, hr, if_false, Bool.false_eq_true]
        have hd := hc.2.2.2.2.2
        generalize Chip.commit s.cfg a (src.value s) { s.chip.opened s.cfg s.events with n := 16, ab := a, db := src.value s } = z at *
        cases z
        simp only [Chip.mk.injEq, true_and]
        exact hd.symm
    refine ⟨_, ?_, fun h => absurd h hk, fun _ => hp2.1⟩
    have hk2 : p2.kind ≠ .external := by rw [hp2.2]; exact hk
    subst hs2
    simp [State.deselected, hk2, writeFrameEvents, State.selected]

/-- The byte a read frame at `a` presents (R69, R75 (a)). -/
def Chip.presented (c : Cfg) (ev : Nat) (a : Byte) (p : Chip) : Byte :=
  ({ p.opened c ev with n := 8, ab := a } : Chip).fetch c (ev + 25)

/-- The byte a read frame at `a` returns: what a modelled peripheral presents at a read address, else what the port
`dio_in` has (R22, R130). -/
def State.frameByte (s : State) (a : Byte) : Byte :=
  if s.chip.kind ≠ .external ∧ isReadAddr a = true then s.chip.presented s.cfg s.events a
  else s.portByte (s.events + 27)

/-- The levels a read frame at `a` leaves at the port `dio_in`. -/
def State.frameRest (s : State) (a : Byte) : List Bool :=
  if s.chip.kind ≠ .external ∧ isReadAddr a = true then s.dioIn else s.dioIn.drop 8

/-- What a read frame at `a` makes of the peripheral (R67 to R70). -/
def Chip.AfterRead (c : Cfg) (ev : Nat) (a : Byte) (p q : Chip) : Prop :=
  if p.kind = .external then q = p
  else if isReadAddr a = true then q = { p.opened c ev with n := 16, ab := a, ob := p.presented c ev a }
  else ∃ v, q = ({ p.opened c ev with n := 16, ab := a, db := v } : Chip).commit c a v

/-- A read frame (R130): the lines, the trace and the peripheral after it. -/
theorem runAll_readFrame (s : State) (h : s.Framing) (a : Byte) (x : AtEnd) :
    ∃ p, runAll (readFrame a x) s = .done (x.keepIn
      { s with sh := a
               acc := s.frameByte a
               i := 7
               dio := Pin.input
               dioIn := s.frameRest a
               clk := Pin.driving false
               cs := Pin.driving false
               phase := .idle
               chip := p
               trace := (readFrameEvents a (s.frameByte a)).reverse ++ s.trace
               events := s.events + 52
               upc := s.upc + 52 }) ∧ s.chip.AfterRead s.cfg s.events a p := by
  have h1 := h.selected
  have r1 := runAll_shiftOut (.lit a) s.selected true h1
  obtain ⟨p1, e1⟩ := byteOut_line s.selected true a
  have c1q := fun hq => cellsOut_quiet bitIndices (s.selected.openedOut a) true hq
  have c1k := byteOut_chip_address s.selected a
  rw [e1] at c1q c1k
  rw [show ByteSource.value s.selected (.lit a) = a from rfl, e1] at r1
  generalize hs2 : ({ s.selected with sh := a, i := 7, dio := Pin.driving (a.getLsbD 7), clk := Pin.driving false, phase := s.selected.phase.after .clk true, chip := p1, trace := (byteOutEvents a).reverse ++ s.selected.trace, events := s.selected.events + 25, upc := s.selected.upc + 25 } : State) = s2 at *
  have h2 : s2.Shifting true := by subst hs2; exact ⟨h.faults, rfl, rfl, rfl⟩
  have hp1 : s2.chip = p1 := by rw [← hs2]
  have hin : s2.dioIn = s.dioIn := by rw [← hs2]; rfl
  have hev : s2.events = s.events + 26 := by rw [← hs2]; rfl
  have r2 := runAll_shiftIn s2 true h2
  obtain ⟨ls, p2, e2⟩ := byteIn_line s2 true
  have c2q := fun hq => cellsIn_quiet bitIndices s2.openedIn true hq
  have c2p := byteIn_port s2 true
  have c2d := byteIn_chip_data s2
  have c2r := byteIn_read s2
  rw [e2] at c2q c2d c2r c2p
  rw [e2] at r2
  have hrun : runAll (readFrame a x) s = .done (x.keepIn
      ({ s2 with acc := s2.byteIn true, i := 7, dio := Pin.input, dioIn := ls, clk := Pin.driving false, phase := s2.phase.after .clk true, chip := p2, trace := (byteInEvents (s2.byteIn true)).reverse ++ s2.trace, events := s2.events + 25, upc := s2.upc + 25 } : State).deselected) := by
    rw [readFrame, List.append_assoc, List.append_assoc, List.singleton_append, runAll, perform_select s h]
    simp only []
    rw [runAll_append_done r1, runAll_append_done r2]
    simp only [runAll]
    rw [perform_endFrame _ _ (by subst hs2; exact h.faults) (by subst hs2; rfl)]
  have hport : s2.portByte (s2.events + 1) = s.portByte (s.events + 27) := by
    simp only [State.portByte, hin, hev]
  rw [hrun]
  by_cases hk : s.chip.kind = .external
  · have q1 : s2.chip = s.chip := by simpa [State.selected, State.openedOut, hk] using c1q
    have q2 : p2 = s.chip := by simpa [State.openedIn, q1, hk] using c2q
    obtain ⟨b1, b2⟩ := c2p (.inl (by rw [q1]; exact hk))
    have b1' : s2.byteIn true = s.frameByte a := by
      rw [b1, hport]; simp [State.frameByte, hk]
    have b2' : ls = s.frameRest a := by rw [show ls = _ from b2, hin]; simp [State.frameRest, hk]
    refine ⟨p2, ?_, by simpa only [Chip.AfterRead, hk, if_true] using q2⟩
    rw [b1', b2']
    generalize s.frameByte a = r
    generalize s.frameRest a = ls'
    subst hs2
    simp [State.deselected, q2, hk, readFrameEvents, State.selected]
  · have hsel : s.selected.chip = s.chip.opened s.cfg s.events := by simp [State.selected, hk]
    have hcfg : s2.cfg = s.cfg := by rw [← hs2]; rfl
    have k0 := Chip.opened_kind s.cfg s.events s.chip
    have q1 : s2.chip = (s.chip.opened s.cfg s.events).addressed s.cfg (s.events + 25) a := by
      have := c1k (by rw [hsel, k0]; exact hk) (by rw [hsel]; rfl) (by rw [hsel]; rfl) (by rw [hsel]; rfl)
      rw [hsel] at this
      exact this
    have finish : ∀ q : Chip, p2.kind ≠ .external → { p2 with drv := none } = q → s2.byteIn true = s.frameByte a →
        ls = s.frameRest a → s.chip.AfterRead s.cfg s.events a q → ∃ p, Performed.done (x.keepIn
      ({ s2 with acc := s2.byteIn true, i := 7, dio := Pin.input, dioIn := ls, clk := Pin.driving false, phase := s2.phase.after .clk true, chip := p2, trace := (byteInEvents (s2.byteIn true)).reverse ++ s2.trace, events := s2.events + 25, upc := s2.upc + 25 } : State).deselected) = .done (x.keepIn
      { s with sh := a
               acc := s.frameByte a
               i := 7
               dio := Pin.input
               dioIn := s.frameRest a
               clk := Pin.driving false
               cs := Pin.driving false
               phase := .idle
               chip := p
               trace := (readFrameEvents a (s.frameByte a)).reverse ++ s.trace
               events := s.events + 52
               upc := s.upc + 52 }) ∧ s.chip.AfterRead s.cfg s.events a p := by
      intro q hk2 hq hb hl ha
      refine ⟨q, ?_, ha⟩
      rw [hb, hl]
      generalize s.frameByte a = r
      generalize s.frameRest a = ls'
      subst hq hs2
      simp [State.deselected, hk2, readFrameEvents, State.selected]
    by_cases hr : isReadAddr a = true
    · have e : s2.chip = { s.chip.opened s.cfg s.events with
          n := 8
          ab := a
          ob := s.chip.presented s.cfg s.events a
          drv := some ((s.chip.presented s.cfg s.events a).getLsbD 0) } := by
        rw [q1]; simp [Chip.addressed, Chip.clkFall, hr, Chip.presented]
      obtain ⟨f1, f2, f3⟩ := c2r (by rw [e]; exact (k0 ▸ hk)) (by rw [e]) (by rw [e]; exact hr) (by rw [e])
      refine finish _ ?_ rfl ?_ ?_ ?_
      · have : p2.kind = s2.chip.kind := by rw [show p2 = _ from f1]
        rw [this, e]; exact (k0 ▸ hk)
      · rw [f2, e]; simp [State.frameByte, hk, hr]
      · rw [show ls = _ from f3, hin]; simp [State.frameRest, hk, hr]
      · simp only [Chip.AfterRead, hk, if_false, hr, if_true]
        rw [show p2 = _ from f1, e]; rfl
    · have hr' : isReadAddr a = false := by simpa using hr
      have e : s2.chip = { s.chip.opened s.cfg s.events with n := 8, ab := a } := by
        rw [q1]; simp [Chip.addressed, Chip.clkFall, hr]
      obtain ⟨v, f⟩ := c2d (by rw [e]; exact (k0 ▸ hk)) (by rw [e]) (by rw [e]; exact hr')
      obtain ⟨b1, b2⟩ := c2p (.inr ⟨by rw [e]; rfl, .inr ⟨by rw [e]; exact hr', by rw [e]⟩⟩)
      have f' : p2 = ({ s.chip.opened s.cfg s.events with n := 16, ab := a, db := v } : Chip).commit s.cfg a v := by
        rw [e, hcfg] at f; exact f
      have hc := Chip.commit_frame s.cfg a v { s.chip.opened s.cfg s.events with n := 16, ab := a, db := v }
      refine finish _ ?_ rfl ?_ ?_ ?_
      · rw [f', hc.1]; exact (k0 ▸ hk)
      · rw [b1, hport]; simp [State.frameByte, hr']
      · rw [show ls = _ from b2, hin]; simp [State.frameRest, hr']
      · simp only [Chip.AfterRead, hk, if_false, hr', Bool.false_eq_true]
        refine ⟨v, ?_⟩
        rw [f']
        have hd := hc.2.2.2.2.2
        generalize Chip.commit s.cfg a v { s.chip.opened s.cfg s.events with n := 16, ab := a, db := v } = z at *
        cases z
        simp only [Chip.mk.injEq, true_and]
        exact hd.symm

end Sys2Proof.Machine
end

