-- ==== Sys2Proof/Laws/Operations.lean ====
section
/-! SUPPORT. One lemma per sequence of frames, and how a run of line events becomes the answer of an operation
(41_register_access.md R132; 10_state.md R25). -/

namespace Sys2Proof.Machine

/-! ### From a run to an answer -/

theorem operate_done {s u : State} {b : Bool} {w : Command} {ops : List Micro} {result : State → Payload}
    (h : s.refusal b = none) (hr : runAll ops (s.accept w) = .done u) :
    operate b w ops result s = .next (u.respond .ok (result u)) := by
  simp only [operate, h, finish, hr]

theorem State.Accepting.refusal {s : State} (h : s.Accepting) (b : Bool) : s.refusal b = none := by
  simp [State.refusal, State.initialised, h.1, h.2.1, h.2.2]

theorem State.Idle.accepting {s : State} (h : s.Idle) : s.Accepting := ⟨h.1, h.2.1, h.2.2.1⟩

theorem State.refusal_false {s : State} (h : s.busy = false) : s.refusal false = none := by
  simp [State.refusal, h]

theorem State.Ready.framing {s : State} (h : s.Ready) (w : Command) : (s.accept w).Framing :=
  ⟨h.2, h.1.2.1, h.1.2.2.2.1, h.1.2.2.1, h.1.2.2.2.2⟩

/-! ### Frames, in the terms claims use -/

theorem Chip.wroteFrame_kind (c : Cfg) (ev : Nat) (a b : Byte) (p : Chip) :
    (p.wroteFrame c ev a b).kind = p.kind := by
  simp only [Chip.wroteFrame]
  split
  · exact Chip.opened_kind c ev p
  · exact ((Chip.commit_frame c a b _).1).trans (Chip.opened_kind c ev p)

/-- What a write frame of `b` at `a` makes of the peripheral, whatever its kind. -/
def State.frameWrote (s : State) (a b : Byte) : Chip :=
  if s.chip.kind = .external then s.chip else s.chip.wroteFrame s.cfg s.events a b

theorem State.frameWrote_external {s : State} (h : s.chip.kind = .external) (a b : Byte) :
    s.frameWrote a b = s.chip := by simp [State.frameWrote, h]

theorem State.frameWrote_kind (s : State) (a b : Byte) : (s.frameWrote a b).kind = s.chip.kind := by
  simp only [State.frameWrote]; split
  · rfl
  · exact Chip.wroteFrame_kind ..

/-- A write frame as one update. -/
theorem runAll_writeFrame_eq (s : State) (h : s.Framing) (a : Byte) (src : ByteSource) (x : AtEnd) :
    runAll (writeFrame a src x) s = .done (x.keepIn
      { s.afterWriteFrame a (src.value s) (s.frameWrote a (src.value s)) with upc := s.upc + 52 }) := by
  obtain ⟨p, hr, he, hn⟩ := runAll_writeFrame s h a src x
  have hp : p = s.frameWrote a (src.value s) := by
    by_cases hk : s.chip.kind = .external
    · rw [he hk, State.frameWrote_external hk]
    · rw [hn hk]; simp [State.frameWrote, hk]
  rw [hr, hp]; rfl

/-- A read frame as one update. -/
theorem runAll_readFrame_eq (s : State) (h : s.Framing) (a : Byte) (x : AtEnd) :
    ∃ p, runAll (readFrame a x) s = .done (x.keepIn
      { s.afterReadFrame a (s.frameByte a) (s.frameRest a) p with upc := s.upc + 52 }) ∧
      s.chip.AfterRead s.cfg s.events a p := runAll_readFrame s h a x

theorem State.frameByte_external {s : State} (h : s.chip.kind = .external) (a : Byte) :
    s.frameByte a = s.portByte (s.events + 27) := by simp [State.frameByte, h]

theorem State.frameRest_external {s : State} (h : s.chip.kind = .external) (a : Byte) :
    s.frameRest a = s.dioIn.drop 8 := by simp [State.frameRest, h]

theorem Chip.AfterRead.external {c : Cfg} {ev : Nat} {a : Byte} {p q : Chip} (h : p.AfterRead c ev a q)
    (hk : p.kind = .external) : q = p := by simpa [Chip.AfterRead, hk] using h

theorem Chip.AfterRead.kind {c : Cfg} {ev : Nat} {a : Byte} {p q : Chip} (h : p.AfterRead c ev a q) :
    q.kind = p.kind := by
  simp only [Chip.AfterRead] at h
  split at h
  · rw [h]
  · split at h
    · rw [h]; exact Chip.opened_kind ..
    · obtain ⟨v, h⟩ := h
      rw [h]; exact ((Chip.commit_frame c a v _).1).trans (Chip.opened_kind c ev p)

/-! ### The guarded write -/

/-- What a guarded write of `b` at `a` makes of the peripheral (R132). -/
def State.guardWrote (s : State) (a b : Byte) : Chip :=
  if s.chip.kind = .external then s.chip
  else ((s.chip.wroteFrame s.cfg s.events s.cfg.addrWp s.cfg.wpOff).wroteFrame s.cfg (s.events + 52) a b).wroteFrame
    s.cfg (s.events + 104) s.cfg.addrWp s.cfg.wpOn

theorem State.guardWrote_external {s : State} (h : s.chip.kind = .external) (a b : Byte) :
    s.guardWrote a b = s.chip := by simp [State.guardWrote, h]

theorem State.guardWrote_kind (s : State) (a b : Byte) : (s.guardWrote a b).kind = s.chip.kind := by
  simp only [State.guardWrote]; split
  · rfl
  · simp only [Chip.wroteFrame_kind]

theorem ByteSource.value_of {s u : State} (src : ByteSource) (hc : u.cfg = s.cfg) (ht : u.t = s.t) :
    src.value u = src.value s := by cases src <;> simp [ByteSource.value, hc, ht]

/-- A guarded write as one update (R132). -/
theorem runAll_guardedWrite (s : State) (h : s.Framing) (a : Byte) (src : ByteSource) (x : AtEnd) :
    runAll (guardedWrite s.cfg a src x) s = .done (x.keepIn
      { s.afterGuardedWrite a (src.value s) (s.guardWrote a (src.value s)) with upc := s.upc + 156 }) := by
  have r1 := runAll_writeFrame_eq s h s.cfg.addrWp (.lit s.cfg.wpOff) .nothing
  generalize hu : AtEnd.keepIn ({ s.afterWriteFrame s.cfg.addrWp (ByteSource.value s (.lit s.cfg.wpOff))
    (s.frameWrote s.cfg.addrWp (ByteSource.value s (.lit s.cfg.wpOff))) with upc := s.upc + 52 } : State) .nothing = u at r1
  have hu1 : u.Framing := by subst hu; exact ⟨h.faults, rfl, rfl, rfl, rfl⟩
  have hv : src.value u = src.value s := by subst hu; exact ByteSource.value_of src rfl rfl
  have r2 := runAll_writeFrame_eq u hu1 a src .nothing
  rw [hv] at r2
  generalize hw : AtEnd.keepIn ({ u.afterWriteFrame a (src.value s) (u.frameWrote a (src.value s)) with
    upc := u.upc + 52 } : State) .nothing = w at r2
  have hw1 : w.Framing := by subst hw; exact ⟨hu1.faults, rfl, rfl, rfl, rfl⟩
  have r3 := runAll_writeFrame_eq w hw1 s.cfg.addrWp (.lit s.cfg.wpOn) x
  rw [guardedWrite, List.append_assoc, runAll_append_done r1, runAll_append_done r2, r3]
  have hp : w.frameWrote s.cfg.addrWp s.cfg.wpOn = s.guardWrote a (src.value s) := by
    subst hw hu
    simp only [AtEnd.keepIn, State.afterWriteFrame, State.frameWrote, State.guardWrote, ByteSource.value]
    by_cases hk : s.chip.kind = .external <;> simp [hk, Chip.wroteFrame_kind]
  simp only [ByteSource.value, hp]
  subst hw hu
  congr 2

end Sys2Proof.Machine
end

