-- ==== Sys2Proof/Laws/Sequencer.lean ====
section
/-! SUPPORT. What every line event of every operation keeps, the shape of event lists, the line contract, and how the
event view follows a run (10_state.md R24, R27; 30_encoding.md R102; 60_exceptions.md R193). -/

namespace Sys2Proof.Machine

/-! ### One line event -/

/-- What no line event touches. -/
structure State.Kept (s t : State) : Prop where
  cfg : t.cfg = s.cfg
  c : t.c = s.c
  busy : t.busy = s.busy
  cmd : t.cmd = s.cmd
  resetPin : t.resetPin = s.resetPin
  script : t.script = s.script
  rsp : t.rsp = s.rsp
  rspValid : t.rspValid = s.rspValid
  stepping : t.stepping = s.stepping
  kind : t.chip.kind = s.chip.kind

theorem State.Kept.refl (s : State) : s.Kept s := ⟨rfl, rfl, rfl, rfl, rfl, rfl, rfl, rfl, rfl, rfl⟩

theorem State.Kept.trans {s t u : State} (h : s.Kept t) (h' : t.Kept u) : s.Kept u :=
  ⟨h'.cfg.trans h.cfg, h'.c.trans h.c, h'.busy.trans h.busy, h'.cmd.trans h.cmd, h'.resetPin.trans h.resetPin,
    h'.script.trans h.script, h'.rsp.trans h.rsp, h'.rspValid.trans h.rspValid, h'.stepping.trans h.stepping,
    h'.kind.trans h.kind⟩

/-- The shape of the event of a micro-operation (R102). -/
def Micro.shape : Micro → Event
  | .dir l d => .dir l d
  | .set .dio _ => .set .dio false
  | .set l b => .set l b
  | .beginOut _ => .dir .dio .out
  | .putBit _ => .set .dio false
  | .beginIn => .dir .dio .inp
  | .getBit _ => .get .dio false
  | .endFrame _ => .set .cs false

theorem Chip.tick_kind (c : Cfg) (ev : Nat) (p : Chip) : (p.tick c ev).kind = p.kind := rfl

theorem State.chipAfter_kind (s : State) (l : Line) (p : Pin) : (s.chipAfter l p).kind = s.chip.kind := by
  have hs : ∀ (c : Cfg) (ev : Nat) (q : Chip), (q.sinceLastFrame c ev).kind = q.kind := by
    intro c ev q
    simp only [Chip.sinceLastFrame]
    split
    · split <;> rfl
    · rfl
  have hc : ∀ (c : Cfg) (ev : Nat) (b : Bool) (q : Chip), (q.csRise c ev b).kind = q.kind := by
    intro c ev b q
    simp only [Chip.csRise]
    split <;> exact hs c ev q
  simp only [State.chipAfter]
  cases l <;> (split <;> first | rfl | skip) <;> (repeat' split) <;>
    first | rfl | simp only [Chip.clkRise_kind, Chip.clkFall_kind, hc]

theorem State.moveLine_kept (s : State) (l : Line) (p : Pin) : s.Kept (s.moveLine l p) := by
  have h : (s.moveLine l p).chip.kind = s.chip.kind := s.chipAfter_kind l p
  cases l <;> exact ⟨rfl, rfl, rfl, rfl, rfl, rfl, rfl, rfl, rfl, h⟩

/-- What one line event leaves and counts. -/
structure State.Stepped (m : Micro) (s t : State) : Prop where
  kept : s.Kept t
  upc : t.upc = s.upc + 1
  events : t.events = s.events + 1
  trace : ∃ e, t.trace = e :: s.trace ∧ e.shape = m.shape
  journal : ∃ ms, t.journal = ms ++ s.journal

theorem driveLine_stepped {s t : State} {l : Line} {b : Bool} (h : driveLine s l b = .done t) :
    (s.pin l).dir = .out ∧ t = (s.applySet l b).advance := by
  simp only [driveLine] at h
  split at h
  · exact ⟨‹_›, (Performed.done.inj h).symm⟩
  · cases h

theorem State.applyDir_kept (s : State) (l : Line) (d : Dir) : s.Kept (s.applyDir l d).advance := by
  have := s.moveLine_kept l ((s.pin l).turn d s.events)
  exact ⟨this.1, this.2, this.3, this.4, this.5, this.6, this.7, this.8, this.9, this.10⟩

theorem State.applySet_kept (s : State) (l : Line) (b : Bool) : s.Kept (s.applySet l b).advance := by
  have := s.moveLine_kept l ((s.pin l).drive b)
  exact ⟨this.1, this.2, this.3, this.4, this.5, this.6, this.7, this.8, this.9, this.10⟩

theorem performOk_stepped {m : Micro} {s t : State} (h : performOk m s = .done t) : State.Stepped m s t := by
  cases m with
  | dir l d =>
    cases Performed.done.inj h
    exact ⟨s.applyDir_kept l d, by cases l <;> rfl, by cases l <;> rfl, ⟨.dir l d, by cases l <;> rfl, rfl⟩,
      ⟨[], by cases l <;> rfl⟩⟩
  | set l b =>
    obtain ⟨-, rfl⟩ := driveLine_stepped h
    exact ⟨s.applySet_kept l b, by cases l <;> rfl, by cases l <;> rfl,
      ⟨.set l b, by cases l <;> rfl, by cases l <;> rfl⟩, ⟨[], by cases l <;> rfl⟩⟩
  | beginOut src =>
    cases Performed.done.inj h
    have k := State.applyDir_kept ({ s with sh := src.value s } : State) .dio .out
    exact ⟨⟨k.1, k.2, k.3, k.4, k.5, k.6, k.7, k.8, k.9, k.10⟩, rfl, rfl, ⟨_, rfl, rfl⟩, ⟨[], rfl⟩⟩
  | putBit k =>
    obtain ⟨-, rfl⟩ := driveLine_stepped h
    have k := State.applySet_kept ({ s with i := k } : State) .dio (s.sh.getLsbD k.val)
    exact ⟨⟨k.1, k.2, k.3, k.4, k.5, k.6, k.7, k.8, k.9, k.10⟩, rfl, rfl, ⟨_, rfl, rfl⟩, ⟨[], rfl⟩⟩
  | beginIn =>
    cases Performed.done.inj h
    have k := State.applyDir_kept ({ s with acc := 0 } : State) .dio .inp
    exact ⟨⟨k.1, k.2, k.3, k.4, k.5, k.6, k.7, k.8, k.9, k.10⟩, rfl, rfl, ⟨_, rfl, rfl⟩, ⟨[], rfl⟩⟩
  | getBit k =>
    simp only [performOk, sampleLine] at h
    split at h
    · cases Performed.done.inj h
      exact ⟨⟨rfl, rfl, rfl, rfl, rfl, rfl, rfl, rfl, rfl, rfl⟩, rfl, rfl, ⟨_, rfl, rfl⟩, ⟨[], rfl⟩⟩
    · cases h
  | endFrame x =>
    simp only [performOk] at h
    split at h
    · rename_i s' hs
      obtain ⟨-, rfl⟩ := driveLine_stepped hs
      cases Performed.done.inj h
      have k := s.applySet_kept .cs false
      cases x <;>
        exact ⟨⟨k.1, k.2, k.3, k.4, k.5, k.6, k.7, k.8, k.9, k.10⟩, rfl, rfl, ⟨_, rfl, rfl⟩,
          by first | exact ⟨[], rfl⟩ | exact ⟨[_], rfl⟩⟩
    · rename_i hn
      exact absurd h (hn _)

theorem perform_stepped {m : Micro} {s t : State} (h : perform m s = .done t) : State.Stepped m s t := by
  simp only [perform] at h
  split at h
  · split at h
    · cases h
    · obtain ⟨⟨k1, k2, k3, k4, k5, k6, k7, k8, k9, k10⟩, h2, h3, h4, h5⟩ := performOk_stepped h
      exact ⟨⟨k1, k2, k3, k4, k5, k6, k7, k8, k9, k10⟩, h2, h3, h4, h5⟩
  · exact performOk_stepped h

/-- A failed event leaves all but the counts (R193), and only if lines may fail. -/
theorem perform_failed {m : Micro} {s t : State} (h : perform m s = .failed t) :
    s.cfg.lineFaults = true ∧ t = s.passFailed := by
  have hd : ∀ (u : State) (l : Line) (b : Bool) (v : State), driveLine u l b ≠ .failed v := by
    intro u l b v
    simp only [driveLine]; split <;> simp
  have hok : ∀ u v : State, performOk m u ≠ .failed v := by
    intro u v hu
    cases m with
    | set l b => exact hd _ _ _ _ hu
    | putBit k => exact hd _ _ _ _ hu
    | dir l d => cases hu
    | beginOut src => cases hu
    | beginIn => cases hu
    | getBit k => simp only [performOk, sampleLine] at hu; split at hu <;> cases hu
    | endFrame x =>
      simp only [performOk] at hu
      split at hu
      · cases hu
      · exact hd _ _ _ _ hu
  simp only [perform] at h
  split at h
  · split at h
    · cases h; exact ⟨‹_›, rfl⟩
    · exact absurd h (hok _ _)
  · exact absurd h (hok _ _)

/-! ### Runs -/

/-- What a run leaves and counts. -/
structure State.Followed (ms : List Micro) (s t : State) : Prop where
  kept : s.Kept t
  upc : t.upc = s.upc + ms.length
  events : t.events = s.events + ms.length
  trace : ∃ es : List Event, t.trace = es.reverse ++ s.trace ∧ es.map Event.shape = ms.map Micro.shape
  journal : ∃ js, t.journal = js ++ s.journal

theorem runAll_followed {ms : List Micro} {s t : State} (h : runAll ms s = .done t) : State.Followed ms s t := by
  induction ms generalizing s with
  | nil => cases h; exact ⟨.refl _, rfl, rfl, ⟨[], rfl, rfl⟩, ⟨[], rfl⟩⟩
  | cons m ms ih =>
    simp only [runAll] at h
    split at h
    · rename_i s' hs
      have a := perform_stepped hs
      have b := ih h
      obtain ⟨e, he, hsh⟩ := a.trace
      obtain ⟨es, hes, hmap⟩ := b.trace
      obtain ⟨j1, hj1⟩ := a.journal
      obtain ⟨j2, hj2⟩ := b.journal
      refine ⟨a.kept.trans b.kept, ?_, ?_, ⟨e :: es, ?_, ?_⟩, ⟨j2 ++ j1, ?_⟩⟩
      · rw [b.upc, a.upc, List.length_cons]; omega
      · rw [b.events, a.events, List.length_cons]; omega
      · rw [hes, he]; simp
      · simp [hsh, hmap]
      · rw [hj2, hj1, List.append_assoc]
    · rename_i hn
      exact absurd h (hn _)

/-! ### The line contract (R8, R10, R20) -/

/-- The directions of the three lines. -/
structure Dirs where
  clk : Dir
  dio : Dir
  cs : Dir
  deriving DecidableEq

def State.dirs (s : State) : Dirs := ⟨s.clk.dir, s.dio.dir, s.cs.dir⟩

def Dirs.of (d : Dirs) : Line → Dir
  | .clk => d.clk
  | .dio => d.dio
  | .cs => d.cs

def Dirs.put (d : Dirs) (l : Line) (x : Dir) : Dirs :=
  match l with
  | .clk => { d with clk := x }
  | .dio => { d with dio := x }
  | .cs => { d with cs := x }

/-- The directions after a micro-operation, if it keeps the line contract. -/
def Dirs.after (d : Dirs) : Micro → Option Dirs
  | .dir l x => some (d.put l x)
  | .set l _ => if d.of l = .out then some d else none
  | .beginOut _ => some (d.put .dio .out)
  | .putBit _ => if d.dio = .out then some d else none
  | .beginIn => some (d.put .dio .inp)
  | .getBit _ => if d.dio = .inp then some d else none
  | .endFrame _ => if d.cs = .out then some d else none

/-- The directions after a run, if all of it keeps the line contract. -/
def Dirs.through : List Micro → Dirs → Option Dirs
  | [], d => some d
  | m :: ms, d =>
    match d.after m with
    | some d' => Dirs.through ms d'
    | none => none

theorem Dirs.through_append (xs ys : List Micro) (d : Dirs) :
    Dirs.through (xs ++ ys) d = match Dirs.through xs d with
      | some d' => Dirs.through ys d'
      | none => none := by
  induction xs generalizing d with
  | nil => rfl
  | cons m ms ih =>
    simp only [List.cons_append, Dirs.through]
    cases d.after m <;> simp [ih]

theorem Pin.turn_dir (p : Pin) (d : Dir) (ev : Nat) : (p.turn d ev).dir = d := by
  cases d <;> simp only [Pin.turn, Pin.floating]
  split
  · assumption
  · rfl

theorem State.applyDir_dirs (s : State) (l : Line) (d : Dir) : (s.applyDir l d).dirs = s.dirs.put l d := by
  cases l <;>
    simp [State.dirs, Dirs.put, State.applyDir, State.moveLine, State.setPin, State.stamp, State.pin, Pin.turn_dir]

theorem State.applySet_dirs (s : State) (l : Line) (b : Bool) : (s.applySet l b).dirs = s.dirs := by
  cases l <;> rfl

theorem performOk_contract {m : Micro} {s : State} {d : Dirs} (h : s.dirs.after m = some d) :
    ∃ t, performOk m s = .done t ∧ t.dirs = d := by
  have hset : ∀ (u : State) (l : Line) (b : Bool), (u.pin l).dir = .out →
      driveLine u l b = .done (u.applySet l b).advance := fun u l b h => driveLine_of_out b h
  cases m with
  | dir l x => exact ⟨_, rfl, (State.applyDir_dirs s l x).trans (Option.some.inj h)⟩
  | set l b =>
    simp only [Dirs.after] at h
    split at h
    · rename_i ho
      refine ⟨_, hset s l b (by cases l <;> exact ho), ?_⟩
      rw [← Option.some.inj h]; cases l <;> rfl
    · cases h
  | beginOut src =>
    exact ⟨_, rfl, (State.applyDir_dirs { s with sh := src.value s } .dio .out).trans (Option.some.inj h)⟩
  | putBit k =>
    simp only [Dirs.after] at h
    split at h
    · rename_i ho
      exact ⟨_, hset { s with i := k } .dio _ ho, Option.some.inj h⟩
    · cases h
  | beginIn => exact ⟨_, rfl, (State.applyDir_dirs { s with acc := 0 } .dio .inp).trans (Option.some.inj h)⟩
  | getBit k =>
    simp only [Dirs.after] at h
    split at h
    · rename_i ho
      have : s.dio.dir = .inp := ho
      exact ⟨(s.applyGet k).advance, by simp only [performOk, sampleLine, this, if_true], Option.some.inj h⟩
    · cases h
  | endFrame x =>
    simp only [Dirs.after] at h
    split at h
    · rename_i ho
      have := hset s .cs false ho
      refine ⟨_, by rw [performOk, this], ?_⟩
      rw [← Option.some.inj h]
      cases x <;> rfl
    · cases h

theorem perform_contract {m : Micro} {s : State} {d : Dirs} (h : s.dirs.after m = some d) :
    (∃ t, perform m s = .done t ∧ t.dirs = d) ∨ s.cfg.lineFaults = true ∧ perform m s = .failed s.passFailed := by
  simp only [perform]
  split
  · split
    · exact .inr ⟨‹_›, rfl⟩
    · exact .inl (performOk_contract h)
  · exact .inl (performOk_contract h)

/-- A run that keeps the line contract is never stuck: it ends, or an event fails. -/
theorem runAll_contract {ms : List Micro} {s : State} {d : Dirs} (h : Dirs.through ms s.dirs = some d) :
    (∃ t, runAll ms s = .done t ∧ t.dirs = d) ∨ s.cfg.lineFaults = true ∧ ∃ t, runAll ms s = .failed t := by
  induction ms generalizing s with
  | nil => exact .inl ⟨s, rfl, Option.some.inj h⟩
  | cons m ms ih =>
    simp only [Dirs.through] at h
    cases h1 : s.dirs.after m with
    | none => simp [h1] at h
    | some d1 =>
    have h2 : Dirs.through ms d1 = some d := by simpa [h1] using h
    rcases perform_contract h1 with ⟨t, ht, htd⟩ | ⟨hf, ht⟩
    · simp only [runAll, ht]
      rcases ih (s := t) (by rw [htd]; exact h2) with h | ⟨hf, h⟩
      · exact .inl h
      · exact .inr ⟨(perform_stepped ht).kept.cfg ▸ hf, h⟩
    · exact .inr ⟨hf, s.passFailed, by simp only [runAll, ht]⟩

/-! ### The operations keep the line contract -/

theorem through_shiftOut (src : ByteSource) (d c : Dir) :
    Dirs.through (shiftOut src) ⟨.out, d, c⟩ = some ⟨.out, .out, c⟩ := by
  simp [shiftOut, bitIndices, pulse, Dirs.through, Dirs.after, Dirs.put, Dirs.of]

theorem through_shiftIn (d c : Dir) : Dirs.through shiftIn ⟨.out, d, c⟩ = some ⟨.out, .inp, c⟩ := by
  simp [shiftIn, bitIndices, pulse, Dirs.through, Dirs.after, Dirs.put, Dirs.of]

theorem through_readFrame (a : Byte) (x : AtEnd) (d : Dir) :
    Dirs.through (readFrame a x) ⟨.out, d, .out⟩ = some ⟨.out, .inp, .out⟩ := by
  simp [readFrame, Dirs.through, Dirs.through_append, through_shiftOut, through_shiftIn, Dirs.after, Dirs.of]

theorem through_writeFrame (a : Byte) (src : ByteSource) (x : AtEnd) (d : Dir) :
    Dirs.through (writeFrame a src x) ⟨.out, d, .out⟩ = some ⟨.out, .out, .out⟩ := by
  simp [writeFrame, Dirs.through, Dirs.through_append, through_shiftOut, Dirs.after, Dirs.of]

theorem through_guardedWrite (c : Cfg) (a : Byte) (src : ByteSource) (x : AtEnd) (d : Dir) :
    Dirs.through (guardedWrite c a src x) ⟨.out, d, .out⟩ = some ⟨.out, .out, .out⟩ := by
  simp [guardedWrite, Dirs.through_append, through_writeFrame]

/-- Every operation but `INIT` keeps the line contract once `CLK` and `CS` are outputs, and leaves them so. -/
theorem through_microOps (c : Cfg) (op : Instr) (hi : op ≠ .init) (d : Dir) :
    ∃ d', Dirs.through (microOps c op) ⟨.out, d, .out⟩ = some ⟨.out, d', .out⟩ := by
  cases op <;>
    simp only [microOps, writeByteOps, readByteOps, getRegOps, setRegOps, wpWriteOps, startOps, stopOps, dec2bcdOps,
      bcd2decOps, getSecondOps, getMinuteOps, getHourOps, getDayOps, getMonthOps, getWeekdayOps, getYearOps,
      getDatetimeOps, setSecondOps, setMinuteOps, setHourOps, setDayOps, setMonthOps, setWeekdayOps, setYearOps,
      setDatetimeOps, readRamOps, writeRamOps, fieldRead, fieldWrite, snapshotOrder, List.flatMap_cons,
      List.flatMap_nil, List.append_nil, Dirs.through_append, through_readFrame, through_writeFrame,
      through_guardedWrite, Dirs.through]
  case init => exact absurd rfl hi
  case writeByte b => exact ⟨.out, through_shiftOut ..⟩
  case readByte => exact ⟨.inp, through_shiftIn ..⟩
  all_goals exact ⟨_, rfl⟩

/-- `INIT` keeps the line contract from any directions, and makes `CLK` and `CS` outputs. -/
theorem through_initOps (c : Cfg) (d : Dirs) :
    Dirs.through (microOps c .init) d = some ⟨.out, d.dio, .out⟩ := by cases d; rfl

/-! ### Meanings and micro-operations -/

/-- Every meaning is the run of its micro-operations. -/
theorem exec_eq_operate (i : Instr) (s : State) :
    exec i s = operate (needsInit i) (encode i) (microOps s.cfg i) (resultOf i) s := by cases i <;> rfl

theorem needsInit_eq (i : Instr) : needsInit i = decide (i ≠ .init) := by cases i <;> rfl

/-- The list of an operation is as long as R240 says. -/
theorem microOps_length (c : Cfg) (i : Instr) : (microOps c i).length = eventCount i := by
  have hr : ∀ a x, (readFrame a x).length = 52 := fun _ _ => rfl
  have hw : ∀ a src x, (writeFrame a src x).length = 52 := fun _ _ _ => rfl
  have hg : ∀ a src x, (guardedWrite c a src x).length = 156 := fun _ _ _ => rfl
  cases i <;>
    simp only [microOps, startOps, stopOps, getDatetimeOps, setDatetimeOps, fieldRead, fieldWrite, snapshotOrder,
      List.flatMap_cons, List.flatMap_nil, List.length_append, List.length_nil, hr, hg, eventCount] <;> rfl

/-- How an accepted operation ends. -/
theorem exec_ends (i : Instr) (s : State) (hb : s.busy = false)
    (hi : i ≠ .init → s.clk.dir = .out ∧ s.cs.dir = .out) :
    (∃ u d, runAll (microOps s.cfg i) (s.accept (encode i)) = .done u ∧ u.dirs = ⟨.out, d, .out⟩ ∧
      exec i s = .next (u.respond .ok (resultOf i u))) ∨
    (s.cfg.lineFaults = true ∧ ∃ u, runAll (microOps s.cfg i) (s.accept (encode i)) = .failed u ∧
      exec i s = .next u.endLineFault) := by
  have hr : s.refusal (needsInit i) = none := by
    rw [needsInit_eq]
    by_cases h : i = .init
    · simp [State.refusal, hb, h]
    · simp [State.refusal, hb, State.initialised, hi h]
  have hd : ∃ d, Dirs.through (microOps s.cfg i) (s.accept (encode i)).dirs = some ⟨.out, d, .out⟩ := by
    by_cases h : i = .init
    · subst h; exact ⟨_, through_initOps _ _⟩
    · obtain ⟨d', h'⟩ := through_microOps s.cfg i h s.dio.dir
      refine ⟨d', ?_⟩
      rw [← h']
      show Dirs.through _ ⟨s.clk.dir, s.dio.dir, s.cs.dir⟩ = _
      rw [(hi h).1, (hi h).2]
  obtain ⟨d, hd⟩ := hd
  rw [exec_eq_operate]
  simp only [operate, hr, finish]
  rcases runAll_contract hd with ⟨u, hu, hud⟩ | ⟨hf, u, hu⟩
  · exact .inl ⟨u, d, hu, hud, by rw [hu]⟩
  · exact .inr ⟨hf, u, hu, by rw [hu]⟩

/-! ### The event view -/

/-- A run of a next step. -/
theorem core_run_step {s t : State} (n : Nat) (h : step s = .next t) :
    Host.Core.run Sys2Proof.core (n + 1) s = Host.Core.run Sys2Proof.core n t := by
  have h' : Sys2Proof.core.step s = .next t := h
  simp only [Host.Core.run, h']

/-- From inside an operation, one step for each event left and one for the response. -/
theorem core_run_sequence {op : Instr} (hlen : Nat) (s u : State) (hd : decode s.c = .ok op) (hb : s.busy = true)
    (hc : s.cmd = none) (hr : s.resetPin = false) (hn : (microOps s.cfg op).length = s.upc + hlen)
    (h : runAll ((microOps s.cfg op).drop s.upc) s = .done u) :
    Host.Core.run Sys2Proof.core (hlen + 1) s = .next (u.respond .ok (resultOf op u)) := by
  induction hlen generalizing s with
  | zero =>
    rw [List.drop_of_length_le (by omega)] at h
    have hg : (microOps s.cfg op)[s.upc]? = none := List.getElem?_eq_none (by omega)
    cases h
    refine core_run_step 0 ?_
    simp only [step, hr, hb, hc, sequence, hd, hg, Bool.false_eq_true, if_false, if_true]
  | succ n ih =>
    have hlt : s.upc < (microOps s.cfg op).length := by omega
    rw [List.drop_eq_getElem_cons hlt] at h
    simp only [runAll] at h
    split at h
    · rename_i s' hs
      have st := perform_stepped hs
      have k := st.kept
      have hstep : step s = .next s' := by
        simp only [step, hr, hb, hc, sequence, hd, List.getElem?_eq_getElem hlt, hs, Bool.false_eq_true, if_false,
          if_true]
      have := ih s' (k.c ▸ hd) (k.busy.trans hb) (k.cmd.trans hc) (k.resetPin.trans hr)
        (by rw [k.cfg, st.upc]; omega) (by rw [k.cfg, st.upc]; exact h)
      exact (core_run_step _ hstep).trans this
    · rename_i hn
      exact absurd h (hn _)

/-- From inside an operation, one step for each of its next events. -/
theorem core_run_events {op : Instr} (k : Nat) (s u : State) (hd : decode s.c = .ok op) (hb : s.busy = true)
    (hc : s.cmd = none) (hr : s.resetPin = false) (hn : s.upc + k ≤ (microOps s.cfg op).length)
    (h : runAll (((microOps s.cfg op).drop s.upc).take k) s = .done u) :
    Host.Core.run Sys2Proof.core k s = .next u := by
  induction k generalizing s with
  | zero => cases h; rfl
  | succ n ih =>
    have hlt : s.upc < (microOps s.cfg op).length := by omega
    rw [List.drop_eq_getElem_cons hlt, List.take_succ_cons] at h
    simp only [runAll] at h
    split at h
    · rename_i s' hs
      have st := perform_stepped hs
      have k := st.kept
      have hstep : step s = .next s' := by
        simp only [step, hr, hb, hc, sequence, hd, List.getElem?_eq_getElem hlt, hs, Bool.false_eq_true, if_false,
          if_true]
      exact (core_run_step _ hstep).trans (ih s' (k.c ▸ hd) (k.busy.trans hb) (k.cmd.trans hc) (k.resetPin.trans hr)
        (by rw [k.cfg, st.upc]; omega) (by rw [k.cfg, st.upc]; exact h))
    · rename_i hn
      exact absurd h (hn _)

end Sys2Proof.Machine
end

