-- ==== Sys2Proof/Laws/Faults.lean ====
section
/-! SUPPORT. A failing line event (60_exceptions.md R193, R197): no event reads which events fail, so a run ends at the
first that does and is otherwise the run without faults. -/

namespace Sys2Proof.Machine

/-- The machine with other line faults: whether lines may fail, and which of the next events do. -/
def State.withFaults (s : State) (b : Bool) (l : List Bool) : State :=
  { s with cfg := { s.cfg with lineFaults := b }, lineFail := l }

/-- What became of a line event, with the state seen through `f`. -/
def Performed.mapState (f : State → State) : Performed → Performed
  | .done s => .done (f s)
  | .failed s => .failed (f s)
  | .stuck e => .stuck e

/-! ### No line event reads them -/

theorem regAddr_faults (c : Cfg) (b : Bool) (r : Reg) :
    regAddr { c with lineFaults := b } r = regAddr c r := by cases r <;> rfl

theorem decodeAddr_faults (c : Cfg) (b : Bool) (a : Byte) :
    decodeAddr { c with lineFaults := b } a = decodeAddr c a := by
  have : regAddr { c with lineFaults := b } = regAddr c := funext (regAddr_faults c b)
  simp only [decodeAddr, regAt, this]; rfl

theorem Chip.cell_faults (c : Cfg) (b : Bool) (p : Chip) (r : Reg) :
    p.cell { c with lineFaults := b } r = p.cell c r := by
  simp only [Chip.cell, regAddr_faults]

theorem Chip.setCell_faults (c : Cfg) (b : Bool) (p : Chip) (r : Reg) (x : Byte) :
    p.setCell { c with lineFaults := b } r x = p.setCell c r x := by
  simp only [Chip.setCell, regAddr_faults]

theorem Chip.commit_faults (c : Cfg) (b : Bool) (x y : Byte) (p : Chip) :
    p.commit { c with lineFaults := b } x y = p.commit c x y := by
  simp only [Chip.commit, decodeAddr_faults, Chip.cell_faults, Chip.setCell_faults]

theorem Chip.clkRise_faults (c : Cfg) (b d : Bool) (p : Chip) :
    p.clkRise { c with lineFaults := b } d = p.clkRise c d := by
  simp only [Chip.clkRise, Chip.commit_faults]

theorem Chip.clkFall_faults (c : Cfg) (b : Bool) (ev : Nat) (p : Chip) :
    p.clkFall { c with lineFaults := b } ev = p.clkFall c ev := by
  simp only [Chip.clkFall, Chip.fetch, decodeAddr_faults, Chip.cell_faults]

theorem Chip.csRise_faults (c : Cfg) (b : Bool) (ev : Nat) (l : Bool) (p : Chip) :
    p.csRise { c with lineFaults := b } ev l = p.csRise c ev l := by
  have : p.sinceLastFrame { c with lineFaults := b } ev = p.sinceLastFrame c ev := by
    simp only [Chip.sinceLastFrame, Chip.tick, Chip.cell_faults, Chip.setCell_faults, clockHalted]; rfl
  simp only [Chip.csRise, this]

theorem State.chipAfter_faults (s : State) (b : Bool) (l : List Bool) (ln : Line) (p : Pin) :
    (s.withFaults b l).chipAfter ln p = s.chipAfter ln p := by
  cases ln <;> simp only [State.withFaults, State.chipAfter, Chip.clkRise_faults, Chip.clkFall_faults,
    Chip.csRise_faults] <;> rfl

theorem State.applyDir_faults (s : State) (b : Bool) (l : List Bool) (ln : Line) (d : Dir) :
    (s.withFaults b l).applyDir ln d = (s.applyDir ln d).withFaults b l := by
  simp only [State.applyDir, State.moveLine, State.chipAfter_faults]
  cases ln <;> rfl

theorem State.applySet_faults (s : State) (b : Bool) (l : List Bool) (ln : Line) (d : Bool) :
    (s.withFaults b l).applySet ln d = (s.applySet ln d).withFaults b l := by
  simp only [State.applySet, State.moveLine, State.chipAfter_faults]
  cases ln <;> rfl

theorem driveLine_faults (s : State) (b : Bool) (l : List Bool) (ln : Line) (d : Bool) :
    driveLine (s.withFaults b l) ln d = (driveLine s ln d).mapState (·.withFaults b l) := by
  simp only [driveLine, State.applySet_faults, show (s.withFaults b l).pin ln = s.pin ln by cases ln <;> rfl]
  split <;> rfl

theorem ByteSource.value_faults (s : State) (b : Bool) (l : List Bool) (src : ByteSource) :
    src.value (s.withFaults b l) = src.value s := by cases src <;> rfl

theorem AtEnd.keepIn_faults (s : State) (b : Bool) (l : List Bool) (x : AtEnd) :
    x.keepIn (s.withFaults b l) = (x.keepIn s).withFaults b l := by
  cases x with
  | element f => simp only [AtEnd.keepIn, State.withFaults]; cases f <;> rfl
  | _ => rfl

theorem performOk_faults (s : State) (b : Bool) (l : List Bool) (m : Micro) :
    performOk m (s.withFaults b l) = (performOk m s).mapState (·.withFaults b l) := by
  cases m with
  | dir ln d => simp only [performOk, State.applyDir_faults]; rfl
  | set ln d => exact driveLine_faults ..
  | beginOut src =>
    simp only [performOk, ByteSource.value_faults]
    exact congrArg (fun u => Performed.done (State.advance u)) (State.applyDir_faults { s with sh := src.value s } b l .dio .out)
  | putBit k => exact driveLine_faults { s with i := k } b l .dio _
  | beginIn => exact congrArg (fun u => Performed.done (State.advance u)) (State.applyDir_faults { s with acc := 0 } b l .dio .inp)
  | getBit k =>
    simp only [performOk, sampleLine, show (s.withFaults b l).dio = s.dio from rfl]
    split <;> rfl
  | endFrame x =>
    simp only [performOk, driveLine_faults]
    cases driveLine s .cs false with
    | done u => simp only [Performed.mapState, AtEnd.keepIn_faults]
    | failed u => rfl
    | stuck e => rfl

theorem microOps_faults (c : Cfg) (b : Bool) (i : Instr) : microOps { c with lineFaults := b } i = microOps c i := by
  have hf : ∀ f, fieldAddr { c with lineFaults := b } f = fieldAddr c f := fun f => by cases f <;> rfl
  have hb : ∀ f v, fieldByte { c with lineFaults := b } f v = fieldByte c f v := fun f v => by cases f <;> rfl
  have hr : ∀ f v, fieldReduce { c with lineFaults := b } f v = fieldReduce c f v := fun f v => by cases f <;> rfl
  cases i <;> simp only [microOps, writeByteOps, readByteOps, getRegOps, setRegOps, wpWriteOps, startOps, stopOps, dec2bcdOps,
      bcd2decOps, getSecondOps, getMinuteOps, getHourOps, getDayOps, getMonthOps, getWeekdayOps, getYearOps,
      getDatetimeOps, setSecondOps, setMinuteOps, setHourOps, setDayOps, setMonthOps, setWeekdayOps, setYearOps,
      setDatetimeOps, readRamOps, writeRamOps, fieldRead, fieldWrite, hf, hb, hr] <;> rfl

/-- The first failing event ends a run where it stands (R193). -/
theorem runAll_fails (ms : List Micro) (s u : State) (k : Nat) (l rest : List Bool) (hk : k < ms.length)
    (h : runAll ms (s.withFaults false l) = .done (u.withFaults false l)) :
    ∃ v : State, runAll (ms.take k) (s.withFaults false l) = .done (v.withFaults false l) ∧
      runAll ms (s.withFaults true (List.replicate k false ++ true :: rest)) =
        .failed ((v.withFaults true (true :: rest)).passFailed) := by
  induction k generalizing ms s with
  | zero =>
    cases ms with
    | nil => simp at hk
    | cons m ms => exact ⟨s, rfl, rfl⟩
  | succ k ih =>
    cases ms with
    | nil => simp at hk
    | cons m ms =>
    have e1 : perform m (s.withFaults false l) = (performOk m s).mapState (·.withFaults false l) :=
      (perform_eq _ _ rfl).trans (performOk_faults ..)
    have e2 : perform m (s.withFaults true (List.replicate (k + 1) false ++ true :: rest)) =
        (performOk m s).mapState (·.withFaults true (List.replicate k false ++ true :: rest)) :=
      performOk_faults s true (List.replicate k false ++ true :: rest) m
    simp only [runAll, List.take_succ_cons, e1, e2] at h ⊢
    cases hm : performOk m s with
    | done w =>
      simp only [hm, Performed.mapState] at h ⊢
      exact ih ms w (by simpa using hk) h
    | failed w => simp [hm, Performed.mapState] at h
    | stuck e => simp [hm, Performed.mapState] at h

/-- The trace of the first `k` events of a run is the first `k` entries of its trace. -/
theorem runAll_take_trace {ms : List Micro} {s v u : State} {k : Nat} (h1 : runAll (ms.take k) s = .done v)
    (h : runAll ms s = .done u) (hk : k ≤ ms.length) :
    ∃ es : List Event, u.trace = es.reverse ++ s.trace ∧ v.trace = (es.take k).reverse ++ s.trace ∧
      es.length = ms.length := by
  rw [← List.take_append_drop k ms, runAll_append_done h1] at h
  obtain ⟨e1, a1, b1⟩ := (runAll_followed h1).trace
  obtain ⟨e2, a2, b2⟩ := (runAll_followed h).trace
  have l1 : e1.length = k := by have := congrArg List.length b1; simpa [hk] using this
  have l2 : e2.length = ms.length - k := by have := congrArg List.length b2; simpa using this
  refine ⟨e1 ++ e2, by rw [a2, a1]; simp, ?_, by simp [l1, l2]; omega⟩
  rw [a1, List.take_append_of_le_length (by omega), List.take_of_length_le (by omega)]

end Sys2Proof.Machine
end

