-- ==== Sys2Proof/Laws/Reference.lean ====
section
/-! SUPPORT. What frames do to the register store of the reference peripheral (20_memory.md R59, R66 to R75). -/

namespace Sys2Proof.Machine

/-- What a register of a store holds. -/
def cellOf (c : Cfg) (m : Memory) (r : Reg) : Byte :=
  (Memory.read m (regAddr c r).toNat).getD (Config.powerUp (regAddr c r).toNat)

theorem Chip.cell_eq (c : Cfg) (p : Chip) (r : Reg) : p.cell c r = cellOf c p.cells r := rfl

/-- What `Commit(a, b)` makes of a store (R70). -/
def commitCells (c : Cfg) (a b : Byte) (m : Memory) : Memory :=
  match decodeAddr c a with
  | none => m
  | some .wp => Memory.write m c.addrWp.toNat b
  | some r => if protects (cellOf c m .wp) then m else Memory.write m (regAddr c r).toNat b

theorem Chip.commit_cells (c : Cfg) (a b : Byte) (p : Chip) :
    (p.commit c a b).cells = commitCells c a b p.cells := by
  simp only [Chip.commit, commitCells, Chip.cell_eq]
  cases decodeAddr c a with
  | none => rfl
  | some r =>
    by_cases hp : protects (cellOf c p.cells .wp) = true <;> cases r <;>
      simp [hp, Chip.setCell, regAddr]

/-- What a write frame makes of a store (R68, R70): a read address stores nothing (U2). -/
def frameCells (c : Cfg) (a b : Byte) (m : Memory) : Memory :=
  if isReadAddr a then m else commitCells c a b m

theorem Chip.opened_reference {c : Cfg} {ev : Nat} {p : Chip} (h : p.kind = .reference) :
    p.opened c ev = { p with n := 0, ab := 0, db := 0, drv := none } := by
  simp [Chip.opened, Chip.sinceLastFrame, h]

theorem Chip.wroteFrame_cells {c : Cfg} {ev : Nat} {a b : Byte} {p : Chip} (h : p.kind = .reference) :
    (p.wroteFrame c ev a b).cells = frameCells c a b p.cells := by
  simp only [Chip.wroteFrame, Chip.opened_reference h, frameCells]
  split
  · rfl
  · rw [Chip.commit_cells]

theorem Chip.wroteFrame_drv (c : Cfg) (ev : Nat) (a b : Byte) (p : Chip) : (p.wroteFrame c ev a b).drv = none := by
  simp only [Chip.wroteFrame]
  split
  · rfl
  · exact (Chip.commit_frame c a b _).2.2.2.2.2

theorem State.frameWrote_cells {s : State} (h : s.chip.kind = .reference) (a b : Byte) :
    (s.frameWrote a b).cells = frameCells s.cfg a b s.chip.cells := by
  simp [State.frameWrote, h, Chip.wroteFrame_cells h]

/-- What a guarded write makes of a store (R132). -/
theorem State.guardWrote_cells {s : State} (h : s.chip.kind = .reference) (a b : Byte) :
    (s.guardWrote a b).cells = frameCells s.cfg s.cfg.addrWp s.cfg.wpOn (frameCells s.cfg a b
      (frameCells s.cfg s.cfg.addrWp s.cfg.wpOff s.chip.cells)) := by
  have h1 := Chip.wroteFrame_kind s.cfg s.events s.cfg.addrWp s.cfg.wpOff s.chip
  have h2 := Chip.wroteFrame_kind s.cfg (s.events + 52) a b (s.chip.wroteFrame s.cfg s.events s.cfg.addrWp s.cfg.wpOff)
  simp only [State.guardWrote, h, reduceCtorEq, if_false]
  rw [Chip.wroteFrame_cells (h2.trans (h1.trans h)), Chip.wroteFrame_cells (h1.trans h), Chip.wroteFrame_cells h]

/-! ### Stores -/

theorem cellOf_write_same (c : Cfg) (m : Memory) (r : Reg) (b : Byte) :
    cellOf c (Memory.write m (regAddr c r).toNat b) r = b := by simp [cellOf]

theorem cellOf_write_other {c : Cfg} {m : Memory} {r : Reg} {k : Nat} (b : Byte) (h : (regAddr c r).toNat ≠ k) :
    cellOf c (Memory.write m k b) r = cellOf c m r := by
  simp [cellOf, Memory.read_write_other _ _ _ _ h]

theorem mem_regMap_field (c : Cfg) (f : Field) : Reg.field f ∈ regMap c := by
  cases f <;> simp [regMap]

theorem mem_regMap_wp (c : Cfg) : Reg.wp ∈ regMap c := by simp [regMap]

theorem mem_regMap_ram {c : Cfg} {k : Nat} (h : k < c.ramCells) : Reg.ram k ∈ regMap c := by
  simp [regMap, h]

/-- Two registers of the map differ in their addresses. -/
theorem regAddr_ne {c : Cfg} (h : CfgOk c) {x y : Reg} (hx : x ∈ regMap c) (hy : y ∈ regMap c) (hn : x ≠ y) :
    (regAddr c x).toNat ≠ (regAddr c y).toNat := by
  intro e
  have := regAt_self h hx
  rw [BitVec.eq_of_toNat_eq e, regAt_self h hy] at this
  exact hn (Option.some.inj this).symm

/-- The register a decoded address names is in the map, at that address. -/
theorem decodeAddr_some {c : Cfg} {a : Byte} {x : Reg} (h : decodeAddr c a = some x) :
    x ∈ regMap c ∧ regAddr c x = writeAddrOf a := by
  simp only [decodeAddr, regAt] at h
  refine ⟨List.mem_of_find?_eq_some h, ?_⟩
  have := List.find?_some h
  simpa using this

/-- A write frame to `WP` is always obeyed (R59). -/
theorem frameCells_wp {c : Cfg} (h : CfgOk c) (b : Byte) (m : Memory) :
    frameCells c c.addrWp b m = Memory.write m c.addrWp.toNat b := by
  have he : isReadAddr c.addrWp = false := regAddr_even h (mem_regMap_wp c)
  have hd : decodeAddr c c.addrWp = some .wp := by
    rw [decodeAddr, (writeAddrOf_even c.addrWp he).1]; exact regAt_self h (mem_regMap_wp c)
  simp [frameCells, he, commitCells, hd]

/-- A guarded write leaves `WP_ON` in `WP` (R132). -/
theorem guardWrote_wp {s : State} (h : s.chip.kind = .reference) (hc : CfgOk s.cfg) (a b : Byte) :
    (s.guardWrote a b).cell s.cfg .wp = s.cfg.wpOn := by
  rw [Chip.cell_eq, State.guardWrote_cells h, frameCells_wp hc]
  exact cellOf_write_same s.cfg _ .wp _

/-- A guarded write of `b` at the write address of a register other than `WP` (R132, R59). -/
theorem guardWrote_target {s : State} (h : s.chip.kind = .reference) (hc : CfgOk s.cfg)
    (ho : protects s.cfg.wpOff = false) {a : Byte} (b : Byte) {x : Reg} (he : isReadAddr a = false)
    (hd : decodeAddr s.cfg a = some x) (hx : x ≠ .wp) :
    (s.guardWrote a b).cells =
      Memory.write (Memory.write (Memory.write s.chip.cells s.cfg.addrWp.toNat s.cfg.wpOff)
        (regAddr s.cfg x).toNat b) s.cfg.addrWp.toNat s.cfg.wpOn := by
  rw [State.guardWrote_cells h, frameCells_wp hc, frameCells_wp hc]
  congr 1
  have hw : cellOf s.cfg (Memory.write s.chip.cells s.cfg.addrWp.toNat s.cfg.wpOff) .wp = s.cfg.wpOff :=
    cellOf_write_same s.cfg _ .wp _
  simp only [frameCells, he, Bool.false_eq_true, if_false, commitCells, hd]
  cases x <;> simp_all

/-- A guarded write puts its byte in its register, whatever the protection was (R59, R132). -/
theorem guardWrote_cell {s : State} (h : s.chip.kind = .reference) (hc : CfgOk s.cfg)
    (ho : protects s.cfg.wpOff = false) {a : Byte} (b : Byte) {x : Reg} (he : isReadAddr a = false)
    (hd : decodeAddr s.cfg a = some x) (hx : x ≠ .wp) : (s.guardWrote a b).cell s.cfg x = b := by
  rw [Chip.cell_eq, guardWrote_target h hc ho b he hd hx,
    cellOf_write_other _ (show _ ≠ s.cfg.addrWp.toNat from regAddr_ne hc (decodeAddr_some hd).1 (mem_regMap_wp _) hx),
    cellOf_write_same]

/-- A write frame stores nowhere but at its address. -/
theorem frameCells_other {c : Cfg} (a b : Byte) (m : Memory) {k : Nat} (hk : k ≠ a.toNat) :
    Memory.read (frameCells c a b m) k = Memory.read m k := by
  simp only [frameCells]
  split
  · rfl
  · rename_i he
    have ha : ∀ x, decodeAddr c a = some x → regAddr c x = a := fun x hx =>
      (decodeAddr_some hx).2.trans (writeAddrOf_even a (by simpa [isReadAddr] using he)).1
    simp only [commitCells]
    split
    · rfl
    · rename_i hd
      have : c.addrWp = a := ha .wp hd
      exact Memory.read_write_other _ _ _ _ (by rw [this]; exact hk)
    · rename_i x _ hd
      split
      · rfl
      · exact Memory.read_write_other _ _ _ _ (by rw [ha x hd]; exact hk)

/-- A guarded write stores nowhere but at its address and at `WP` (R60 (d)). -/
theorem guardWrote_other {s : State} (h : s.chip.kind = .reference) (a b : Byte) {k : Nat} (hk : k ≠ a.toNat)
    (hk' : k ≠ s.cfg.addrWp.toNat) :
    Memory.read (s.guardWrote a b).cells k = Memory.read s.chip.cells k := by
  rw [State.guardWrote_cells h, frameCells_other _ _ _ hk', frameCells_other _ _ _ hk, frameCells_other _ _ _ hk']

/-- A write frame at a read address, at an address of no register, or while protected, stores nothing but in `WP`. -/
theorem frameCells_idle {c : Cfg} {a : Byte} (b : Byte) {m : Memory}
    (h : isReadAddr a = true ∨ decodeAddr c a = none ∨ protects (cellOf c m .wp) = true) {k : Nat}
    (hk : k ≠ c.addrWp.toNat) : Memory.read (frameCells c a b m) k = Memory.read m k := by
  simp only [frameCells]
  split
  · rfl
  · simp only [commitCells]
    split
    · rfl
    · exact Memory.read_write_other _ _ _ _ hk
    · split
      · rfl
      · simp_all

/-- What a read frame at a read address finds and leaves (R69, R75 (a)). -/
theorem frameByte_reference {s : State} (h : s.chip.kind = .reference) {a : Byte} {x : Reg}
    (hr : isReadAddr a = true) (hd : decodeAddr s.cfg a = some x) : s.frameByte a = s.chip.cell s.cfg x := by
  simp [State.frameByte, h, hr, Chip.presented, Chip.fetch, Chip.opened_reference h, hd, Chip.cell]

theorem Chip.AfterRead.reference {c : Cfg} {ev : Nat} {a : Byte} {p q : Chip} (h : p.AfterRead c ev a q)
    (hk : p.kind = .reference) (hr : isReadAddr a = true) :
    q = { p with n := 16, ab := a, db := 0, ob := p.presented c ev a, drv := none } := by
  simp only [Chip.AfterRead, hk, reduceCtorEq, if_false, hr, if_true, Chip.opened_reference hk] at h
  rw [h, hk]

end Sys2Proof.Machine
end

