-- ==== Sys2Proof/Laws/Fields.lean ====
section
/-! SUPPORT. The field templates as one update each, for the operations that chain them (42_field_accessors.md R150,
R151, R166, R167). -/

namespace Sys2Proof.Machine

/-- What the read of a field leaves, inside an operation (R150). -/
def State.readField (s : State) (f : Field) (r : Byte) (ls : List Bool) (p : Chip) : State :=
  { ({ s with t := r } : State).afterReadFrame (readAddr s.cfg (fieldAddr s.cfg f)) r ls p with
    upc := s.upc + 52, res := s.res ++ [fieldValue s.cfg f r] }

theorem State.readField_framing {s : State} (h : s.Framing) (f : Field) (r : Byte) (ls : List Bool) (p : Chip) :
    (s.readField f r ls p).Framing := ⟨h.faults, rfl, rfl, rfl, rfl⟩

/-- The read of a field as one update; on the reference peripheral it finds what the register holds. -/
theorem runAll_fieldRead (s : State) (h : s.Framing) (f : Field) (c : Cfg) (hc : c = s.cfg) :
    ∃ r ls p, runAll (fieldRead c f) s = .done (s.readField f r ls p) ∧
      (s.chip.kind = .external → p = s.chip) ∧
      (s.chip.kind = .reference → CfgOk s.cfg →
        r = s.chip.cell s.cfg (.field f) ∧ p.cells = s.chip.cells ∧ p.kind = .reference) := by
  subst hc
  obtain ⟨p, r, e⟩ := runAll_readFrame_eq s h (readAddr s.cfg (fieldAddr s.cfg f)) (.element f)
  refine ⟨_, _, p, r, fun hk => e.external hk, fun hk hc => ?_⟩
  obtain ⟨-, e3, e4⟩ := reached hc (mem_regMap_field s.cfg f)
  refine ⟨frameByte_reference hk e3 e4, ?_, e.kind.trans hk⟩
  rw [e.reference hk e3]

/-- What the write of a field leaves, inside an operation (R151). -/
def State.wroteField (s : State) (f : Field) (v : Word16) : State :=
  { ({ s with journal := .field f (fieldReduce s.cfg f v) :: s.journal } : State).afterGuardedWrite
      (fieldAddr s.cfg f) (fieldByte s.cfg f v) (s.guardWrote (fieldAddr s.cfg f) (fieldByte s.cfg f v)) with
    upc := s.upc + 156 }

theorem State.wroteField_framing {s : State} (h : s.Framing) (f : Field) (v : Word16) : (s.wroteField f v).Framing :=
  ⟨h.faults, rfl, rfl, rfl, rfl⟩

/-- The write of a field as one update. -/
theorem runAll_fieldWrite (s : State) (h : s.Framing) (f : Field) (v : Word16) (c : Cfg) (hc : c = s.cfg) :
    runAll (fieldWrite c f v) s = .done (s.wroteField f v) := by
  subst hc
  exact runAll_guardedWrite s h _ _ _

end Sys2Proof.Machine
end

