-- ==== Sys2Proof/Laws/Invariant.lean ====
section
/-! SUPPORT. What a line event keeps of the invariant: the register store, the edge count, the handles, the phase
(10_state.md R20 to R24; 20_memory.md R66, R72). -/

namespace Sys2Proof.Machine

/-! ### The peripheral -/

/-- The register store of a peripheral, as the invariant has it. -/
abbrev StoreOk (c : Cfg) (m : Memory) : Prop :=
  Memory.wf m = true ∧ ∀ e ∈ m, ∃ r, e.1 = (regAddr c r).toNat ∧ regAt c (regAddr c r) = some r

/-- What every edge keeps of a peripheral. -/
structure Chip.Sound (c : Cfg) (p : Chip) : Prop where
  store : StoreOk c p.cells
  edges : p.n ≤ 16

theorem StoreOk.write {c : Cfg} {m : Memory} (h : StoreOk c m) {r : Reg} (b : Byte)
    (hr : regAt c (regAddr c r) = some r) : StoreOk c (Memory.write m (regAddr c r).toNat b) := by
  refine ⟨Memory.wf_write _ _ _ h.1, fun e he => ?_⟩
  rcases Memory.mem_write _ _ _ _ he with rfl | he
  · exact ⟨r, rfl, hr⟩
  · exact h.2 e he

/-- At the address of a register of the map some register is found, at that address. -/
theorem regAt_of_mem {c : Cfg} {x : Reg} (h : x ∈ regMap c) :
    ∃ r, regAddr c r = regAddr c x ∧ regAt c (regAddr c r) = some r := by
  cases hf : regAt c (regAddr c x) with
  | none =>
    have := List.find?_eq_none.1 hf x h
    simp at this
  | some r =>
    have hr : regAddr c r = regAddr c x := by simpa using List.find?_some hf
    exact ⟨r, hr, by rw [hr]; exact hf⟩

theorem Chip.Sound.setCell {c : Cfg} {p : Chip} (h : p.Sound c) {x : Reg} (b : Byte) (hx : x ∈ regMap c) :
    (p.setCell c x b).Sound c := by
  obtain ⟨r, hr, hf⟩ := regAt_of_mem hx
  exact ⟨by rw [Chip.setCell_cells, ← hr]; exact h.store.write b hf, h.edges⟩

theorem Chip.Sound.commit {c : Cfg} {p : Chip} (h : p.Sound c) (a b : Byte) : (p.commit c a b).Sound c := by
  simp only [Chip.commit]
  cases hd : decodeAddr c a with
  | none => exact h
  | some r =>
    have hm : r ∈ regMap c := List.mem_of_find?_eq_some (by simpa only [decodeAddr, regAt] using hd)
    cases r with
    | wp => exact h.setCell b hm
    | field f => simp only; split; exacts [h, h.setCell b hm]
    | ctrl => simp only; split; exacts [h, h.setCell b hm]
    | ram k => simp only; split; exacts [h, h.setCell b hm]

theorem Chip.Sound.clkRise {c : Cfg} {p : Chip} (h : p.Sound c) (d : Bool) : (p.clkRise c d).Sound c := by
  have hn := h.edges
  simp only [Chip.clkRise]
  split
  · exact ⟨h.store, by simp only; omega⟩
  · split
    · split
      · exact ⟨h.store, by simp only; omega⟩
      · have hq : ({ p with db := setBit p.db (p.n - 8) d, n := p.n + 1 } : Chip).Sound c :=
          ⟨h.store, by simp only; omega⟩
        split
        · exact hq.commit _ _
        · exact hq
    · exact h

theorem Chip.Sound.clkFall {c : Cfg} {p : Chip} (h : p.Sound c) (ev : Nat) : (p.clkFall c ev).Sound c := by
  simp only [Chip.clkFall]
  repeat' split
  all_goals exact ⟨h.store, h.edges⟩

theorem Chip.Sound.tick {c : Cfg} {p : Chip} (h : p.Sound c) (ev : Nat) : (p.tick c ev).Sound c := by
  have hm : ∀ f : Field, Reg.field f ∈ regMap c := fun f => by cases f <;> simp [regMap]
  have : ∀ (l : List Field) (q : Chip), q.Sound c → (l.foldl
      (fun q f => q.setCell c (.field f) (Config.tickByte ev (snapshotOrder.idxOf f))) q).Sound c := by
    intro l
    induction l with
    | nil => exact fun q hq => hq
    | cons f l ih => exact fun q hq => ih _ (hq.setCell _ (hm f))
  exact this _ _ h

theorem Chip.Sound.csRise {c : Cfg} {p : Chip} (h : p.Sound c) (ev : Nat) (low : Bool) :
    (p.csRise c ev low).Sound c := by
  have hq : (p.sinceLastFrame c ev).Sound c := by
    simp only [Chip.sinceLastFrame]
    split
    · split; exacts [h, h.tick ev]
    · exact h
  simp only [Chip.csRise]
  split
  · exact ⟨hq.store, Nat.zero_le _⟩
  · exact ⟨hq.store, Nat.le_of_lt_succ (Nat.mod_lt _ (by decide))⟩

theorem State.chipAfter_sound {s : State} (h : s.chip.Sound s.cfg) (l : Line) (p : Pin) :
    (s.chipAfter l p).Sound s.cfg := by
  have hf : (s.chip.csFall).Sound s.cfg := ⟨h.store, h.edges⟩
  simp only [State.chipAfter]
  repeat' split
  all_goals first | exact h | exact hf | exact h.csRise _ _ | exact h.clkRise _ | exact h.clkFall _

/-! ### The lines -/

/-- The part of the invariant about lines and peripheral. -/
structure State.Lines (s : State) : Prop where
  chip : s.chip.Sound s.cfg
  undriven : s.chip.kind ≠ .external → s.cs.wire = some false → s.chip.drv = none
  clkDir : s.clk.dir ≠ .inp
  csDir : s.cs.dir ≠ .inp
  clkPin : s.clk.Sound
  dioPin : s.dio.Sound
  csPin : s.cs.Sound
  phaseCs : s.phase ≠ .idle ↔ s.cs.lvl = .driven true

theorem State.Inv.lines {s : State} (h : s.Inv) : s.Lines :=
  ⟨⟨h.store, h.edges⟩, h.undriven, h.clkDir, h.csDir, h.clkPin, h.dioPin, h.csPin, h.phaseCs⟩

/-- Only the fields that `Lines` names matter to it. -/
theorem State.Lines.of {s t : State} (h : s.Lines) (hc : t.cfg = s.cfg) (h1 : t.clk = s.clk) (h2 : t.dio = s.dio)
    (h3 : t.cs = s.cs) (h4 : t.chip = s.chip) (h5 : t.phase = s.phase) : t.Lines :=
  ⟨by rw [h4, hc]; exact h.chip, by rw [h4, h3]; exact h.undriven, h1 ▸ h.clkDir, h3 ▸ h.csDir, h1 ▸ h.clkPin,
    h2 ▸ h.dioPin, h3 ▸ h.csPin, by rw [h5, h3]; exact h.phaseCs⟩

theorem Pin.Sound.turn {p : Pin} (h : p.Sound) (d : Dir) (ev : Nat) : (p.turn d ev).Sound := by
  cases d with
  | out =>
    simp only [Pin.turn]
    split
    · exact h
    · exact ⟨fun _ => rfl, fun _ => ⟨rfl, rfl⟩⟩
  | inp => exact ⟨fun h => absurd rfl h, fun h => by cases h⟩
  | unset => exact ⟨fun h => absurd rfl h, fun h => by cases h⟩

theorem Pin.Sound.drive {p : Pin} (hd : p.dir = .out) (b : Bool) : (p.drive b).Sound :=
  ⟨fun _ => hd, fun h => by cases h⟩

theorem Pin.Sound.driving (b : Bool) : (Pin.driving b).Sound := ⟨fun _ => rfl, fun h => by cases h⟩

/-- While `CS` is low after an event, nothing is driven (R72). -/
theorem State.chipAfter_undriven {s : State} (h : s.Lines) (l : Line) (p : Pin)
    (hk : s.chip.kind ≠ .external) (hw : (match l with | .cs => p | _ => s.cs).wire = some false) :
    (s.chipAfter l p).drv = none := by
  cases l with
  | clk =>
    have hsel : s.selectLevel = false := by
      have : s.cs.wire = some false := hw
      simp [State.selectLevel, this]
    have hd := h.undriven hk hw
    simp only [State.chipAfter, hsel]
    split <;> simp_all
  | dio => rw [State.chipAfter_dio]; exact h.undriven hk hw
  | cs =>
    have hw' : p.wire = some false := hw
    simp only [State.chipAfter, hw', Option.getD_some, Bool.false_eq_true, if_false]
    rfl

/-- A micro-operation an operation may hold: it makes `CLK` and `CS` outputs or nothing (R21). -/
def Micro.proper : Micro → Prop
  | .dir .dio _ => True
  | .dir _ d => d = .out
  | _ => True

theorem State.Lines.applyDir {s : State} (h : s.Lines) {l : Line} {d : Dir} (hp : (Micro.dir l d).proper) :
    (s.applyDir l d).Lines := by
  have hc := State.chipAfter_sound h.chip l ((s.pin l).turn d s.events)
  have hu := State.chipAfter_undriven h l ((s.pin l).turn d s.events)
  have hk := State.chipAfter_kind s l ((s.pin l).turn d s.events)
  cases l with
  | dio =>
    exact ⟨hc, fun a b => hu (hk ▸ a) b, h.clkDir, h.csDir, h.clkPin, h.dioPin.turn d _, h.csPin, h.phaseCs⟩
  | clk =>
    have : d = .out := hp
    subst this
    refine ⟨hc, fun a b => hu (hk ▸ a) b, ?_, h.csDir, h.clkPin.turn _ _, h.dioPin, h.csPin, h.phaseCs⟩
    show (s.clk.turn .out s.events).dir ≠ .inp
    rw [Pin.turn_out_dir]; decide
  | cs =>
    have : d = .out := hp
    subst this
    refine ⟨hc, fun a b => hu (hk ▸ a) b, h.clkDir, ?_, h.clkPin, h.dioPin, h.csPin.turn _ _, ?_⟩
    · show (s.cs.turn .out s.events).dir ≠ .inp
      rw [Pin.turn_out_dir]; decide
    · show s.phase ≠ .idle ↔ (s.cs.turn .out s.events).lvl = .driven true
      have hs := h.phaseCs
      simp only [Pin.turn]
      split
      · exact hs
      · rename_i hn
        have : s.cs.lvl = .unset := by
          by_contra hl; exact hn (h.csPin.1 hl)
        rw [this] at hs
        simpa using hs

theorem State.Lines.applySet {s : State} (h : s.Lines) {l : Line} {b : Bool} (hd : (s.pin l).dir = .out) :
    (s.applySet l b).Lines := by
  have hc := State.chipAfter_sound h.chip l ((s.pin l).drive b)
  have hu := State.chipAfter_undriven h l ((s.pin l).drive b)
  have hk := State.chipAfter_kind s l ((s.pin l).drive b)
  have hs := h.phaseCs
  cases l with
  | dio =>
    exact ⟨hc, fun a b => hu (hk ▸ a) b, h.clkDir, h.csDir, h.clkPin, Pin.Sound.drive hd b, h.csPin,
      by cases b <;> exact hs⟩
  | clk =>
    refine ⟨hc, fun a b => hu (hk ▸ a) b, h.clkDir, h.csDir, Pin.Sound.drive hd b, h.dioPin, h.csPin, ?_⟩
    cases b with
    | false => exact hs
    | true =>
      show (if s.phase = .selected then Phase.transferring else s.phase) ≠ .idle ↔ s.cs.lvl = .driven true
      rw [← hs]
      split <;> simp_all
  | cs =>
    refine ⟨hc, fun a b => hu (hk ▸ a) b, h.clkDir, h.csDir, h.clkPin, h.dioPin, Pin.Sound.drive hd b, ?_⟩
    cases b <;> simp [State.applySet, State.stamp, State.moveLine, State.setPin, Phase.after, Pin.drive, State.pin]

theorem performOk_lines {m : Micro} {s t : State} (h : s.Lines) (hp : m.proper) (hm : performOk m s = .done t) :
    t.Lines := by
  cases m with
  | dir l d => cases Performed.done.inj hm; exact (h.applyDir hp).of rfl rfl rfl rfl rfl rfl
  | set l b => obtain ⟨hd, rfl⟩ := driveLine_stepped hm; exact (h.applySet hd).of rfl rfl rfl rfl rfl rfl
  | beginOut src =>
    cases Performed.done.inj hm
    have : ({ s with sh := src.value s } : State).Lines := h.of rfl rfl rfl rfl rfl rfl
    exact (this.applyDir (l := .dio) (d := .out) trivial).of rfl rfl rfl rfl rfl rfl
  | putBit k =>
    obtain ⟨hd, rfl⟩ := driveLine_stepped hm
    have : ({ s with i := k } : State).Lines := h.of rfl rfl rfl rfl rfl rfl
    exact (this.applySet (l := .dio) hd).of rfl rfl rfl rfl rfl rfl
  | beginIn =>
    cases Performed.done.inj hm
    have : ({ s with acc := 0 } : State).Lines := h.of rfl rfl rfl rfl rfl rfl
    exact (this.applyDir (l := .dio) (d := .inp) trivial).of rfl rfl rfl rfl rfl rfl
  | getBit k =>
    simp only [performOk, sampleLine] at hm
    split at hm
    · cases Performed.done.inj hm; exact h.of rfl rfl rfl rfl rfl rfl
    · cases hm
  | endFrame x =>
    simp only [performOk] at hm
    split at hm
    · rename_i s' hs
      obtain ⟨hd, rfl⟩ := driveLine_stepped hs
      cases Performed.done.inj hm
      have := h.applySet (l := .cs) (b := false) hd
      cases x <;> exact this.of rfl rfl rfl rfl rfl rfl
    · rename_i hn; exact absurd hm (hn _)

theorem perform_lines {m : Micro} {s t : State} (h : s.Lines) (hp : m.proper)
    (hm : perform m s = .done t ∨ perform m s = .failed t) : t.Lines := by
  rcases hm with hm | hm
  · simp only [perform] at hm
    split at hm
    · split at hm
      · cases hm
      · have : ({ s with lineFail := s.lineFail.tail } : State).Lines := h.of rfl rfl rfl rfl rfl rfl
        exact performOk_lines this hp hm
    · exact performOk_lines h hp hm
  · rw [(perform_failed hm).2]; exact h.of rfl rfl rfl rfl rfl rfl

theorem runAll_lines {ms : List Micro} {s t : State} (h : s.Lines) (hp : ∀ m ∈ ms, m.proper)
    (hm : runAll ms s = .done t ∨ runAll ms s = .failed t) : t.Lines := by
  induction ms generalizing s with
  | nil => rcases hm with hm | hm <;> cases hm; exact h
  | cons m ms ih =>
    simp only [runAll] at hm
    cases h1 : perform m s with
    | done u =>
      simp only [h1] at hm
      exact ih (perform_lines h (hp m (by simp)) (.inl h1)) (fun x hx => hp x (by simp [hx])) hm
    | failed u =>
      simp only [h1] at hm
      rcases hm with hm | hm <;> cases hm
      exact perform_lines h (hp m (by simp)) (.inr h1)
    | stuck f => simp only [h1] at hm; rcases hm with hm | hm <;> cases hm

/-- No operation makes `CLK` or `CS` anything but an output (R21). -/
theorem microOps_proper (c : Cfg) (op : Instr) : ∀ m ∈ microOps c op, m.proper := by
  have ho : ∀ src, ∀ m ∈ shiftOut src, m.proper := by
    intro src
    simp [shiftOut, bitIndices, pulse, Micro.proper]
  have hi : ∀ m ∈ shiftIn, m.proper := by
    simp [shiftIn, bitIndices, pulse, Micro.proper]
  have hr : ∀ a x, ∀ m ∈ readFrame a x, m.proper := by
    intro a x
    simp only [readFrame, List.forall_mem_append, List.forall_mem_singleton]
    exact ⟨⟨⟨trivial, ho _⟩, hi⟩, trivial⟩
  have hw : ∀ a src x, ∀ m ∈ writeFrame a src x, m.proper := by
    intro a src x
    simp only [writeFrame, List.forall_mem_append, List.forall_mem_singleton]
    exact ⟨⟨⟨trivial, ho _⟩, ho _⟩, trivial⟩
  have hg : ∀ a src x, ∀ m ∈ guardedWrite c a src x, m.proper := by
    intro a src x
    simp only [guardedWrite, List.forall_mem_append]
    exact ⟨⟨hw _ _ _, hw _ _ _⟩, hw _ _ _⟩
  cases op <;>
    simp only [microOps, writeByteOps, readByteOps, getRegOps, setRegOps, wpWriteOps, startOps, stopOps, dec2bcdOps,
      bcd2decOps, getSecondOps, getMinuteOps, getHourOps, getDayOps, getMonthOps, getWeekdayOps, getYearOps,
      getDatetimeOps, setSecondOps, setMinuteOps, setHourOps, setDayOps, setMonthOps, setWeekdayOps, setYearOps,
      setDatetimeOps, readRamOps, writeRamOps, fieldRead, fieldWrite, snapshotOrder, List.flatMap_cons,
      List.flatMap_nil, List.append_nil, List.forall_mem_append]
  case init => simp [initOps, Micro.proper]
  case writeByte b => exact ho _
  case readByte => exact hi
  case dec2bcd => simp
  case bcd2dec => simp
  case setReg a b => exact hw _ _ _
  case start => exact ⟨hr _ _, hg _ _ _⟩
  case stop => exact ⟨hr _ _, hg _ _ _⟩
  case getDatetime => exact ⟨hr _ _, hr _ _, hr _ _, hr _ _, hr _ _, hr _ _, hr _ _⟩
  case setDatetime =>
    exact ⟨⟨⟨⟨⟨⟨hg _ _ _, hg _ _ _⟩, hg _ _ _⟩, hg _ _ _⟩, hg _ _ _⟩, hg _ _ _⟩, hg _ _ _⟩
  all_goals first | exact hr _ _ | exact hg _ _ _

/-! ### Acceptance and failure -/

/-- A meaning refuses, or its command is accepted (R194, R222). -/
theorem exec_refused (i : Instr) (s : State) :
    (∃ r, exec i s = .refused r) ∨ (s.busy = false ∧ (i ≠ .init → s.clk.dir = .out ∧ s.cs.dir = .out)) := by
  rw [exec_eq_operate]
  simp only [operate]
  cases h : s.refusal (needsInit i) with
  | some r => exact .inl ⟨r, rfl⟩
  | none =>
    right
    simp only [State.refusal, needsInit_eq] at h
    by_cases hb : s.busy = true
    · simp [hb] at h
    · simp only [hb, State.initialised] at h
      refine ⟨by simpa using hb, fun hi => ?_⟩
      simp [hi] at h; exact h

/-- A run fails only if lines may fail (R193). -/
theorem runAll_failed_faults {ms : List Micro} {s t : State} (h : runAll ms s = .failed t) :
    s.cfg.lineFaults = true ∧ t.cfg = s.cfg := by
  induction ms generalizing s with
  | nil => cases h
  | cons m ms ih =>
    simp only [runAll] at h
    cases hm : perform m s with
    | done u =>
      simp only [hm] at h
      have k := (perform_stepped hm).kept.cfg
      exact ⟨k ▸ (ih h).1, k ▸ (ih h).2⟩
    | failed u =>
      simp only [hm] at h
      cases h
      exact ⟨(perform_failed hm).1, by rw [(perform_failed hm).2]; rfl⟩
    | stuck f => simp only [hm] at h; cases h

/-! ### What only grows -/

/-- What goes on from state to state: the configuration stays, and what has happened stays in the trace. -/
structure State.Onward (s t : State) : Prop where
  cfg : t.cfg = s.cfg
  kind : t.chip.kind = s.chip.kind
  stepping : t.stepping = s.stepping
  events : s.events ≤ t.events
  trace : ∃ es, t.trace = es ++ s.trace
  journal : ∃ ms, t.journal = ms ++ s.journal

theorem State.Onward.refl (s : State) : s.Onward s := ⟨rfl, rfl, rfl, Nat.le_refl _, ⟨[], rfl⟩, ⟨[], rfl⟩⟩

theorem State.Onward.trans {s t u : State} (h : s.Onward t) (h' : t.Onward u) : s.Onward u := by
  obtain ⟨e1, h1⟩ := h.trace; obtain ⟨e2, h2⟩ := h'.trace
  obtain ⟨j1, k1⟩ := h.journal; obtain ⟨j2, k2⟩ := h'.journal
  exact ⟨h'.cfg.trans h.cfg, h'.kind.trans h.kind, h'.stepping.trans h.stepping, Nat.le_trans h.events h'.events,
    ⟨e2 ++ e1, by rw [h2, h1, List.append_assoc]⟩, ⟨j2 ++ j1, by rw [k2, k1, List.append_assoc]⟩⟩

theorem perform_onward {m : Micro} {s t : State} (h : perform m s = .done t ∨ perform m s = .failed t) :
    s.Onward t := by
  rcases h with h | h
  · have k := perform_stepped h
    obtain ⟨e, he, -⟩ := k.trace
    exact ⟨k.kept.cfg, k.kept.kind, k.kept.stepping, by rw [k.events]; omega, ⟨[e], he⟩, k.journal⟩
  · rw [(perform_failed h).2]; exact ⟨rfl, rfl, rfl, Nat.le_succ _, ⟨[], rfl⟩, ⟨[], rfl⟩⟩

theorem runAll_onward {ms : List Micro} {s t : State} (h : runAll ms s = .done t ∨ runAll ms s = .failed t) :
    s.Onward t := by
  induction ms generalizing s with
  | nil => rcases h with h | h <;> cases h; exact .refl _
  | cons m ms ih =>
    simp only [runAll] at h
    cases h1 : perform m s with
    | done u => simp only [h1] at h; exact (perform_onward (.inl h1)).trans (ih h)
    | failed u => simp only [h1] at h; rcases h with h | h <;> cases h; exact perform_onward (.inr h1)
    | stuck f => simp only [h1] at h; rcases h with h | h <;> cases h

theorem State.applyDir_onward (s : State) (l : Line) (d : Dir) : s.Onward (s.applyDir l d) := by
  have k := s.applyDir_kept l d
  exact ⟨k.cfg, k.kind, k.stepping, Nat.le_of_lt (by cases l <;> exact Nat.lt_succ_self _),
    ⟨[.dir l d], by cases l <;> rfl⟩, ⟨[], by cases l <;> rfl⟩⟩

theorem State.applySet_onward (s : State) (l : Line) (b : Bool) : s.Onward (s.applySet l b) := by
  have k := s.applySet_kept l b
  exact ⟨k.cfg, k.kind, k.stepping, Nat.le_of_lt (by cases l <;> exact Nat.lt_succ_self _),
    ⟨[.set l b], by cases l <;> rfl⟩, ⟨[], by cases l <;> rfl⟩⟩

end Sys2Proof.Machine
end

