-- ==== Sys2Proof/Laws/Init.lean ====
section
/-! SUPPORT. The four events that INIT and reset perform (70_reset_and_hazards.md R220, R221). -/

namespace Sys2Proof.Machine

theorem Chip.csRise_cells {c : Cfg} {p : Chip} (h : p.kind ≠ .ticking) (ev : Nat) (low : Bool) :
    (p.csRise c ev low).cells = p.cells := by
  have : p.sinceLastFrame c ev = p := by
    rw [Chip.sinceLastFrame]
    cases hk : p.kind <;> first | rfl | exact absurd hk h
  simp only [Chip.csRise, this]
  split <;> rfl

/-- An edge of `CS` changes no register of a peripheral that keeps no time. -/
theorem State.chipAfter_cs_cells {s : State} (h : s.chip.kind ≠ .ticking) (p : Pin) :
    (s.chipAfter .cs p).cells = s.chip.cells := by
  cases hk : s.chip.kind <;> simp only [State.chipAfter, hk]
  case ticking => exact absurd hk h
  case reference =>
    split
    · split
      · rfl
      · exact Chip.csRise_cells h _ _
    · rfl

theorem State.chipAfter_clk_low {s : State} (h : s.cs = Pin.driving false) (p : Pin) : s.chipAfter .clk p = s.chip := by
  have : s.selectLevel = false := by rw [State.selectLevel, h]; rfl
  cases hk : s.chip.kind <;> simp [State.chipAfter, this, hk]

theorem Pin.turn_drive (p : Pin) (b : Bool) (ev : Nat) : (p.turn .out ev).drive b = Pin.driving b := by
  simp only [Pin.turn, Pin.drive, Pin.driving]
  split
  · rename_i h; simp [h]
  · rfl

/-- The four events. -/
def State.idling (s : State) : State :=
  (((s.applyDir .cs .out).applySet .cs false).applyDir .clk .out).applySet .clk false

/-- The four events as one update. -/
theorem State.idling_eq (s : State) : ∃ p, s.idling =
      { s with clk := Pin.driving false, cs := Pin.driving false, phase := .idle, chip := p,
               trace := initEvents.reverse ++ s.trace, events := s.events + 4 } ∧
    (s.chip.kind ≠ .ticking → p.cells = s.chip.cells) ∧
    (s.clk.dir = .out → s.cs.dir = .out → s.clk.lvl = .driven false → s.cs.lvl = .driven false →
      s.chip.drv = none → p = s.chip) := by
  refine ⟨s.idling.chip, ?_, ?_, ?_⟩
  · simp only [State.idling, State.applyDir, State.applySet, State.moveLine, State.setPin, State.stamp, State.pin,
      Phase.after, Pin.turn_drive, initEvents]
    rfl
  · intro hk
    have h1 : (s.applyDir .cs .out).chip.kind ≠ .ticking := by
      rw [State.applyDir_chip, State.chipAfter_kind]; exact hk
    have h2 : ((s.applyDir .cs .out).applySet .cs false).cs = Pin.driving false := by
      simp [State.applyDir, State.applySet, State.moveLine, State.setPin, State.stamp, State.pin, Pin.turn_drive]
    have h3 : (((s.applyDir .cs .out).applySet .cs false).applyDir .clk .out).cs = Pin.driving false := h2
    rw [State.idling, State.applySet_chip, State.chipAfter_clk_low h3, State.applyDir_chip,
      State.chipAfter_clk_low h2, State.applySet_chip, State.chipAfter_cs_cells h1, State.applyDir_chip,
      State.chipAfter_cs_cells hk]
  · intro h1 h2 h3 h4 hd
    have hf : s.chip.csFall = s.chip := by rw [Chip.csFall, ← hd]
    have hcs : ∀ p : Pin, p.wire = some false → s.chipAfter .cs p = s.chip := by
      intro p hp
      cases hk : s.chip.kind <;> simp [State.chipAfter, hp, hf, hk]
    have e1 : (s.applyDir .cs .out).chip = s.chip := by
      rw [State.applyDir_chip]
      exact hcs _ (by simp [Pin.turn, State.pin, h2, Pin.wire, h4])
    have e2 : ((s.applyDir .cs .out).applySet .cs false).chip = s.chip := by
      rw [State.applySet_chip]
      have : ∀ u : State, u.chip = s.chip → ∀ p : Pin, p.wire = some false → u.chipAfter .cs p = s.chip := by
        intro u hu p hp
        cases hk : s.chip.kind <;> simp [State.chipAfter, hp, hu, hf, hk]
      exact this _ e1 _ (by
        simp [State.applyDir, State.moveLine, State.setPin, State.stamp, State.pin, Pin.turn, h2, Pin.drive, Pin.wire])
    have c2 : ((s.applyDir .cs .out).applySet .cs false).cs = Pin.driving false := by
      simp [State.applyDir, State.applySet, State.moveLine, State.setPin, State.stamp, State.pin, Pin.turn_drive]
    have c3 : (((s.applyDir .cs .out).applySet .cs false).applyDir .clk .out).cs = Pin.driving false := c2
    rw [State.idling, State.applySet_chip, State.chipAfter_clk_low c3, State.applyDir_chip,
      State.chipAfter_clk_low c2, e2]

/-- What reset leaves, beside the free values (R221, R37). -/
theorem State.resetNow_eq (s : State) : ∃ p, s.resetNow =
      { s with busy := false, upc := 0, rsp := { status := .ok, value := 0 }, rspValid := false,
               sh := Config.resetSh s.events, acc := Config.resetAcc s.events, i := Config.resetIndex s.events,
               t := Config.resetT s.events, res := [], c := Config.resetCommand s.events, resetPin := false,
               dio := Pin.floating, clk := Pin.driving false, cs := Pin.driving false, phase := .idle, chip := p,
               trace := initEvents.reverse ++ s.trace, events := s.events + 4 } ∧
    (s.chip.kind ≠ .ticking → p.cells = s.chip.cells) := by
  obtain ⟨p, hp, hc, -⟩ := State.idling_eq
    { s with busy := false, upc := 0, rsp := { status := .ok, value := 0 }, rspValid := false,
             sh := Config.resetSh s.events, acc := Config.resetAcc s.events, i := Config.resetIndex s.events,
             t := Config.resetT s.events, res := [], c := Config.resetCommand s.events, resetPin := false,
             dio := Pin.floating }
  exact ⟨p, hp, hc⟩

/-- Counting an event and performing one commute. -/
theorem State.advance_applySet (s : State) (l : Line) (b : Bool) :
    s.advance.applySet l b = (s.applySet l b).advance := by cases l <;> rfl

theorem State.advance_applyDir (s : State) (l : Line) (d : Dir) :
    s.advance.applyDir l d = (s.applyDir l d).advance := by cases l <;> rfl

/-- The events of `INIT` as one update (R220). -/
theorem runAll_initOps (s : State) (hf : s.cfg.lineFaults = false) :
    runAll initOps s = .done { s.idling with upc := s.upc + 4 } := by
  have hset : ∀ (u : State) (l : Line) (b : Bool), u.cfg = s.cfg → (u.pin l).dir = .out →
      perform (.set l b) u = .done (u.applySet l b).advance := by
    intro u l b hc hd
    rw [perform_eq _ _ (hc ▸ hf), performOk, driveLine_of_out b hd]
  have hdir : ∀ (u : State) (l : Line), u.cfg = s.cfg → perform (.dir l .out) u = .done (u.applyDir l .out).advance := by
    intro u l hc
    rw [perform_eq _ _ (hc ▸ hf), performOk]
  have hpair : ∀ (u : State) (l : Line), u.cfg = s.cfg → ∃ v, v = ((u.applyDir l .out).applySet l false).advance.advance ∧
      v.cfg = s.cfg ∧ ∀ ms, runAll (.dir l .out :: .set l false :: ms) u = runAll ms v := by
    intro u l hc
    have hc1 : (u.applyDir l .out).advance.cfg = s.cfg := by simp [hc]
    have hd1 : ((u.applyDir l .out).advance.pin l).dir = .out := by
      cases l <;> exact Pin.turn_out_dir _ _
    refine ⟨_, rfl, by simp [hc], fun ms => ?_⟩
    simp only [runAll, hdir u l hc, hset _ l false hc1 hd1, State.advance_applySet]
  obtain ⟨v, hv, hvc, hr⟩ := hpair s .cs rfl
  obtain ⟨w, hw, -, hr'⟩ := hpair v .clk hvc
  rw [initOps, hr, hr', runAll, hw, hv]
  simp only [State.advance_applySet, State.advance_applyDir]
  have hu : s.idling.upc = s.upc := by simp [State.idling]
  rw [← hu, ← State.idling]
  generalize s.idling = q
  rfl

end Sys2Proof.Machine
end

