-- ==== Sys2Proof/Laws/PerInstr.lean ====
section
/-! SUPPORT. What is said of every operation as syntax: its command word is legal (30_encoding.md R91, R92, R96). -/

namespace Sys2Proof.Laws.EncodingLegal

/-- The command word of the operation is legal (R96 (a) to (c)). -/
def Statement (i : Instr) : Prop := Command.wf (encode i) = true

theorem of_payload {i : Instr} {f : Format} (hf : formatOf (opcode i) = some f)
    (hp : payloadOf i &&& ~~~f.free = 0#112) : Statement i := by
  simp only [Statement, Command.wf, Command.opKnown, Command.rsvClear, Command.payloadClear, encode,
    Command.op_parts, Command.rsv_parts, Command.payload_parts, hf, hp]
  rfl

theorem init : Statement .init := of_payload (f := .n) rfl (zero_free .n)
theorem writeByte (b : Byte) : Statement (.writeByte b) := of_payload (f := .b) rfl (packB_free b)
theorem readByte : Statement .readByte := of_payload (f := .n) rfl (zero_free .n)
theorem getReg (addr : Byte) : Statement (.getReg addr) := of_payload (f := .r) rfl (packR_free addr)
theorem setReg (addr b : Byte) : Statement (.setReg addr b) := of_payload (f := .rb) rfl (packRB_free addr b)
theorem wpWrite (addr b : Byte) : Statement (.wpWrite addr b) := of_payload (f := .rb) rfl (packRB_free addr b)
theorem start : Statement .start := of_payload (f := .n) rfl (zero_free .n)
theorem stop : Statement .stop := of_payload (f := .n) rfl (zero_free .n)
theorem dec2bcd (n : Byte) : Statement (.dec2bcd n) := of_payload (f := .r) rfl (packR_free n)
theorem bcd2dec (n : Byte) : Statement (.bcd2dec n) := of_payload (f := .r) rfl (packR_free n)
theorem getSecond : Statement .getSecond := of_payload (f := .n) rfl (zero_free .n)
theorem getMinute : Statement .getMinute := of_payload (f := .n) rfl (zero_free .n)
theorem getHour : Statement .getHour := of_payload (f := .n) rfl (zero_free .n)
theorem getDay : Statement .getDay := of_payload (f := .n) rfl (zero_free .n)
theorem getMonth : Statement .getMonth := of_payload (f := .n) rfl (zero_free .n)
theorem getWeekday : Statement .getWeekday := of_payload (f := .n) rfl (zero_free .n)
theorem getYear : Statement .getYear := of_payload (f := .n) rfl (zero_free .n)
theorem getDatetime : Statement .getDatetime := of_payload (f := .n) rfl (zero_free .n)
theorem setSecond (v : Word16) : Statement (.setSecond v) := of_payload (f := .v) rfl (packV_free v)
theorem setMinute (v : Word16) : Statement (.setMinute v) := of_payload (f := .v) rfl (packV_free v)
theorem setHour (v : Word16) : Statement (.setHour v) := of_payload (f := .v) rfl (packV_free v)
theorem setDay (v : Word16) : Statement (.setDay v) := of_payload (f := .v) rfl (packV_free v)
theorem setMonth (v : Word16) : Statement (.setMonth v) := of_payload (f := .v) rfl (packV_free v)
theorem setWeekday (v : Word16) : Statement (.setWeekday v) := of_payload (f := .v) rfl (packV_free v)
theorem setYear (v : Word16) : Statement (.setYear v) := of_payload (f := .v) rfl (packV_free v)
theorem setDatetime (y mo d wd h mi s : Word16) : Statement (.setDatetime y mo d wd h mi s) :=
  of_payload (f := .t) rfl (all_free _)
theorem readRam (idx : Word16) : Statement (.readRam idx) := of_payload (f := .v) rfl (packV_free idx)
theorem writeRam (idx : Word16) (b : Byte) : Statement (.writeRam idx b) :=
  of_payload (f := .vb) rfl (packVB_free idx b)

end Sys2Proof.Laws.EncodingLegal
end

