-- ==== Sys2Proof/Laws/Response.lean ====
section
/-! SUPPORT. The layout of the response word and of the tuple result (30_encoding.md R93). -/

namespace Sys2Proof.Machine

/-- The bits of the response word. -/
theorem Rsp.word_getLsbD (r : Rsp) (k : Nat) :
    r.word.getLsbD k = if k < 112 then r.value.getLsbD k else r.status.code.getLsbD (k - 112) := by
  have h := BitVec.getLsbD_append (x := r.status.code) (y := r.value) (i := k)
  simpa [Rsp.word] using h

/-- The value is in bits 111:0. -/
theorem Rsp.word_value (r : Rsp) : r.word.extractLsb' 0 112 = r.value := by
  apply BitVec.eq_of_getLsbD_eq; intro k hk
  rw [BitVec.getLsbD_extractLsb', Rsp.word_getLsbD]; simp [hk]

/-- The status is in bits 113:112. -/
theorem Rsp.word_status (r : Rsp) : r.word.extractLsb' 112 2 = r.status.code := by
  apply BitVec.eq_of_getLsbD_eq; intro k hk
  rw [BitVec.getLsbD_extractLsb', Rsp.word_getLsbD]; simp [hk]

/-- Element `k` of the value is element `k` of the word. -/
theorem Rsp.word_element (r : Rsp) {k : Nat} (hk : k < 7) :
    r.word.extractLsb' (16 * k) 16 = r.value.extractLsb' (16 * k) 16 := by
  apply BitVec.eq_of_getLsbD_eq; intro j hj
  rw [BitVec.getLsbD_extractLsb', BitVec.getLsbD_extractLsb', Rsp.word_getLsbD, if_pos (by omega)]

/-- Element `k` stands in bits 16k+15:16k (R91, R93). -/
theorem packElements_get (vs : List Word16) (hl : vs.length ≤ 7) (k : Nat) (hk : k < vs.length) :
    (packElements vs).extractLsb' (16 * k) 16 = vs[k] := by
  induction vs generalizing k with
  | nil => simp at hk
  | cons v vs ih =>
    simp only [List.length_cons] at hl hk
    apply BitVec.eq_of_getLsbD_eq; intro j hj
    rw [BitVec.getLsbD_extractLsb', packElements, BitVec.getLsbD_or, scalar, BitVec.getLsbD_setWidth, BitVec.getLsbD_shiftLeft]
    cases k with
    | zero => simp [hj]; omega
    | succ k =>
      have h := congrArg (fun x => x.getLsbD j) (ih (by omega) k (by omega))
      simp only [BitVec.getLsbD_extractLsb', hj, decide_true, Bool.true_and] at h
      rw [List.getElem_cons_succ, ← h, BitVec.getLsbD_of_ge v _ (by omega), show 16 * (k + 1) + j - 16 = 16 * k + j by omega]
      simp only [show 16 * (k + 1) + j < 112 by omega, show ¬16 * (k + 1) + j < 16 by omega, hj, decide_true,
        decide_false, Bool.not_false, Bool.true_and, Bool.and_false, Bool.false_or]

end Sys2Proof.Machine
end

