-- ==== Sys2Proof/Laws/Shape.lean ====
section
/-! SUPPORT. The shape of frames, and the check of complete frames (30_encoding.md R102; 41_register_access.md R135). -/

namespace Sys2Proof.Machine

/-- The check does not look at the levels of `DIO`. -/
theorem FramePos.next_shape (p : FramePos) (e : Event) : p.next e.shape = p.next e := by
  rcases p with _ | ⟨n, b⟩ <;> rcases e with ⟨l, d⟩ | ⟨l, b'⟩ | ⟨l, b'⟩ <;> cases l <;> (try cases b) <;>
    (try cases b') <;> rfl

theorem framedFrom_shape (es : List Event) (p : FramePos) : framedFrom p (es.map Event.shape) = framedFrom p es := by
  induction es generalizing p with
  | nil => rfl
  | cons e es ih =>
    simp only [List.map_cons, framedFrom, FramePos.next_shape]
    cases p.next e <;> simp [ih]

/-- Complete frames after complete frames are complete frames. -/
theorem framedFrom_append (es fs : List Event) (p : FramePos) (h : framedFrom p es = true) (h' : framed fs = true) :
    framedFrom p (es ++ fs) = true := by
  induction es generalizing p with
  | nil =>
    simp only [framedFrom, decide_eq_true_eq] at h
    subst h
    exact h'
  | cons e es ih =>
    simp only [List.cons_append, framedFrom] at h ⊢
    cases hp : p.next e with
    | none => simp [hp] at h
    | some q => simp only [hp] at h ⊢; exact ih q h

/-- The shape of a read frame is that of every other. -/
theorem shape_readFrame (a : Byte) (x : AtEnd) :
    (readFrame a x).map Micro.shape = (readFrame 0 .nothing).map Micro.shape := rfl

theorem shape_writeFrame (a : Byte) (src : ByteSource) (x : AtEnd) :
    (writeFrame a src x).map Micro.shape = (writeFrame 0 (.lit 0) .nothing).map Micro.shape := rfl

theorem framed_readFrame (a : Byte) (x : AtEnd) : framed ((readFrame a x).map Micro.shape) = true := by
  have : framed ((readFrame 0 .nothing).map Micro.shape) = true := by decide +kernel
  rw [shape_readFrame]; exact this

theorem framed_writeFrame (a : Byte) (src : ByteSource) (x : AtEnd) :
    framed ((writeFrame a src x).map Micro.shape) = true := by
  have : framed ((writeFrame 0 (.lit 0) .nothing).map Micro.shape) = true := by decide +kernel
  rw [shape_writeFrame]; exact this

theorem framed_append {es fs : List Event} (h : framed es = true) (h' : framed fs = true) :
    framed (es ++ fs) = true := framedFrom_append es fs .closed h h'

theorem framed_guardedWrite (c : Cfg) (a : Byte) (src : ByteSource) (x : AtEnd) :
    framed ((guardedWrite c a src x).map Micro.shape) = true := by
  rw [guardedWrite, List.map_append, List.map_append]
  exact framed_append (framed_append (framed_writeFrame ..) (framed_writeFrame ..)) (framed_writeFrame ..)

end Sys2Proof.Machine
end

