-- ==== Sys2Proof/Laws/Stores.lean ====
section
/-! SUPPORT. Where frames store, on every kind of peripheral (20_memory.md R53, R60, R68 to R70, R74). -/

namespace Sys2Proof.Machine

/-! ### A chip that keeps time -/

/-- Ticking reaches only the calendar registers (R74). -/
theorem Chip.tick_other (c : Cfg) (ev : Nat) (p : Chip) {k : Nat} (hk : ∀ f, k ≠ (fieldAddr c f).toNat) :
    Memory.read (p.tick c ev).cells k = Memory.read p.cells k := by
  simp only [Chip.tick, snapshotOrder, List.foldl_cons, List.foldl_nil, Chip.setCell, regAddr,
    Memory.read_write_other _ _ _ _ (hk _)]

theorem Chip.sinceLastFrame_reference {c : Cfg} {ev : Nat} {p : Chip} (h : p.kind = .reference) :
    p.sinceLastFrame c ev = p := by simp [Chip.sinceLastFrame, h]

/-- While the oscillator is halted nothing changes (R74). -/
theorem Chip.sinceLastFrame_halted {c : Cfg} {ev : Nat} {p : Chip}
    (h : clockHalted c (p.cell c (.field .second)) = true) : p.sinceLastFrame c ev = p := by
  simp only [Chip.sinceLastFrame, h, if_true]; split <;> rfl

/-- Between two frames at most the calendar registers change (R74). -/
theorem Chip.sinceLastFrame_other (c : Cfg) (ev : Nat) (p : Chip) {k : Nat}
    (hk : p.kind = .ticking → ∀ f, k ≠ (fieldAddr c f).toNat) :
    Memory.read (p.sinceLastFrame c ev).cells k = Memory.read p.cells k := by
  simp only [Chip.sinceLastFrame]
  split
  · rename_i h
    split
    · rfl
    · exact Chip.tick_other c ev p (hk h)
  · rfl

/-! ### Frames on a modelled peripheral -/

theorem Chip.opened_cells (c : Cfg) (ev : Nat) (p : Chip) :
    (p.opened c ev).cells = (p.sinceLastFrame c ev).cells := rfl

/-- What a write frame makes of the store, ticks included (R68, R70, R74). -/
theorem Chip.wroteFrame_store (c : Cfg) (ev : Nat) (a b : Byte) (p : Chip) :
    (p.wroteFrame c ev a b).cells = frameCells c a b (p.sinceLastFrame c ev).cells := by
  simp only [Chip.wroteFrame, frameCells]
  split
  · rfl
  · rw [Chip.commit_cells]; rfl

/-- `frameStores` is where `frameCells` stores. -/
theorem frameCells_outside {c : Cfg} (a b : Byte) (m : Memory) {k : Nat} (hk : k ∉ frameStores a) :
    Memory.read (frameCells c a b m) k = Memory.read m k := by
  by_cases h : isReadAddr a = true
  · simp [frameCells, h]
  · exact frameCells_other a b m (by simpa [frameStores, h] using hk)

/-- A write frame stores only at its address (R60 (d), R74). -/
theorem Chip.wroteFrame_other (c : Cfg) (ev : Nat) (a b : Byte) (p : Chip) {k : Nat} (hk : k ∉ frameStores a)
    (ht : p.kind = .ticking → ∀ f, k ≠ (fieldAddr c f).toNat) :
    Memory.read (p.wroteFrame c ev a b).cells k = Memory.read p.cells k := by
  rw [Chip.wroteFrame_store, frameCells_outside _ _ _ hk, Chip.sinceLastFrame_other _ _ _ ht]

/-- A read frame stores only at its address, and there only at a write address (R69, R74, U3). -/
theorem Chip.AfterRead.store {c : Cfg} {ev : Nat} {a : Byte} {p q : Chip} (h : p.AfterRead c ev a q)
    (hk : p.kind ≠ .external) : ∃ v, q.cells = frameCells c a v (p.sinceLastFrame c ev).cells := by
  simp only [Chip.AfterRead, hk, if_false] at h
  split at h
  · rename_i hr
    exact ⟨0, by rw [h]; simp [frameCells, hr, Chip.opened_cells]⟩
  · rename_i hr
    obtain ⟨v, h⟩ := h
    exact ⟨v, by rw [h, Chip.commit_cells]; simp [frameCells, hr, Chip.opened_cells]⟩

theorem Chip.AfterRead.other {c : Cfg} {ev : Nat} {a : Byte} {p q : Chip} (h : p.AfterRead c ev a q) {k : Nat}
    (hk : k ∉ frameStores a) (ht : p.kind = .ticking → ∀ f, k ≠ (fieldAddr c f).toNat) :
    Memory.read q.cells k = Memory.read p.cells k := by
  by_cases he : p.kind = .external
  · rw [h.external he]
  · obtain ⟨v, e⟩ := h.store he
    rw [e, frameCells_outside _ _ _ hk, Chip.sinceLastFrame_other _ _ _ ht]

/-! ### Registers that no chip advances by itself (R74) -/

/-- A register that is not of the calendar is as it was when the next frame begins. -/
theorem cellOf_sinceLastFrame {c : Cfg} (hc : CfgOk c) (ev : Nat) (p : Chip) {x : Reg} (hx : x ∈ regMap c)
    (hf : ∀ f, x ≠ .field f) : cellOf c (p.sinceLastFrame c ev).cells x = cellOf c p.cells x := by
  rw [cellOf, Chip.sinceLastFrame_other _ _ _ fun _ f => regAddr_ne hc hx (mem_regMap_field c f) (hf f), cellOf]

/-- A guarded write leaves `WP_ON` in `WP` on every modelled peripheral (R132). -/
theorem guardWrote_wp_modelled {s : State} (hk : s.chip.kind ≠ .external) (hc : CfgOk s.cfg) (a b : Byte) :
    (s.guardWrote a b).cell s.cfg .wp = s.cfg.wpOn := by
  rw [Chip.cell_eq, State.guardWrote, if_neg hk, Chip.wroteFrame_store, frameCells_wp hc]
  exact cellOf_write_same s.cfg _ .wp _

/-- A guarded write at a register that no chip advances by itself puts its byte there (R59, R132). -/
theorem guardWrote_cell_modelled {s : State} (hk : s.chip.kind ≠ .external) (hc : CfgOk s.cfg)
    (ho : protects s.cfg.wpOff = false) {a : Byte} (b : Byte) {x : Reg} (he : isReadAddr a = false)
    (hd : decodeAddr s.cfg a = some x) (hx : x ≠ .wp) (hf : ∀ f, x ≠ .field f) :
    (s.guardWrote a b).cell s.cfg x = b := by
  have hm := (decodeAddr_some hd).1
  rw [Chip.cell_eq, State.guardWrote, if_neg hk, Chip.wroteFrame_store, frameCells_wp hc,
    cellOf_write_other _ (show _ ≠ s.cfg.addrWp.toNat from regAddr_ne hc hm (mem_regMap_wp _) hx),
    cellOf_sinceLastFrame hc _ _ hm hf, Chip.wroteFrame_store]
  have hw : ∀ ev (p : Chip), cellOf s.cfg ((p.wroteFrame s.cfg ev s.cfg.addrWp s.cfg.wpOff).sinceLastFrame s.cfg (s.events + 52)).cells .wp =
      s.cfg.wpOff := fun ev p => by
    rw [cellOf_sinceLastFrame hc _ _ (mem_regMap_wp _) (by simp), Chip.wroteFrame_store, frameCells_wp hc]
    exact cellOf_write_same s.cfg _ .wp _
  have hp := hw s.events s.chip
  generalize ((s.chip.wroteFrame s.cfg s.events s.cfg.addrWp s.cfg.wpOff).sinceLastFrame s.cfg (s.events + 52)).cells = m at *
  have hcc : commitCells s.cfg a b m = Memory.write m (regAddr s.cfg x).toNat b := by
    simp only [commitCells, hd, hp, ho]; cases x <;> simp_all
  rw [frameCells, he, if_neg (by simp), hcc, cellOf_write_same]

/-- A write frame at `ADDR_WP` reaches `WP`, whatever it held (R59). -/
theorem Chip.wroteFrame_wp {c : Cfg} (hc : CfgOk c) (ev : Nat) (b : Byte) (p : Chip) :
    (p.wroteFrame c ev c.addrWp b).cell c .wp = b := by
  rw [Chip.cell_eq, Chip.wroteFrame_store, frameCells_wp hc]
  exact cellOf_write_same c _ .wp _

/-- With protection off a write frame puts its byte in its register, whatever a chip that keeps time has done (R70). -/
theorem Chip.wroteFrame_open {c : Cfg} (hc : CfgOk c) (ev : Nat) {a : Byte} (b : Byte) {p : Chip} {x : Reg}
    (ho : protects (p.cell c .wp) = false) (he : isReadAddr a = false) (hd : decodeAddr c a = some x) :
    (p.wroteFrame c ev a b).cell c x = b := by
  have hp : cellOf c (p.sinceLastFrame c ev).cells .wp = p.cell c .wp :=
    cellOf_sinceLastFrame hc ev p (mem_regMap_wp c) (by simp)
  have e : commitCells c a b (p.sinceLastFrame c ev).cells =
      Memory.write (p.sinceLastFrame c ev).cells (regAddr c x).toNat b := by
    simp only [commitCells, hd, hp, ho]; cases x <;> simp [regAddr]
  rw [Chip.cell_eq, Chip.wroteFrame_store, frameCells, he, if_neg (by simp), e, cellOf_write_same]

/-- While the oscillator is halted a write frame leaves every register but its own (R74). -/
theorem Chip.wroteFrame_halted {c : Cfg} (ev : Nat) {a : Byte} (b : Byte) {p : Chip} {x : Reg}
    (h : clockHalted c (p.cell c (.field .second)) = true) (hx : (regAddr c x).toNat ∉ frameStores a) :
    (p.wroteFrame c ev a b).cell c x = p.cell c x := by
  simp only [Chip.cell]
  rw [Chip.wroteFrame_store, Chip.sinceLastFrame_halted h, frameCells_outside _ _ _ hx]

/-- The address a register of the map is written at is not where a frame at another register stores. -/
theorem regAddr_outside {c : Cfg} (hc : CfgOk c) {a : Byte} {x y : Reg} (hd : decodeAddr c a = some x) (hy : y ∈ regMap c)
    (hn : y ≠ x) : (regAddr c y).toNat ∉ frameStores a := by
  rw [frameStores]
  split
  · simp
  · rename_i he
    rw [List.mem_singleton, ← (writeAddrOf_even a (by simpa [isReadAddr] using he)).1, ← (decodeAddr_some hd).2]
    exact regAddr_ne hc hy (decodeAddr_some hd).1 hn

/-- A guarded write at a calendar register leaves its byte there if the oscillator is halted, before it or by it. -/
theorem guardWrote_field_halted {s : State} (hk : s.chip.kind ≠ .external) (hc : CfgOk s.cfg)
    (ho : protects s.cfg.wpOff = false) {a : Byte} (b : Byte) {f : Field} (he : isReadAddr a = false)
    (hd : decodeAddr s.cfg a = some (.field f))
    (h : f ≠ .second ∧ clockHalted s.cfg (s.chip.cell s.cfg (.field .second)) = true ∨
      f = .second ∧ clockHalted s.cfg b = true) : (s.guardWrote a b).cell s.cfg (.field f) = b := by
  have wp : ∀ g, (regAddr s.cfg (.field g)).toNat ∉ frameStores s.cfg.addrWp := fun g =>
    regAddr_outside hc (reached hc (mem_regMap_wp _)).1 (mem_regMap_field _ g) (by simp)
  rw [State.guardWrote, if_neg hk]
  generalize h1 : s.chip.wroteFrame s.cfg s.events s.cfg.addrWp s.cfg.wpOff = p
  have hp : p.cell s.cfg .wp = s.cfg.wpOff := by rw [← h1, Chip.wroteFrame_wp hc]
  have h2 := Chip.wroteFrame_open hc (s.events + 52) b (hp ▸ ho) he hd
  rw [Chip.wroteFrame_halted _ _ ?_ (wp f), h2]
  rcases h with ⟨hf, hh⟩ | ⟨rfl, hh⟩
  · have e1 : p.cell s.cfg (.field .second) = s.chip.cell s.cfg (.field .second) := by
      rw [← h1, Chip.wroteFrame_halted _ _ hh (wp .second)]
    rw [Chip.wroteFrame_halted _ _ (e1 ▸ hh) (regAddr_outside hc hd (mem_regMap_field _ .second) ?_), e1, hh]
    simpa using fun e => hf e.symm
  · rw [h2, hh]

/-! ### In the terms of statements -/

/-- A peripheral whose store differs only inside `as`, whatever its kind. -/
theorem State.StoresOnlyAt.of {s : State} {as : List Nat} {p : Chip} (kind : p.kind = s.chip.kind)
    (ext : s.chip.kind = .external → p = s.chip)
    (h : ∀ k, k ∉ as → (s.chip.kind = .ticking → ∀ f, k ≠ (fieldAddr s.cfg f).toNat) →
      Memory.read p.cells k = Memory.read s.chip.cells k) : s.StoresOnlyAt as p :=
  ⟨kind, ext, fun hr k hk => h k hk (by simp [hr]), fun _ k hk hf => h k hk fun _ => hf⟩

theorem State.StoresOnlyAt.read {s : State} {as : List Nat} {p : Chip} (h : s.StoresOnlyAt as p) {k : Nat} (hk : k ∉ as)
    (ht : s.chip.kind = .ticking → ∀ f, k ≠ (fieldAddr s.cfg f).toNat) :
    Memory.read p.cells k = Memory.read s.chip.cells k := by
  cases e : s.chip.kind with
  | reference => exact h.reference e k hk
  | ticking => exact h.ticking e k hk (ht e)
  | external => rw [h.external e]

theorem State.StoresOnlyAt.self (s : State) (as : List Nat) : s.StoresOnlyAt as s.chip :=
  .of rfl (fun _ => rfl) fun _ _ _ => rfl

/-- One sequence of frames after another. -/
theorem State.StoresOnlyAt.trans {s u : State} {as bs : List Nat} {p : Chip} (h : s.StoresOnlyAt as u.chip)
    (h' : u.StoresOnlyAt bs p) (hc : u.cfg = s.cfg) : s.StoresOnlyAt (as ++ bs) p := by
  refine .of (h'.kind.trans h.kind) (fun e => (h'.external (h.kind.trans e)).trans (h.external e)) fun k hk ht => ?_
  rw [List.mem_append, not_or] at hk
  rw [h'.read hk.2 (by rw [h.kind, hc]; exact ht), h.read hk.1 ht]

/-- A read frame (R130). -/
theorem Chip.AfterRead.leaves {s : State} {a : Byte} {p : Chip} (h : s.chip.AfterRead s.cfg s.events a p) :
    s.ReadLeaves a p := by
  refine ⟨.of h.kind h.external fun k hk ht => h.other hk ht, fun hr ha => ?_, fun hr ha => ?_⟩ <;>
    obtain ⟨v, e⟩ := h.store (by simp [hr]) <;> rw [Chip.sinceLastFrame_reference hr] at e
  · rw [e]; simp [frameCells, ha]
  · exact ⟨v, by rw [e, Chip.commit_cells]; simp [frameCells, ha]⟩

/-- A write frame (R131). -/
theorem State.frameWrote_leaves (s : State) (a b : Byte) : s.WriteLeaves a b (s.frameWrote a b) := by
  refine ⟨.of (s.frameWrote_kind a b) (fun h => s.frameWrote_external h a b) fun k hk ht => ?_, fun hr ha => ?_,
    fun hr ha => ?_⟩
  · by_cases he : s.chip.kind = .external
    · rw [State.frameWrote_external he]
    · rw [State.frameWrote, if_neg he, Chip.wroteFrame_other _ _ _ _ _ hk ht]
  · rw [State.frameWrote_cells hr]; simp [frameCells, ha]
  · rw [State.frameWrote_cells hr, Chip.commit_cells]; simp [frameCells, ha]

/-- A guarded write (R132). -/
theorem State.guardWrote_stores (s : State) (a b : Byte) : s.StoresOnlyAt (guardedStores s.cfg a) (s.guardWrote a b) := by
  refine .of (s.guardWrote_kind a b) (fun h => s.guardWrote_external h a b) fun k hk ht => ?_
  rw [guardedStores, List.mem_append, not_or] at hk
  by_cases he : s.chip.kind = .external
  · rw [State.guardWrote_external he]
  · rw [State.guardWrote, if_neg he, Chip.wroteFrame_other _ _ _ _ _ hk.1, Chip.wroteFrame_other _ _ _ _ _ hk.2,
      Chip.wroteFrame_other _ _ _ _ _ hk.1 ht] <;> simpa only [Chip.wroteFrame_kind] using ht

/-! ### Sequences of frames -/

/-- The line events `ops` leave a state that more frames can follow, and store only at `as`. -/
def StoresAt (c : Cfg) (ops : List Micro) (as : List Nat) : Prop :=
  ∀ s : State, s.Framing → s.cfg = c → ∃ u, runAll ops s = .done u ∧ u.Framing ∧ u.cfg = c ∧ s.StoresOnlyAt as u.chip

theorem StoresAt.append {c : Cfg} {xs ys : List Micro} {as bs : List Nat} (h : StoresAt c xs as) (h' : StoresAt c ys bs) :
    StoresAt c (xs ++ ys) (as ++ bs) := by
  intro s hs hc
  obtain ⟨u, r, hu, cu, st⟩ := h s hs hc
  obtain ⟨v, r', hv, cv, st'⟩ := h' u hu cu
  exact ⟨v, by rw [runAll_append_done r, r'], hv, cv, st.trans st' (cu.trans hc.symm)⟩

theorem StoresAt.flatMap {α : Type} {c : Cfg} {ops : α → List Micro} {as : α → List Nat} (l : List α)
    (h : ∀ x, StoresAt c (ops x) (as x)) : StoresAt c (l.flatMap ops) (l.flatMap as) := by
  induction l with
  | nil => exact fun s hs hc => ⟨s, rfl, hs, hc, .self s _⟩
  | cons x l ih => exact (h x).append ih

theorem AtEnd.keepIn_chip (s : State) (x : AtEnd) : (x.keepIn s).chip = s.chip := by cases x <;> rfl

theorem AtEnd.keepIn_framing {s : State} (h : s.Framing) (x : AtEnd) : (x.keepIn s).Framing := by
  cases x <;> exact ⟨h.faults, h.clkDir, h.clkLvl, h.csDir, h.csLvl⟩

theorem AtEnd.keepIn_cfg (s : State) (x : AtEnd) : (x.keepIn s).cfg = s.cfg := by cases x <;> rfl

theorem storesAt_readFrame (c : Cfg) (a : Byte) (x : AtEnd) : StoresAt c (readFrame a x) (frameStores a) := by
  intro s hs hc
  obtain ⟨p, r, q⟩ := runAll_readFrame_eq s hs a x
  refine ⟨_, r, AtEnd.keepIn_framing (s := { s.afterReadFrame a _ _ p with upc := s.upc + 52 })
    ⟨hs.faults, rfl, rfl, rfl, rfl⟩ x, (AtEnd.keepIn_cfg _ x).trans hc, ?_⟩
  rw [AtEnd.keepIn_chip]
  exact q.leaves.stores

theorem storesAt_writeFrame (c : Cfg) (a : Byte) (src : ByteSource) (x : AtEnd) :
    StoresAt c (writeFrame a src x) (frameStores a) := by
  intro s hs hc
  refine ⟨_, runAll_writeFrame_eq s hs a src x, AtEnd.keepIn_framing (s := { s.afterWriteFrame a _ _ with upc := s.upc + 52 })
    ⟨hs.faults, rfl, rfl, rfl, rfl⟩ x, (AtEnd.keepIn_cfg _ x).trans hc, ?_⟩
  rw [AtEnd.keepIn_chip]
  exact (s.frameWrote_leaves a (src.value s)).stores

theorem storesAt_guardedWrite (c : Cfg) (a : Byte) (src : ByteSource) (x : AtEnd) :
    StoresAt c (guardedWrite c a src x) (guardedStores c a) := by
  intro s hs hc
  subst hc
  refine ⟨_, runAll_guardedWrite s hs a src x,
    AtEnd.keepIn_framing (s := { s.afterGuardedWrite a _ _ with upc := s.upc + 156 })
      ⟨hs.faults, rfl, rfl, rfl, rfl⟩ x, AtEnd.keepIn_cfg _ x, ?_⟩
  rw [AtEnd.keepIn_chip]
  exact s.guardWrote_stores a (src.value s)

/-- The first two frames of a guarded write put its byte in its register, if `WP_OFF` lifts protection (R132). -/
theorem runAll_openWrite {s : State} (hs : s.Framing) (hk : s.chip.kind ≠ .external) (hc : CfgOk s.cfg)
    (ho : protects s.cfg.wpOff = false) {a : Byte} (src : ByteSource) {x : Reg} (he : isReadAddr a = false)
    (hd : decodeAddr s.cfg a = some x) :
    ∃ u, runAll (writeFrame s.cfg.addrWp (.lit s.cfg.wpOff) .nothing ++ writeFrame a src .nothing) s = .done u ∧
      u.chip.cell s.cfg x = src.value s := by
  have r1 := runAll_writeFrame_eq s hs s.cfg.addrWp (.lit s.cfg.wpOff) .nothing
  generalize hv : AtEnd.keepIn _ AtEnd.nothing = v at r1
  have fv : v.Framing := by subst hv; exact ⟨hs.faults, rfl, rfl, rfl, rfl⟩
  have cv : v.cfg = s.cfg := by subst hv; rfl
  have sv : src.value v = src.value s := by subst hv; cases src <;> rfl
  have pv : v.chip = s.chip.wroteFrame s.cfg s.events s.cfg.addrWp s.cfg.wpOff := by
    subst hv; show s.frameWrote _ _ = _; rw [State.frameWrote, if_neg hk]; rfl
  refine ⟨_, by rw [runAll_append_done r1]; exact runAll_writeFrame_eq v fv a src .nothing, ?_⟩
  show (v.frameWrote a (src.value v)).cell s.cfg x = _
  rw [State.frameWrote, if_neg (by rw [pv, Chip.wroteFrame_kind]; exact hk), cv, pv, sv]
  exact Chip.wroteFrame_open hc _ _ (by rw [Chip.wroteFrame_wp hc]; exact ho) he hd

/-- Every operation made of frames stores only where `storedAt` says. -/
theorem storesAt_microOps (c : Cfg) (i : Instr) (hi : isFramed i = true) : StoresAt c (microOps c i) (storedAt c i) := by
  have hr : ∀ a x, StoresAt c (readFrame a x) (frameStores a) := fun a x => storesAt_readFrame c a x
  have hg : ∀ a src x, StoresAt c (guardedWrite c a src x) (guardedStores c a) := fun a src x =>
    storesAt_guardedWrite c a src x
  cases i with
  | init => cases hi
  | writeByte b => cases hi
  | readByte => cases hi
  | dec2bcd n => cases hi
  | bcd2dec n => cases hi
  | setReg a b => exact storesAt_writeFrame c a _ _
  | getReg a => exact hr a _
  | readRam idx => exact hr _ _
  | getSecond => exact hr _ _
  | getMinute => exact hr _ _
  | getHour => exact hr _ _
  | getDay => exact hr _ _
  | getMonth => exact hr _ _
  | getWeekday => exact hr _ _
  | getYear => exact hr _ _
  | wpWrite a b => exact hg a _ _
  | writeRam idx b => exact hg _ _ _
  | setSecond v => exact hg _ _ _
  | setMinute v => exact hg _ _ _
  | setHour v => exact hg _ _ _
  | setDay v => exact hg _ _ _
  | setMonth v => exact hg _ _ _
  | setWeekday v => exact hg _ _ _
  | setYear v => exact hg _ _ _
  | start => exact (hr _ _).append (hg _ _ _)
  | stop => exact (hr _ _).append (hg _ _ _)
  | getDatetime => exact StoresAt.flatMap snapshotOrder fun f => hr _ _
  | setDatetime y mo d wd h mi sec =>
    have e : microOps c (.setDatetime y mo d wd h mi sec) =
        snapshotOrder.flatMap fun f => fieldWrite c f (tupleOf y mo d wd h mi sec f) := by
      simp [microOps, setDatetimeOps, snapshotOrder, tupleOf]
    rw [e]
    exact StoresAt.flatMap snapshotOrder fun f => hg _ _ _

/-! ### INIT and the transport -/

/-- With `CS` low the four events of `INIT` change no register (R220). -/
theorem State.idling_cells {s : State} (h2 : s.cs.dir = .out) (h4 : s.cs.lvl = .driven false) : s.idling.chip.cells = s.chip.cells := by
  have hcs : ∀ u : State, ∀ p : Pin, p.wire = some false → (u.chipAfter .cs p).cells = u.chip.cells := by
    intro u p hp
    cases hk : u.chip.kind <;> simp [State.chipAfter, hp, hk, Chip.csFall]
  have c2 : ((s.applyDir .cs .out).applySet .cs false).cs = Pin.driving false := by
    simp [State.applyDir, State.applySet, State.moveLine, State.setPin, State.stamp, State.pin, Pin.turn_drive]
  have c3 : (((s.applyDir .cs .out).applySet .cs false).applyDir .clk .out).cs = Pin.driving false := c2
  rw [State.idling, State.applySet_chip, State.chipAfter_clk_low c3, State.applyDir_chip, State.chipAfter_clk_low c2,
    State.applySet_chip, hcs _ _ (by
      simp [State.applyDir, State.moveLine, State.setPin, State.stamp, State.pin, Pin.turn, h2, Pin.drive, Pin.wire]),
    State.applyDir_chip, hcs _ _ (by simp [Pin.turn, State.pin, h2, Pin.wire, h4])]

end Sys2Proof.Machine
end

