-- ==== Sys2Proof/Tests/Slice0.lean ====
section
/-! SUPPORT. The model's own tests. Expected values are those of spec/95_test_vectors.md, by the number of the vector. -/

namespace Sys2Proof.Tests

-- One theorem at a time: a kernel evaluation waits for those before it, and each that waits takes a thread.
set_option Elab.async false

open Sys2Proof.Machine

/-! ### Helpers -/

/-- The state after reset with a register store. -/
def holding (m : Memory) : State := { State.reset with chip := { State.reset.chip with cells := m } }

/-- One step of that state at a command word. -/
def run (w : Nat) (m : Memory) : Host.Outcome State Fault Refusal := step ((holding m).withFetchWord 128 w)

/-- What is asked of the next state, if there is one. -/
def ask {α : Type} (f : State → α) : Host.Outcome State Fault Refusal → Option α
  | .next t => some (f t)
  | .fault _ => none
  | .refused _ => none

/-- The response word (R93). -/
def answer : Host.Outcome State Fault Refusal → Option (BitVec 114) := ask fun t => t.rsp.word

/-- The register store. -/
def store : Host.Outcome State Fault Refusal → Option Memory := ask fun t => t.chip.cells

/-- The line events, the oldest first. -/
def events : Host.Outcome State Fault Refusal → Option (List Event) := ask fun t => t.trace.reverse

/-- A frame in the notation of the vectors: address and data byte. -/
def wrote (a b : Byte) : List Event := writeFrameEvents a b
def read (a b : Byte) : List Event := readFrameEvents a b

/-! ### WellFormed: an ill-formed configuration for each check (R6) -/

theorem test_wf_refuses_odd_address : Cfg.addrsEven { Cfg.default with addrHour := 0x85 } = false ∧ Cfg.wf { Cfg.default with addrHour := 0x85 } = false := by decide +kernel
theorem test_wf_refuses_equal_addresses : Cfg.nonRamDistinct { Cfg.default with addrMinute := 0x80 } = false ∧ Cfg.wf { Cfg.default with addrMinute := 0x80 } = false := by decide +kernel
theorem test_wf_refuses_odd_stride : Cfg.strideOk { Cfg.default with ramStride := 1 } = false ∧ Cfg.wf { Cfg.default with ramStride := 1 } = false := by decide +kernel
theorem test_wf_refuses_zero_stride : Cfg.strideOk { Cfg.default with ramStride := 0 } = false ∧ Cfg.wf { Cfg.default with ramStride := 0 } = false := by decide +kernel
theorem test_wf_refuses_no_ram_cell : Cfg.ramFits { Cfg.default with ramCells := 0 } = false ∧ Cfg.wf { Cfg.default with ramCells := 0 } = false := by decide +kernel
theorem test_wf_refuses_ram_past_255 : Cfg.ramFits { Cfg.default with ramCells := 33 } = false ∧ Cfg.wf { Cfg.default with ramCells := 33 } = false := by decide +kernel
theorem test_wf_refuses_ram_over_register : Cfg.ramDisjoint { Cfg.default with addrRam := 0x86 } = false ∧ Cfg.wf { Cfg.default with addrRam := 0x86 } = false := by decide +kernel
theorem test_wf_refuses_read_offset_2 : Cfg.readOffsetOne { Cfg.default with readOffset := 2 } = false ∧ Cfg.wf { Cfg.default with readOffset := 2 } = false := by decide +kernel
theorem test_wf_refuses_zero_modulus : Cfg.moduliOk { Cfg.default with mDay := 0 } = false ∧ Cfg.wf { Cfg.default with mDay := 0 } = false := by decide +kernel
theorem test_wf_refuses_modulus_101 : Cfg.moduliOk { Cfg.default with mYear := 101 } = false ∧ Cfg.wf { Cfg.default with mYear := 101 } = false := by decide +kernel
theorem test_wf_refuses_year_past_16_bits : Cfg.yearFits { Cfg.default with yearBase := 65437 } = false ∧ Cfg.wf { Cfg.default with yearBase := 65437 } = false := by decide +kernel
theorem test_wf_refuses_w_int_8 : Cfg.widthsOk { Cfg.default with wInt := 8 } = false ∧ Cfg.wf { Cfg.default with wInt := 8 } = false := by decide +kernel
theorem test_wf_refuses_w_cmd_64 : Cfg.widthsOk { Cfg.default with wCmd := 64 } = false ∧ Cfg.wf { Cfg.default with wCmd := 64 } = false := by decide +kernel
theorem test_wf_accepts_a_full_ram : Cfg.wf { Cfg.default with ramCells := 32 } = true := by decide +kernel

/-! ### Illegal words (V70) and the extremes that are legal (V71) -/

theorem test_illegal_reserved_op_0A : decode 0x0A000000000000000000000000000000#128 = .error .reservedOpcode ∧
    Command.wf 0x0A000000000000000000000000000000#128 = false := ⟨rfl, rfl⟩
theorem test_illegal_reserved_op_22 : decode 0x22000000000000000000000000000000#128 = .error .reservedOpcode ∧
    Command.wf 0x22000000000000000000000000000000#128 = false := ⟨rfl, rfl⟩
theorem test_illegal_reserved_op_FF : decode 0xFF000000000000000000000000000000#128 = .error .reservedOpcode ∧
    Command.wf 0xFF000000000000000000000000000000#128 = false := ⟨rfl, rfl⟩
theorem test_illegal_rsv_1 : decode 0x10010000000000000000000000000000#128 = .error .reservedField ∧
    Command.wf 0x10010000000000000000000000000000#128 = false := ⟨rfl, rfl⟩
theorem test_illegal_init_payload : decode 0x00000000000000000000000000000001#128 = .error .payloadBit ∧
    Command.wf 0x00000000000000000000000000000001#128 = false := ⟨rfl, rfl⟩
theorem test_illegal_get_reg_bit_8 : decode 0x03000000000000000000000000000181#128 = .error .payloadBit ∧
    Command.wf 0x03000000000000000000000000000181#128 = false := ⟨rfl, rfl⟩
theorem test_illegal_write_byte_bit_0 : decode 0x01000000000000000000000000B20001#128 = .error .payloadBit ∧
    Command.wf 0x01000000000000000000000000B20001#128 = false := ⟨rfl, rfl⟩
theorem test_illegal_set_second_bit_16 : decode 0x1800000000000000000000000001004B#128 = .error .payloadBit ∧
    Command.wf 0x1800000000000000000000000001004B#128 = false := ⟨rfl, rfl⟩
theorem test_illegal_answer : answer (run 0x03000000000000000000000000000181 []) =
      some 0x10000000000000000000000000000#114 ∧
    events (run 0x03000000000000000000000000000181 []) = some [] := by decide +kernel
theorem test_legal_extremes : decode 0x1800000000000000000000000000FFFF#128 = .ok (.setSecond 65535) ∧
    decode 0x030000000000000000000000000000FF#128 = .ok (.getReg 0xFF) ∧
    decode 0x21000000000000000000000000FFFFFF#128 = .ok (.writeRam 65535 0xFF) := ⟨rfl, rfl, rfl⟩

/-! ### Decoding: a word for every operation, its fields written out (R91, R92, R95): code, rsv, payload -/

theorem test_decode_init : decode (0x00#8 ++ 0x00#8 ++ 0x0000000000000000000000000000#112) = .ok .init := rfl
theorem test_decode_write_byte : decode (0x01#8 ++ 0x00#8 ++ 0x0000000000000000000000B20000#112) = .ok (.writeByte 0xB2) := rfl
theorem test_decode_read_byte : decode (0x02#8 ++ 0x00#8 ++ 0x0000000000000000000000000000#112) = .ok .readByte := rfl
theorem test_decode_get_reg : decode (0x03#8 ++ 0x00#8 ++ 0x0000000000000000000000000081#112) = .ok (.getReg 0x81) := rfl
theorem test_decode_set_reg : decode (0x04#8 ++ 0x00#8 ++ 0x0000000000000000000000450080#112) = .ok (.setReg 0x80 0x45) := rfl
theorem test_decode_wp_write : decode (0x05#8 ++ 0x00#8 ++ 0x0000000000000000000000150080#112) = .ok (.wpWrite 0x80 0x15) := rfl
theorem test_decode_start : decode (0x06#8 ++ 0x00#8 ++ 0x0000000000000000000000000000#112) = .ok .start := rfl
theorem test_decode_stop : decode (0x07#8 ++ 0x00#8 ++ 0x0000000000000000000000000000#112) = .ok .stop := rfl
theorem test_decode_dec2bcd : decode (0x08#8 ++ 0x00#8 ++ 0x000000000000000000000000002D#112) = .ok (.dec2bcd 45) := rfl
theorem test_decode_bcd2dec : decode (0x09#8 ++ 0x00#8 ++ 0x0000000000000000000000000045#112) = .ok (.bcd2dec 0x45) := rfl
theorem test_decode_get_second : decode (0x10#8 ++ 0x00#8 ++ 0x0000000000000000000000000000#112) = .ok .getSecond := rfl
theorem test_decode_get_minute : decode (0x11#8 ++ 0x00#8 ++ 0x0000000000000000000000000000#112) = .ok .getMinute := rfl
theorem test_decode_get_hour : decode (0x12#8 ++ 0x00#8 ++ 0x0000000000000000000000000000#112) = .ok .getHour := rfl
theorem test_decode_get_day : decode (0x13#8 ++ 0x00#8 ++ 0x0000000000000000000000000000#112) = .ok .getDay := rfl
theorem test_decode_get_month : decode (0x14#8 ++ 0x00#8 ++ 0x0000000000000000000000000000#112) = .ok .getMonth := rfl
theorem test_decode_get_weekday : decode (0x15#8 ++ 0x00#8 ++ 0x0000000000000000000000000000#112) = .ok .getWeekday := rfl
theorem test_decode_get_year : decode (0x16#8 ++ 0x00#8 ++ 0x0000000000000000000000000000#112) = .ok .getYear := rfl
theorem test_decode_get_datetime : decode (0x17#8 ++ 0x00#8 ++ 0x0000000000000000000000000000#112) = .ok .getDatetime := rfl
theorem test_decode_set_second : decode (0x18#8 ++ 0x00#8 ++ 0x000000000000000000000000004B#112) = .ok (.setSecond 75) := rfl
theorem test_decode_set_minute : decode (0x19#8 ++ 0x00#8 ++ 0x0000000000000000000000000077#112) = .ok (.setMinute 119) := rfl
theorem test_decode_set_hour : decode (0x1A#8 ++ 0x00#8 ++ 0x0000000000000000000000000019#112) = .ok (.setHour 25) := rfl
theorem test_decode_set_day : decode (0x1B#8 ++ 0x00#8 ++ 0x0000000000000000000000000021#112) = .ok (.setDay 33) := rfl
theorem test_decode_set_month : decode (0x1C#8 ++ 0x00#8 ++ 0x000000000000000000000000000D#112) = .ok (.setMonth 13) := rfl
theorem test_decode_set_weekday : decode (0x1D#8 ++ 0x00#8 ++ 0x0000000000000000000000000008#112) = .ok (.setWeekday 8) := rfl
theorem test_decode_set_year : decode (0x1E#8 ++ 0x00#8 ++ 0x00000000000000000000000007E8#112) = .ok (.setYear 2024) := rfl
theorem test_decode_set_datetime : decode (0x1F#8 ++ 0x00#8 ++ 0x001E002D000D0005000F000307E8#112) = .ok (.setDatetime 2024 3 15 5 13 45 30) := rfl
theorem test_decode_read_ram : decode (0x20#8 ++ 0x00#8 ++ 0x0000000000000000000000000024#112) = .ok (.readRam 36) := rfl
theorem test_decode_write_ram : decode (0x21#8 ++ 0x00#8 ++ 0x0000000000000000000000CD0024#112) = .ok (.writeRam 36 0xCD) := rfl

/-! ### One step of every operation -/

/-- R38: after WRITE_BYTE 0xB2 the ports show CLK and CS low, DIO an output at the byte's bit 7, and the response. -/
theorem test_ports : (run 0x01000000000000000000000000B20000 [] |> ask State.ports) =
    some { clkPin := some false, csPin := some false, dioOut := .driven true, dioOe := true,
           busy := false, rsp := 0, rspValid := true } := by decide +kernel

/-- V80: from power-up. -/
theorem test_init : (exec .init State.powerUp |> ask fun t => (t.trace.reverse, t.clk, t.cs, t.dio)) =
    some ([.dir .cs .out, .set .cs false, .dir .clk .out, .set .clk false], Pin.driving false, Pin.driving false,
      Pin.floating) := by decide +kernel

/-- V10, event by event. -/
theorem test_write_byte : events (run 0x01000000000000000000000000B20000 []) = some
    [.dir .dio .out,
     .set .dio false, .set .clk true, .set .clk false, .set .dio true, .set .clk true, .set .clk false,
     .set .dio false, .set .clk true, .set .clk false, .set .dio false, .set .clk true, .set .clk false,
     .set .dio true, .set .clk true, .set .clk false, .set .dio true, .set .clk true, .set .clk false,
     .set .dio false, .set .clk true, .set .clk false, .set .dio true, .set .clk true, .set .clk false] := by
  decide +kernel

/-- V11: the levels 0,1,0,0,1,1,0,1 at the port give `0xB2`. -/
theorem test_read_byte : answer (exec .readByte
    { holding [] with dioIn := [false, true, false, false, true, true, false, true] }) =
    some 0x000000000000000000000000000B2#114 := by decide +kernel

/-- V12: the first sample is bit 0. -/
theorem test_read_byte_first_sample : answer (exec .readByte
    { holding [] with dioIn := [true, false, false, false, false, false, false, false] }) =
    some 0x00000000000000000000000000001#114 := by decide +kernel

/-- V20, event by event. -/
theorem test_get_reg : events (run 0x03000000000000000000000000000081 [(0x80, 0x15)]) = some
    [.set .cs true, .dir .dio .out,
     .set .dio true, .set .clk true, .set .clk false, .set .dio false, .set .clk true, .set .clk false,
     .set .dio false, .set .clk true, .set .clk false, .set .dio false, .set .clk true, .set .clk false,
     .set .dio false, .set .clk true, .set .clk false, .set .dio false, .set .clk true, .set .clk false,
     .set .dio false, .set .clk true, .set .clk false, .set .dio true, .set .clk true, .set .clk false,
     .dir .dio .inp,
     .get .dio true, .set .clk true, .set .clk false, .get .dio false, .set .clk true, .set .clk false,
     .get .dio true, .set .clk true, .set .clk false, .get .dio false, .set .clk true, .set .clk false,
     .get .dio true, .set .clk true, .set .clk false, .get .dio false, .set .clk true, .set .clk false,
     .get .dio false, .set .clk true, .set .clk false, .get .dio false, .set .clk true, .set .clk false,
     .set .cs false] := by decide +kernel
theorem test_get_reg_answer : answer (run 0x03000000000000000000000000000081 [(0x80, 0x15)]) =
    some 0x00000000000000000000000000015#114 := by decide +kernel

/-- V21: `WP` is written although protection is on. -/
theorem test_set_reg : store (run 0x0400000000000000000000000000008E [(0x8E, 0x80)]) = some [(0x8E, 0x00)] ∧
    events (run 0x0400000000000000000000000000008E [(0x8E, 0x80)]) = some (wrote 0x8E 0x00) := by decide +kernel

/-- V22: protection refuses every other register. -/
theorem test_set_reg_refused : store (run 0x04000000000000000000000000450080 [(0x80, 0x30), (0x8E, 0x80)]) =
    some [(0x80, 0x30), (0x8E, 0x80)] := by decide +kernel

/-- V30. -/
theorem test_wp_write : store (run 0x05000000000000000000000000150080 [(0x8E, 0x80)]) =
      some [(0x80, 0x15), (0x8E, 0x80)] ∧
    events (run 0x05000000000000000000000000150080 [(0x8E, 0x80)]) =
      some (wrote 0x8E 0x00 ++ wrote 0x80 0x15 ++ wrote 0x8E 0x80) := by decide +kernel

/-- V30: the target is `WP` itself. -/
theorem test_wp_write_to_wp : store (exec (.wpWrite 0x8E 0x00) (holding [])) = some [(0x8E, 0x80)] := by decide +kernel

/-- V32. -/
theorem test_start : events (run 0x06000000000000000000000000000000 [(0x80, 0xFF)]) =
    some (read 0x81 0xFF ++ wrote 0x8E 0x00 ++ wrote 0x80 0x7F ++ wrote 0x8E 0x80) := by decide +kernel
theorem test_start_store : store (run 0x06000000000000000000000000000000 [(0x80, 0x95)]) =
    some [(0x80, 0x15), (0x8E, 0x80)] := by decide +kernel
theorem test_stop : events (run 0x07000000000000000000000000000000 [(0x80, 0x59)]) =
    some (read 0x81 0x59 ++ wrote 0x8E 0x00 ++ wrote 0x80 0xD9 ++ wrote 0x8E 0x80) := by decide +kernel
theorem test_stop_store : store (run 0x07000000000000000000000000000000 [(0x80, 0x15)]) =
    some [(0x80, 0x95), (0x8E, 0x80)] := by decide +kernel

/-- V60. -/
theorem test_dec2bcd : answer (run 0x0800000000000000000000000000002D []) =
    some 0x00000000000000000000000000045#114 := by decide +kernel
theorem test_dec2bcd_255 : (exec (.dec2bcd 255) (holding []) |> ask fun t => t.rsp.value) = some 405#112 := by decide +kernel

/-- V61. -/
theorem test_bcd2dec : answer (run 0x09000000000000000000000000000045 []) =
    some 0x0000000000000000000000000002D#114 := by decide +kernel
theorem test_bcd2dec_FF : (exec (.bcd2dec 0xFF) (holding []) |> ask fun t => t.rsp.value) = some 165#112 := by decide +kernel

/-- V40, V47: the halt bit is not masked. -/
theorem test_get_second : answer (run 0x10000000000000000000000000000000 [(0x80, 0x15)]) = some 15 ∧
    answer (run 0x10000000000000000000000000000000 [(0x80, 0xD9)]) = some 19 := by decide +kernel

/-- V41, V47. -/
theorem test_get_minute : answer (run 0x11000000000000000000000000000000 [(0x82, 0x59)]) = some 59 ∧
    answer (run 0x11000000000000000000000000000000 [(0x82, 0xFF)]) = some 45 := by decide +kernel
/-- V42, V47. -/
theorem test_get_hour : answer (run 0x12000000000000000000000000000000 [(0x84, 0x92)]) = some 20 ∧
    answer (run 0x12000000000000000000000000000000 [(0x84, 0xFF)]) = some 21 := by decide +kernel
/-- V43, V47. -/
theorem test_get_day : answer (run 0x13000000000000000000000000000000 [(0x86, 0x31)]) = some 31 ∧
    answer (run 0x13000000000000000000000000000000 [(0x86, 0xFF)]) = some 5 := by decide +kernel
/-- V44, V47. -/
theorem test_get_month : answer (run 0x14000000000000000000000000000000 [(0x88, 0x12)]) = some 12 ∧
    answer (run 0x14000000000000000000000000000000 [(0x88, 0x13)]) = some 0 := by decide +kernel
/-- V45, V47. -/
theorem test_get_weekday : answer (run 0x15000000000000000000000000000000 [(0x8A, 0x06)]) = some 6 ∧
    answer (run 0x15000000000000000000000000000000 [(0x8A, 0x07)]) = some 0 := by decide +kernel
/-- V46, V47. -/
theorem test_get_year : answer (run 0x16000000000000000000000000000000 [(0x8C, 0x23)]) = some 2023 ∧
    answer (run 0x16000000000000000000000000000000 [(0x8C, 0xFF)]) = some 2065 := by decide +kernel

/-- V51. -/
theorem test_get_datetime : answer (run 0x17000000000000000000000000000000
    [(0x80, 0x30), (0x82, 0x45), (0x84, 0x13), (0x86, 0x15), (0x88, 0x03), (0x8A, 0x05), (0x8C, 0x24)]) =
    some 0x0001E002D000D0005000F000307E8#114 := by decide +kernel
theorem test_get_datetime_frames : events (run 0x17000000000000000000000000000000
    [(0x80, 0x30), (0x82, 0x45), (0x84, 0x13), (0x86, 0x15), (0x88, 0x03), (0x8A, 0x05), (0x8C, 0x24)]) =
    some (read 0x8D 0x24 ++ read 0x89 0x03 ++ read 0x87 0x15 ++ read 0x8B 0x05 ++ read 0x85 0x13 ++ read 0x83 0x45 ++
      read 0x81 0x30) := by decide +kernel

/-- V40. -/
theorem test_set_second : store (exec (.setSecond 75) (holding [(0x8E, 0x80)])) = some [(0x80, 0x15), (0x8E, 0x80)] ∧
    events (exec (.setSecond 75) (holding [(0x8E, 0x80)])) =
      some (wrote 0x8E 0x00 ++ wrote 0x80 0x15 ++ wrote 0x8E 0x80) := by decide +kernel
/-- V41. -/
theorem test_set_minute : store (exec (.setMinute 119) (holding [(0x8E, 0x80)])) = some [(0x82, 0x59), (0x8E, 0x80)] ∧
    events (exec (.setMinute 119) (holding [(0x8E, 0x80)])) =
      some (wrote 0x8E 0x00 ++ wrote 0x82 0x59 ++ wrote 0x8E 0x80) := by decide +kernel
/-- V42. -/
theorem test_set_hour : store (exec (.setHour 25) (holding [(0x8E, 0x80)])) = some [(0x84, 0x01), (0x8E, 0x80)] ∧
    events (exec (.setHour 25) (holding [(0x8E, 0x80)])) =
      some (wrote 0x8E 0x00 ++ wrote 0x84 0x01 ++ wrote 0x8E 0x80) := by decide +kernel
/-- V43. -/
theorem test_set_day : store (exec (.setDay 65535) (holding [(0x8E, 0x80)])) = some [(0x86, 0x31), (0x8E, 0x80)] ∧
    events (exec (.setDay 65535) (holding [(0x8E, 0x80)])) =
      some (wrote 0x8E 0x00 ++ wrote 0x86 0x31 ++ wrote 0x8E 0x80) := by decide +kernel
/-- V44. -/
theorem test_set_month : store (exec (.setMonth 13) (holding [(0x8E, 0x80)])) = some [(0x88, 0x00), (0x8E, 0x80)] ∧
    events (exec (.setMonth 13) (holding [(0x8E, 0x80)])) =
      some (wrote 0x8E 0x00 ++ wrote 0x88 0x00 ++ wrote 0x8E 0x80) := by decide +kernel
/-- V45. -/
theorem test_set_weekday : store (exec (.setWeekday 8) (holding [(0x8E, 0x80)])) = some [(0x8A, 0x01), (0x8E, 0x80)] ∧
    events (exec (.setWeekday 8) (holding [(0x8E, 0x80)])) =
      some (wrote 0x8E 0x00 ++ wrote 0x8A 0x01 ++ wrote 0x8E 0x80) := by decide +kernel
/-- V46. -/
theorem test_set_year : store (exec (.setYear 2024) (holding [(0x8E, 0x80)])) = some [(0x8C, 0x24), (0x8E, 0x80)] ∧
    events (exec (.setYear 2024) (holding [(0x8E, 0x80)])) =
      some (wrote 0x8E 0x00 ++ wrote 0x8C 0x24 ++ wrote 0x8E 0x80) := by decide +kernel

/-- V50. -/
theorem test_set_datetime : store (run 0x1F00001E002D000D0005000F000307E8 [(0x8E, 0x80)]) =
    some [(0x80, 0x30), (0x82, 0x45), (0x84, 0x13), (0x86, 0x15), (0x88, 0x03), (0x8A, 0x05), (0x8C, 0x24),
      (0x8E, 0x80)] := by decide +kernel

/-- V52: no check of the calendar. -/
theorem test_set_datetime_february_31 : store (exec (.setDatetime 2024 2 31 0 0 0 0) (holding [])) =
    some [(0x80, 0x00), (0x82, 0x00), (0x84, 0x00), (0x86, 0x31), (0x88, 0x02), (0x8A, 0x00), (0x8C, 0x24),
      (0x8E, 0x80)] := by decide +kernel

/-- V54: index 36 is cell 5, index 65535 is cell 1. -/
theorem test_read_ram : answer (run 0x20000000000000000000000000000024 [(0xCA, 0xAB)]) =
      some 0x000000000000000000000000000AB#114 ∧
    answer (run 0x2000000000000000000000000000FFFF [(0xC2, 0xFF)]) = some 0xFF := by decide +kernel
theorem test_write_ram : store (run 0x21000000000000000000000000CD0024 [(0x8E, 0x80), (0xCA, 0xAB)]) =
      some [(0x8E, 0x80), (0xCA, 0xCD)] ∧
    events (run 0x21000000000000000000000000CD0024 [(0x8E, 0x80), (0xCA, 0xAB)]) =
      some (wrote 0x8E 0x00 ++ wrote 0xCA 0xCD ++ wrote 0x8E 0x80) := by decide +kernel

/-! ### The hypotheses of the statements can be met: a witness for each statement that has any -/

/-- Protection on and the seconds at 15. -/
def protectedState : State := holding [(0x80, 0x15), (0x8E, 0x80)]
/-- Protection off and the seconds at 15. -/
def openState : State := holding [(0x80, 0x15), (0x8E, 0x00)]
/-- The oscillator halted. -/
def haltedState : State := holding [(0x80, 0x95), (0x8E, 0x80)]
/-- A command presented, in the event view. -/
def presented (i : Instr) : State := { protectedState with cmd := some (encode i), stepping := .event }
/-- A peripheral that keeps time. -/
def ticking (m : Memory) : State := { holding m with chip := { (holding m).chip with kind := .ticking } }
/-- A peripheral outside the model, with levels at the port. -/
def external : State :=
  { holding [] with chip := { (holding []).chip with kind := .external }, dioIn := [true, false, true] }
/-- An operation running. -/
def busyState : State := { protectedState with busy := true, c := encode .getSecond, cmd := some (encode .start) }

theorem test_witness_EncodeInvertsDecode :
    decode 0x01000000000000000000000000B20000#128 = .ok (.writeByte 0xB2) := rfl

/-- Each way a word is illegal, at the codes next to legal ones, and a legal word. -/
theorem test_witness_IllegalWordsAreNamed :
    decode 0x0A000000000000000000000000000000#128 = .error .reservedOpcode ∧
    decode 0x0F000000000000000000000000000000#128 = .error .reservedOpcode ∧
    decode 0x22000000000000000000000000000000#128 = .error .reservedOpcode ∧
    decode 0x09010000000000000000000000000000#128 = .error .reservedField ∧
    decode 0x21000000000000000000000001000000#128 = .error .payloadBit ∧
    decode 0x21000000000000000000000000FFFFFF#128 = .ok (.writeRam 65535 0xFF) := ⟨rfl, rfl, rfl, rfl, rfl, rfl⟩

/-- The operation view, the event view, and a table word. -/
theorem test_witness_StepRunsTheCommand :
    (let s : State := { protectedState with cmd := some (encode .getSecond) }
     s.resetPin = false ∧ s.busy = false ∧ s.cmd = some (encode .getSecond) ∧ s.stepping = .operation) ∧
    (let s := presented .getSecond
     s.resetPin = false ∧ s.busy = false ∧ s.cmd = some (encode .getSecond) ∧ s.stepping = .event ∧ s.Accepting) ∧
    decode 0x10000000000000000000000000000000#128 = .ok .getSecond ∧ encode .getSecond =
      0x10000000000000000000000000000000#128 ∧
    decodeTableWord 128 0x10000000000000000000000000000000 = some .getSecond := by
  refine ⟨by decide +kernel, by decide +kernel, rfl, by decide +kernel, rfl⟩

theorem test_witness_IllegalCommandChangesOnlyTheResponse :
    (let s : State := { protectedState with cmd := some 0xFF000000000000000000000000000000#128 }
     s.resetPin = false ∧ s.Accepting ∧ s.cmd = some 0xFF000000000000000000000000000000#128) ∧
    decode 0xFF000000000000000000000000000000#128 = .error .reservedOpcode := ⟨by decide +kernel, rfl⟩

theorem test_witness_CommandWhileBusyIsRefused :
    busyState.resetPin = false ∧ busyState.busy = true ∧ busyState.cmd = some (encode .start) := by decide +kernel

theorem test_witness_NothingRunsBeforeInit : State.powerUp.busy = false ∧
    ¬(State.powerUp.clk.dir = .out ∧ State.powerUp.cs.dir = .out) ∧ Instr.dec2bcd 45 ≠ .init := by decide +kernel

/-- `INIT` from power-up, and another operation after reset. -/
theorem test_witness_EveryOperationCompletes :
    (State.powerUp.busy = false ∧ State.powerUp.cfg.lineFaults = false ∧ ¬State.powerUp.Idle) ∧
    State.reset.busy = false ∧ State.reset.cfg.lineFaults = false ∧ State.reset.Idle := by decide +kernel

/-- Lines that may fail, `CLK` and `CS` at any level. -/
theorem test_witness_OperationsEndOkOrInALineFault :
    let s : State := { protectedState with cfg := { Cfg.default with lineFaults := true }, cs := Pin.driving true }
    s.busy = false ∧ s.Accepting ∧ s.cfg.lineFaults = true := by decide +kernel

/-- From power-up, and with the lines idle already. -/
theorem test_witness_InitSetsTheIdleLines :
    (State.powerUp.busy = false ∧ State.powerUp.cfg.lineFaults = false ∧ State.powerUp.chip.kind ≠ .ticking) ∧
    State.reset.busy = false ∧ State.reset.cfg.lineFaults = false ∧ State.reset.Idle ∧ State.reset.chip.drv = none := by
  decide +kernel

theorem test_witness_ResetAbandonsTheOperation :
    ({ busyState with resetPin := true } : State).resetPin = true ∧ busyState.chip.kind ≠ .ticking := by decide +kernel

/-- Of every statement whose one hypothesis is `Ready`, with each kind of peripheral. -/
theorem test_witness_Ready : State.reset.Ready ∧ (ticking []).Ready ∧ external.Ready ∧
    external.chip.kind = .external := by decide +kernel

theorem test_witness_WriteByteShiftsLsbFirst : State.reset.Ready := by decide +kernel
theorem test_witness_ReadByteAssemblesLsbFirst : State.reset.Ready := by decide +kernel
theorem test_witness_TransportLeavesTheRest : State.reset.Ready ∧ State.reset.chipDrives = none ∧
    external.Ready ∧ external.chipDrives = none := by decide +kernel
theorem test_witness_GetRegIsOneReadFrame : State.reset.Ready := by decide +kernel
theorem test_witness_SetRegIsOneWriteFrame : State.reset.Ready := by decide +kernel
theorem test_witness_WpWriteIsThreeWriteFrames : protectedState.Ready ∧ protectedState.RefReady := by decide +kernel

theorem test_witness_StartClearsTheHaltBit : haltedState.Ready ∧ haltedState.cfg.wf = true ∧
    haltedState.cfg.chBit = 7 ∧ haltedState.RefReady ∧ protects haltedState.cfg.wpOff = false := by decide +kernel
theorem test_witness_StopSetsTheHaltBit : protectedState.Ready ∧ protectedState.cfg.wf = true ∧
    protectedState.cfg.chBit = 7 ∧ protectedState.RefReady ∧ protects protectedState.cfg.wpOff = false := by
  decide +kernel

theorem test_witness_GetFieldDecodesAndReduces : State.reset.Ready ∧ State.reset.cfg.wf = true ∧
    State.reset.cfg = Cfg.default := ⟨by decide +kernel, by decide +kernel, rfl⟩
theorem test_witness_SetFieldWritesReducedBcd : State.reset.Ready ∧ State.reset.cfg = Cfg.default :=
  ⟨by decide +kernel, rfl⟩

/-- Each kind of peripheral, a read address and a write address. -/
theorem test_witness_SingleReadsLeaveTheRest : State.reset.Ready ∧ State.reset.chip.kind = .reference ∧ external.Ready ∧
    external.chip.kind = .external ∧ (ticking []).Ready ∧ (ticking []).chip.kind = .ticking ∧ isReadAddr 0x93 = true ∧
    isReadAddr 0x92 = false ∧ 0x92 ∉ frameStores 0x93 ∧ 0x92 ∈ frameStores 0x92 := by decide +kernel
/-- An operation of one guarded write at each kind of target. -/
theorem test_witness_WritesLeaveTheRest : State.reset.Ready ∧ external.Ready ∧ (ticking []).Ready ∧
    isReadAddr 0x81 = true ∧ isReadAddr 0x80 = false ∧ 0xC0 ∉ guardedStores State.reset.cfg 0x80 ∧
    guardedTarget State.reset.cfg (.wpWrite 0x93 0x55) = some (0x93, 0x55) ∧
    guardedTarget State.reset.cfg (.setMonth 65535) = some (0x88, 0x02) ∧
    guardedTarget State.reset.cfg (.writeRam 65535 0xFF) = some (0xC2, 0xFF) := by decide +kernel
theorem test_witness_StartAndStopLeaveTheRest : State.reset.Ready ∧ external.Ready ∧ haltedState.RefReady := by decide +kernel
theorem test_witness_GetDatetimeReadsTheTuple : State.reset.Ready ∧ external.Ready ∧ haltedState.RefReady := by decide +kernel
theorem test_witness_SetDatetimeWritesTheTuple : State.reset.Ready ∧ external.Ready ∧ haltedState.RefReady ∧
    0xC0 ≠ haltedState.cfg.addrWp.toNat := by decide +kernel

theorem test_witness_Dec2bcdInRange : State.reset.Accepting ∧ (0#8).toNat < 100 ∧ (99#8).toNat < 100 := by
  decide +kernel
theorem test_witness_Bcd2decInRange : State.reset.Accepting ∧ (0x00#8).toNat / 16 ≤ 9 ∧ (0x00#8).toNat % 16 ≤ 9 ∧
    (0x99#8).toNat / 16 ≤ 9 ∧ (0x99#8).toNat % 16 ≤ 9 := by decide +kernel
theorem test_witness_BcdCommandsLeaveTheRest : State.reset.Accepting := by decide +kernel
theorem test_witness_BcdCommandsRoundTrip : State.reset.Accepting ∧ (99#8).toNat < 100 ∧
    (0x99#8).toNat / 16 ≤ 9 ∧ (0x99#8).toNat % 16 ≤ 9 := by decide +kernel

/-- The first and the last register of the map. -/
theorem test_witness_EveryRegisterHasItsOwnAddress : Cfg.default.wf = true ∧
    Reg.field .second ∈ regMap Cfg.default ∧ Reg.ram 30 ∈ regMap Cfg.default := by decide +kernel

/-- A raw read, a read of no register, a field read and a read of the last cell. -/
theorem test_witness_ReadFrameReturnsTheRegister : protectedState.RefReady ∧
    readTarget protectedState.cfg (.getReg 0x8F) = some 0x8F ∧ isReadAddr 0x8F = true ∧
    decodeAddr protectedState.cfg 0x8F = some .wp ∧
    readTarget protectedState.cfg (.getReg 0x93) = some 0x93 ∧ isReadAddr 0x93 = true ∧
    decodeAddr protectedState.cfg 0x93 = none ∧
    readTarget protectedState.cfg .getYear = some 0x8D ∧ decodeAddr protectedState.cfg 0x8D = some (.field .year) ∧
    readTarget protectedState.cfg (.readRam 61) = some 0xFD ∧ decodeAddr protectedState.cfg 0xFD = some (.ram 30) := by
  decide +kernel

/-- Each clause: no register there, `WP`, protection off, protection on. -/
theorem test_witness_WriteFrameCommits : protectedState.RefReady ∧ openState.RefReady ∧ isReadAddr 0x92 = false ∧
    decodeAddr openState.cfg 0x92 = none ∧ isReadAddr 0x8E = false ∧ decodeAddr openState.cfg 0x8E = some .wp ∧
    isReadAddr 0x80 = false ∧ decodeAddr openState.cfg 0x80 = some (.field .second) ∧
    protects (openState.chip.cell openState.cfg .wp) = false ∧
    protects (protectedState.chip.cell protectedState.cfg .wp) = true := by decide +kernel

theorem test_witness_MispairedFrames : openState.RefReady ∧ isReadAddr 0x81 = true ∧ isReadAddr 0x80 = false := by
  decide +kernel

/-- A register, `WP` itself, a read address, an address of no register, and a `WP_OFF` that protects. -/
theorem test_witness_GuardedWriteCommits : protectedState.RefReady ∧ protects protectedState.cfg.wpOff = false ∧
    guardedTarget protectedState.cfg (.writeRam 30 0x5A) = some (0xFC, 0x5A) ∧ isReadAddr 0xFC = false ∧
    decodeAddr protectedState.cfg 0xFC = some (.ram 30) ∧
    guardedTarget protectedState.cfg (.wpWrite 0x8E 0x00) = some (0x8E, 0x00) ∧ isReadAddr 0x8E = false ∧
    decodeAddr protectedState.cfg 0x8E = some .wp ∧
    guardedTarget protectedState.cfg (.wpWrite 0x81 0x45) = some (0x81, 0x45) ∧ isReadAddr 0x81 = true ∧
    guardedTarget protectedState.cfg (.wpWrite 0x92 0x45) = some (0x92, 0x45) ∧
    decodeAddr protectedState.cfg 0x92 = none ∧
    (let s : State := { protectedState with cfg := { Cfg.default with wpOff := 0x80 } }
     s.RefReady ∧ protects s.cfg.wpOff = true) := by decide +kernel

theorem test_witness_FieldRoundTrip : protectedState.RefReady ∧ protects protectedState.cfg.wpOff = false := by
  decide +kernel
theorem test_witness_RamAliasRoundTrip : protectedState.RefReady ∧ protects protectedState.cfg.wpOff = false ∧
    (36#16).toNat % protectedState.cfg.ramCells = (5#16).toNat % protectedState.cfg.ramCells := by decide +kernel
theorem test_witness_DatetimeRoundTrip : protectedState.RefReady ∧ protects protectedState.cfg.wpOff = false := by
  decide +kernel
theorem test_witness_StopThenStartRestores : haltedState.RefReady ∧ protects haltedState.cfg.wpOff = false ∧
    (0 : Nat) ≠ haltedState.cfg.chBit.val := by decide +kernel
theorem test_witness_HaltedSecondReadsWrong : haltedState.RefReady ∧ haltedState.cfg.chBit = 7 ∧
    haltedState.cfg.mSecond = 60 ∧ (0x15#8).getLsbD 7 = false ∧
    haltedState.chip.cell haltedState.cfg (.field .second) = 0x15#8 ||| 0x80#8 := by decide +kernel
theorem test_witness_SetSecondStartsTheOscillator : haltedState.RefReady ∧ protects haltedState.cfg.wpOff = false ∧
    haltedState.cfg.chBit = 7 ∧ haltedState.cfg.mSecond = 60 := by decide +kernel

/-- Running and halted, with an address outside the calendar and outside what is stored at. -/
theorem test_witness_TickingChipKeepsTheRest :
    (let s := ticking [(0x80, 0x15), (0x8E, 0x80)]
     s.Ready ∧ s.chip.kind = .ticking ∧ clockHalted s.cfg (s.chip.cell s.cfg (.field .second)) = false ∧
       0xC0 ∉ storedAt s.cfg (.writeRam 1 0x55) ∧ 0xC0 ∉ storedAt s.cfg (.setDatetime 0 0 0 0 0 0 0)) ∧
    (let s := ticking [(0x80, 0x95), (0x8E, 0x80)]
     s.Ready ∧ s.chip.kind = .ticking ∧ readTarget s.cfg (.getReg 0xFF) = some 0xFF ∧ isReadAddr 0xFF = true ∧
       clockHalted s.cfg (s.chip.cell s.cfg (.field .second)) = true) ∧
    ∀ f, 0xC0 ≠ (fieldAddr Cfg.default f).toNat := by
  refine ⟨by decide +kernel, by decide +kernel, fun f => by cases f <;> decide +kernel⟩

/-- Each clause, with protection on and off. -/
theorem test_witness_TickingChipStoresWhatIsWritten :
    (let s := ticking [(0x80, 0x15), (0x8E, 0x80)]
     s.Ready ∧ s.cfg.wf = true ∧ s.chip.kind = .ticking ∧
       readTarget s.cfg (.readRam 0) = some 0xC1 ∧ isReadAddr 0xC1 = true ∧ decodeAddr s.cfg 0xC1 = some (.ram 0) ∧
       isReadAddr 0x8E = false ∧ decodeAddr s.cfg 0x8E = some .wp ∧ isReadAddr 0x90 = false ∧
       decodeAddr s.cfg 0x90 = some .ctrl ∧ protects (s.chip.cell s.cfg .wp) = true ∧
       guardedTarget s.cfg (.writeRam 0 0x55) = some (0xC0, 0x55) ∧ protects s.cfg.wpOff = false ∧
       isReadAddr 0xC0 = false ∧ decodeAddr s.cfg 0xC0 = some (.ram 0)) ∧
    (let s := ticking [(0x80, 0x15), (0x8E, 0x00)]
     s.Ready ∧ protects (s.chip.cell s.cfg .wp) = false ∧ isReadAddr 0x80 = false ∧
       decodeAddr s.cfg 0x80 = some (.field .second)) ∧ ∀ f, Reg.ram 0 ≠ .field f ∧ Reg.ctrl ≠ .field f := by
  refine ⟨by decide +kernel, by decide +kernel, fun f => by cases f <;> decide⟩

/-- A target in the calendar with the oscillator running, halted before the write, and halted by it; the event view. -/
theorem test_witness_TickingChipStoresInTheCalendar :
    (let s := ticking [(0x80, 0x95), (0x8E, 0x80)]
     s.Ready ∧ s.cfg.wf = true ∧ s.chip.kind = .ticking ∧ protects s.cfg.wpOff = false ∧
       guardedTarget s.cfg (.setMonth 13) = some (0x88, 0x00) ∧ isReadAddr 0x88 = false ∧
       decodeAddr s.cfg 0x88 = some (.field .month) ∧ Field.month ≠ .second ∧
       clockHalted s.cfg (s.chip.cell s.cfg (.field .second)) = true ∧
       guardedTarget s.cfg (.wpWrite 0x80 0x80) = some (0x80, 0x80) ∧ isReadAddr 0x80 = false ∧
       decodeAddr s.cfg 0x80 = some (.field .second) ∧ clockHalted s.cfg 0x80 = true) ∧
    (∀ i, let s : State := { ticking [(0x80, 0x15), (0x8E, 0x80)] with stepping := .event, cmd := some (encode i) }
     s.Ready ∧ s.resetPin = false ∧ s.stepping = .event ∧ s.cmd = some (encode i)) ∧
    [Field.year, .month, .day, .weekday, .hour, .minute, .second][6]? = some .second := by
  refine ⟨by decide +kernel, fun i => ⟨?_, rfl, rfl, rfl⟩, rfl⟩
  exact (by decide +kernel : (ticking [(0x80, 0x15), (0x8E, 0x80)]).Ready)

/-- Lines driven, outputs without a level, and lines that are no output. -/
theorem test_witness_OutputPortsShowTheState : State.reset.clk.dir = .out ∧ State.reset.clk.lvl = .driven false ∧
    State.reset.cs.dir = .out ∧ State.reset.cs.lvl = .driven false ∧ State.powerUp.clk.dir ≠ .out ∧
    State.powerUp.cs.dir ≠ .out ∧
    (let s := State.powerUp.applyDir .cs .out
     (s.pin .cs).dir = .out ∧ (s.pin .cs).lvl = .unset) ∧
    (let s := State.powerUp.applyDir .clk .out
     (s.pin .clk).dir = .out ∧ (s.pin .clk).lvl = .unset) := by decide +kernel

theorem test_witness_DatetimeElementsInPlace : State.reset.Ready := by decide +kernel

theorem test_witness_FramesAreComplete : State.reset.Ready ∧ isFramed .getDatetime = true := by decide +kernel
theorem test_witness_ShapeDependsOnTheCodeAlone : State.reset.Ready ∧ external.Ready ∧
    opcode (.setSecond 1) = opcode (.setSecond 65535) := by decide +kernel

/-- The first event and the last. -/
theorem test_witness_LineFaultEndsWhereItStands :
    (let s : State := { protectedState with cfg := { Cfg.default with lineFaults := true }, lineFail := [true, false] }
     s.Idle ∧ s.cfg.lineFaults = true ∧ 0 < eventCount .start ∧
       s.lineFail = List.replicate 0 false ++ true :: [false]) ∧
    (let s : State := { protectedState with cfg := { Cfg.default with lineFaults := true },
                                            lineFail := List.replicate 207 false ++ true :: [] }
     s.Idle ∧ s.cfg.lineFaults = true ∧ 207 < eventCount .start ∧
       s.lineFail = List.replicate 207 false ++ true :: []) := by decide +kernel

theorem test_witness_EventViewAgrees :
    let s := presented .start
    s.busy = false ∧ s.resetPin = false ∧ s.cmd = some (encode .start) ∧ s.stepping = .event ∧
      s.cfg.lineFaults = false ∧ s.Accepting := by decide +kernel

theorem test_witness_CutGuardedWriteLeavesProtectionOff :
    let s := presented (.wpWrite 0x80 0x15)
    s.RefReady ∧ s.resetPin = false ∧ s.stepping = .event ∧ s.cmd = some (encode (.wpWrite 0x80 0x15)) ∧
      decodeAddr s.cfg 0x80 ≠ some .wp := by decide +kernel

theorem test_witness_CutDatetimeIsTorn :
    let s := presented (.setDatetime 2024 3 15 5 13 45 30)
    s.RefReady ∧ protects s.cfg.wpOff = false ∧ s.resetPin = false ∧ s.stepping = .event ∧
      s.cmd = some (encode (.setDatetime 2024 3 15 5 13 45 30)) := by decide +kernel

theorem test_witness_StepKeepsTheConfiguration : ∃ t, step (presented .start) = .next t := ⟨_, rfl⟩

theorem protectedState_inv : protectedState.Inv where
  store := ⟨rfl, fun e he => by
    simp only [protectedState, holding, List.mem_cons, List.not_mem_nil, or_false] at he
    rcases he with rfl | rfl
    · exact ⟨.field .second, rfl, by decide +kernel⟩
    · exact ⟨.wp, rfl, by decide +kernel⟩⟩
  edges := Nat.zero_le _
  undriven := fun _ _ => rfl
  clkDir := by decide +kernel
  csDir := by decide +kernel
  clkPin := by decide +kernel
  dioPin := by decide +kernel
  csPin := by decide +kernel
  phaseCs := by decide +kernel
  sequencer := rfl
  abnormal := fun _ => rfl
  faultFree := fun _ => by decide +kernel

theorem test_witness_StepKeepsInvariant : protectedState.Inv ∧ ∃ t, step protectedState = .next t :=
  ⟨protectedState_inv, _, rfl⟩
theorem test_witness_InvariantStatesNeverFault : protectedState.Inv := protectedState_inv

end Sys2Proof.Tests
end

section
/-! SUPPORT. The decoder and the encoder are inverse to each other on legal words (30_encoding.md R91, R96). -/

namespace Sys2Proof

/-- The word of an operation decodes to it (R91, R96). -/
theorem decode_encode (i : Instr) : decode (encode i) = .ok i := by
  obtain ⟨f, hf, hp⟩ := payloadOf_free i
  rw [encode, decode_parts, assemble_payloadOf, hf]
  simp only [hp, if_true]

/-- A word that decodes to an operation is the word of that operation (R91, R92). -/
theorem encode_of_decode {w : Command} {i : Instr} (h : decode w = .ok i) : encode i = w := by
  obtain ⟨o, r, p, rfl⟩ := Command.parts w
  rw [decode_parts] at h
  split at h
  next j f ha hf =>
    split at h
    next hr =>
      split at h
      next hp =>
        cases h
        obtain ⟨ho, hpay⟩ := assembled ha hf hp
        rw [encode, ho, hpay, hr]
      next => cases h
    next => cases h
  next => cases h

/-- A table word that reads as an operation is a command word that decodes to it. -/
theorem decode_of_decodeTableWord {nbits w : Nat} {i : Instr} (h : decodeTableWord nbits w = some i) :
    decode (BitVec.ofNat 128 (w % 2 ^ nbits)) = .ok i := by
  simp only [decodeTableWord] at h
  split at h
  next j hd => rw [hd, Option.some.inj h]
  next => cases h

end Sys2Proof
end

section
/-! SUPPORT. One step, case by case: what is run (00_scope.md R7, R8; 10_state.md R25), and from what a next state
comes. -/

namespace Sys2Proof.Machine

/-! ### Acceptance -/

/-- An operation is accepted by a controller that is not busy and, but for `INIT`, initialised (R194, R222). -/
theorem State.refusal_needsInit {s : State} {i : Instr} (hb : s.busy = false) (hi : i ≠ .init → s.Accepting) :
    s.refusal (needsInit i) = none := by
  by_cases h : i = .init
  · subst h; exact State.refusal_false hb
  · exact (hi h).refusal _

/-! ### What a step runs -/

theorem step_command {s : State} {w : Command} (hr : s.resetPin = false) (hb : s.busy = false)
    (hc : s.cmd = some w) : step s = takeCommand w s := by
  simp only [step, hr, hb, hc, Bool.false_eq_true, if_false]

theorem takeCommand_operation {s : State} {w : Command} {i : Instr} (hd : decode w = .ok i)
    (hs : s.stepping = .operation) : takeCommand w s = exec i s := by
  simp only [takeCommand, hd, hs]

/-- The acceptance latches the word presented, which is the word of the operation it decodes to (R25, R91). -/
theorem takeCommand_event {s : State} {w : Command} {i : Instr} (hd : decode w = .ok i)
    (hs : s.stepping = .event) (hi : s.refusal (needsInit i) = none) : takeCommand w s = .next (s.accept w) := by
  simp only [takeCommand, hd, hs, beginOp, hi, encode_of_decode hd]

/-! ### Where a next state comes from -/

/-- The four sources of a next state: reset, the running operation, the command presented, the host (R7, R221). -/
theorem step_next {s t : State} (h : step s = .next t) :
    (s.resetPin = true ∧ t = s.resetNow) ∨
    (s.resetPin = false ∧ s.busy = true ∧ s.cmd = none ∧ sequence s = .next t) ∨
    (s.resetPin = false ∧ s.busy = false ∧ ∃ w, s.cmd = some w ∧ takeCommand w s = .next t) ∨
    (s.resetPin = false ∧ s.busy = false ∧ s.cmd = none ∧ t = hostTurn s) := by
  simp only [step] at h
  split at h
  next hr => cases h; exact .inl ⟨hr, rfl⟩
  next hr =>
    have hr := Bool.eq_false_of_not_eq_true hr
    split at h
    next hb =>
      split at h
      next => cases h
      next hc => exact .inr (.inl ⟨hr, hb, hc, h⟩)
    next hb =>
      have hb := Bool.eq_false_of_not_eq_true hb
      split at h
      next w hc => exact .inr (.inr (.inl ⟨hr, hb, w, hc, h⟩))
      next hc => cases h; exact .inr (.inr (.inr ⟨hr, hb, hc, rfl⟩))

/-- The running operation responds, or performs its next line event, which may fail (R25, R27, R193). -/
theorem sequence_next {s t : State} (h : sequence s = .next t) : ∃ op, decode s.c = .ok op ∧
    (((microOps s.cfg op)[s.upc]? = none ∧ t = s.respond .ok (resultOf op s)) ∨
     ∃ m, (microOps s.cfg op)[s.upc]? = some m ∧
       (perform m s = .done t ∨ ∃ u, perform m s = .failed u ∧ t = u.endLineFault)) := by
  simp only [sequence] at h
  split at h
  next => cases h
  next op hd =>
    refine ⟨op, hd, ?_⟩
    split at h
    next hn => cases h; exact .inl ⟨hn, rfl⟩
    next m hm =>
      refine .inr ⟨m, hm, ?_⟩
      split at h
      next u hu => cases h; exact .inl hu
      next u hu => cases h; exact .inr ⟨u, hu, rfl⟩
      next => cases h

/-- A whole operation ends after all of its line events, or at the one that fails (R8, R193). -/
theorem exec_next {i : Instr} {s t : State} (h : exec i s = .next t) : s.refusal (needsInit i) = none ∧
    ∃ u, (runAll (microOps s.cfg i) (s.accept (encode i)) = .done u ∧ t = u.respond .ok (resultOf i u)) ∨
      (runAll (microOps s.cfg i) (s.accept (encode i)) = .failed u ∧ t = u.endLineFault) := by
  rw [exec_eq_operate] at h
  simp only [operate] at h
  split at h
  next => cases h
  next hr =>
    refine ⟨hr, ?_⟩
    simp only [finish] at h
    split at h
    next u hu => cases h; exact ⟨u, .inl ⟨hu, rfl⟩⟩
    next u hu => cases h; exact ⟨u, .inr ⟨hu, rfl⟩⟩
    next => cases h

/-- An illegal word answers at once; a legal one runs or is accepted, as the view has it (R8, R192). -/
theorem takeCommand_next {w : Command} {s t : State} (h : takeCommand w s = .next t) :
    ((∃ e, decode w = .error e) ∧ s.refusal true = none ∧ t = s.endIllegal) ∨
    ∃ i, decode w = .ok i ∧ ((s.stepping = .operation ∧ exec i s = .next t) ∨
      (s.stepping = .event ∧ s.refusal (needsInit i) = none ∧ t = s.accept w)) := by
  cases hd : decode w with
  | error e =>
    simp only [takeCommand, hd] at h
    split at h
    next => cases h
    next hr => cases h; exact .inl ⟨⟨e, rfl⟩, hr, rfl⟩
  | ok i =>
    refine .inr ⟨i, rfl, ?_⟩
    cases hs : s.stepping with
    | operation => exact .inl ⟨rfl, takeCommand_operation hd hs ▸ h⟩
    | event =>
      cases hr : s.refusal (needsInit i) with
      | some r => simp [takeCommand, hd, hs, beginOp, hr] at h
      | none =>
        rw [takeCommand_event hd hs hr] at h
        cases h
        exact .inr ⟨rfl, rfl, rfl⟩

/-! ### What only grows, step by step -/

/-- An update that is no line event and enters nothing in the journal. -/
theorem State.Onward.of_eq {s t : State} (hc : t.cfg = s.cfg) (hk : t.chip = s.chip) (hs : t.stepping = s.stepping)
    (he : t.events = s.events) (ht : t.trace = s.trace) (hj : t.journal = s.journal) : s.Onward t :=
  ⟨hc, congrArg Chip.kind hk, hs, he.ge, ⟨[], ht⟩, ⟨[], hj⟩⟩

theorem State.respond_onward (s : State) (st : Status) (v : Payload) : s.Onward (s.respond st v) :=
  .of_eq rfl rfl rfl rfl rfl rfl

theorem State.accept_onward (s : State) (w : Command) : s.Onward (s.accept w) := .of_eq rfl rfl rfl rfl rfl rfl

theorem State.endIllegal_onward (s : State) : s.Onward s.endIllegal := .of_eq rfl rfl rfl rfl rfl rfl

theorem hostTurn_onward (s : State) : s.Onward (hostTurn s) := by
  simp only [hostTurn]
  split <;> exact .of_eq rfl rfl rfl rfl rfl rfl

/-- Reset clears registers, then performs the four events of `INIT` (R221). -/
theorem State.resetNow_onward (s : State) : s.Onward s.resetNow := by
  refine State.Onward.trans ?_ ((((State.applyDir_onward _ .cs .out).trans (State.applySet_onward _ .cs false)).trans
    (State.applyDir_onward _ .clk .out)).trans (State.applySet_onward _ .clk false))
  exact .of_eq rfl rfl rfl rfl rfl rfl

theorem sequence_onward {s t : State} (h : sequence s = .next t) : s.Onward t := by
  obtain ⟨op, -, ⟨-, rfl⟩ | ⟨m, -, hm | ⟨u, hu, rfl⟩⟩⟩ := sequence_next h
  · exact s.respond_onward _ _
  · exact perform_onward (.inl hm)
  · exact (perform_onward (.inr hu)).trans (u.respond_onward _ _)

theorem exec_onward {i : Instr} {s t : State} (h : exec i s = .next t) : s.Onward t := by
  obtain ⟨-, u, ⟨hu, rfl⟩ | ⟨hu, rfl⟩⟩ := exec_next h
  · exact ((s.accept_onward _).trans (runAll_onward (.inl hu))).trans (u.respond_onward _ _)
  · exact ((s.accept_onward _).trans (runAll_onward (.inr hu))).trans (u.respond_onward _ _)

theorem takeCommand_onward {w : Command} {s t : State} (h : takeCommand w s = .next t) : s.Onward t := by
  obtain ⟨-, -, rfl⟩ | ⟨i, -, ⟨-, he⟩ | ⟨-, -, rfl⟩⟩ := takeCommand_next h
  · exact s.endIllegal_onward
  · exact exec_onward he
  · exact s.accept_onward w

theorem step_onward {s t : State} (h : step s = .next t) : s.Onward t := by
  obtain ⟨-, rfl⟩ | ⟨-, -, -, hq⟩ | ⟨-, -, w, -, hw⟩ | ⟨-, -, -, rfl⟩ := step_next h
  · exact s.resetNow_onward
  · exact sequence_onward hq
  · exact takeCommand_onward hw
  · exact hostTurn_onward s

end Sys2Proof.Machine
end

section
/-! SUPPORT. The default configuration (00_scope.md R5, R6). -/

namespace Sys2Proof.Machine

theorem default_wf : Cfg.default.wf = true := by decide

theorem fieldModulus_default (f : Field) : fieldModulus Cfg.default f = tableModulus f := by cases f <;> rfl

end Sys2Proof.Machine
end

section
/-! PROOFS. The scope statements (00_scope.md R5 to R8). -/

namespace Sys2Proof.Machine

/-- Settles O36: addresses are even and distinct, so clearing bit 0 leads from both addresses to the one register. -/
theorem everyRegisterHasItsOwnAddress : Obligations.EveryRegisterHasItsOwnAddress := by
  intro c x hwf hx
  have hc := cfgOk c hwf
  obtain ⟨hw, hodd, hr⟩ := reached hc hx
  exact ⟨regAddr_even hc hx, hw, hodd, hr⟩

/-- Settles O53: the acceptance is the first step, and from there the sequencer performs the micro-operations that
`exec` runs. -/
theorem eventViewAgrees : Obligations.EventViewAgrees := by
  intro s i hb hr hc hs hf hi
  rcases exec_ends i s hb (fun h => (hi h).2) with ⟨u, d, hu, -, he⟩ | ⟨hfaults, -⟩
  · have hfirst : step s = .next (s.accept (encode i)) := by
      rw [step_command hr hb hc, takeCommand_event (decode_encode i) hs (State.refusal_needsInit hb hi)]
    refine ⟨_, he, (core_run_step _ hfirst).trans ?_⟩
    exact core_run_sequence (eventCount i) _ u (decode_encode i) rfl rfl hr
      ((microOps_length s.cfg i).trans (Nat.zero_add _).symm) hu
  · rw [hf] at hfaults; cases hfaults

/-- Settles O56: each way a step can answer a next state goes onward. -/
theorem stepKeepsTheConfiguration : Obligations.StepKeepsTheConfiguration := by
  intro s t h
  obtain ⟨hcfg, hkind, hstepping, hevents, htrace, hjournal⟩ := step_onward h
  exact ⟨hcfg, hkind, hstepping, hevents, htrace, hjournal⟩

/-- Settles O5: the word decoded is the word of the operation, so its acceptance latches the word presented. -/
theorem stepRunsTheCommand : Obligations.StepRunsTheCommand := by
  refine ⟨fun s w i hr hb hc hd => ⟨fun hs => ?_, fun hs ha => ?_⟩, fun s nbits w i hd => ?_⟩
  · rw [step_command hr hb hc, takeCommand_operation hd hs]
  · rw [step_command hr hb hc, takeCommand_event hd hs (ha.refusal _)]
  · exact (step_command rfl rfl rfl).trans (takeCommand_operation (decode_of_decodeTableWord hd) rfl)

/-- Settles O60: the default record field by field. -/
theorem defaultConfigurationIsTheTable : Obligations.DefaultConfigurationIsTheTable :=
  ⟨default_wf, fieldModulus_default, rfl, rfl, rfl, rfl, rfl, rfl, rfl, rfl, rfl, rfl, rfl, rfl, rfl, rfl, rfl, rfl,
    rfl, rfl, rfl, rfl⟩

end Sys2Proof.Machine
end

section
/-! SUPPORT. What a step keeps of the invariant beyond the lines: the sequencer and the response, and each way a step
can answer a next state (10_state.md R24, R25; 30_encoding.md R93; 60_exceptions.md R191, R193). -/

namespace Sys2Proof.Machine

/-! ### The parts of the invariant -/

/-- A response as the invariant has it (R93, R191). -/
structure Rsp.Sound (c : Cfg) (r : Rsp) : Prop where
  abnormal : r.status ≠ .ok → r.value = 0
  faultFree : c.lineFaults = false → r.status ≠ .lineFault

theorem Rsp.sound_ok (c : Cfg) (v : Payload) : Rsp.Sound c { status := .ok, value := v } :=
  ⟨fun h => absurd rfl h, fun _ => nofun⟩

theorem Rsp.sound_illegal (c : Cfg) : Rsp.Sound c { status := .illegal, value := 0 } :=
  ⟨fun _ => rfl, fun _ => nofun⟩

theorem Rsp.sound_lineFault {c : Cfg} (h : c.lineFaults = true) : Rsp.Sound c { status := .lineFault, value := 0 } :=
  ⟨fun _ => rfl, fun hf => by rw [h] at hf; cases hf⟩

theorem State.Inv.rspSound {s : State} (h : s.Inv) : s.rsp.Sound s.cfg := ⟨h.abnormal, h.faultFree⟩

/-- The invariant is what it says of the lines, of the sequencer and of the response. -/
theorem State.Lines.inv {s : State} (h : s.Lines) (hq : s.SequencerSound) (hr : s.rsp.Sound s.cfg) : s.Inv :=
  { h with
    store := h.chip.store
    edges := h.chip.edges
    sequencer := hq
    abnormal := hr.abnormal
    faultFree := hr.faultFree }

/-! ### The sequencer -/

theorem State.sequencerSound_resting {s : State} (hb : s.busy = false) (hu : s.upc = 0) : s.SequencerSound := by
  simp [State.SequencerSound, hb, hu]

theorem State.sequencerSound_running {s : State} {op : Instr} (hb : s.busy = true) (hd : decode s.c = .ok op)
    (hu : s.upc ≤ (microOps s.cfg op).length)
    (hc : ∀ f, runAll ((microOps s.cfg op).drop s.upc) s ≠ .stuck f) : s.SequencerSound := by
  simp only [State.SequencerSound, hb, if_true]
  exact ⟨op, hd, hu, hc⟩

theorem State.SequencerSound.upc_eq_zero {s : State} (h : s.SequencerSound) (hb : s.busy = false) : s.upc = 0 := by
  simpa [State.SequencerSound, hb] using h

theorem State.SequencerSound.contract {s : State} {op : Instr} (h : s.SequencerSound) (hb : s.busy = true)
    (hd : decode s.c = .ok op) (f : Fault) : runAll ((microOps s.cfg op).drop s.upc) s ≠ .stuck f := by
  simp only [State.SequencerSound, hb, if_true] at h
  obtain ⟨op', hd', -, hc⟩ := h
  rw [hd] at hd'
  cases hd'
  exact hc f

/-- What is accepted is presented to a controller that is not busy and, but for `INIT`, initialised (R194, R222). -/
theorem State.refusal_none {s : State} {i : Instr} (h : s.refusal (needsInit i) = none) :
    s.busy = false ∧ (i ≠ .init → s.clk.dir = .out ∧ s.cs.dir = .out) := by
  have hb : s.busy = false := by
    cases hb : s.busy with
    | false => rfl
    | true => simp [State.refusal, hb] at h
  refine ⟨hb, fun hi => ?_⟩
  simpa [State.refusal, hb, needsInit_eq, hi, State.initialised] using h

/-- An accepted operation keeps the line contract to its end. -/
theorem runAll_microOps_contract {s : State} {i : Instr} (h : s.refusal (needsInit i) = none) (f : Fault) :
    runAll (microOps s.cfg i) (s.accept (encode i)) ≠ .stuck f := by
  obtain ⟨hb, hi⟩ := State.refusal_none h
  obtain ⟨u, -, hu, -, -⟩ | ⟨-, u, hu, -⟩ := exec_ends i s hb hi <;> simp [hu]

/-- After a line event the running operation stands at its next one (R27). -/
theorem State.SequencerSound.perform {s t : State} {op : Instr} {m : Micro} (h : s.SequencerSound)
    (hb : s.busy = true) (hd : decode s.c = .ok op) (hm : (microOps s.cfg op)[s.upc]? = some m)
    (ht : Machine.perform m s = .done t) : t.SequencerSound := by
  obtain ⟨hkept, hupc, -, -, -⟩ := perform_stepped ht
  obtain ⟨hlt, hget⟩ := List.getElem?_eq_some_iff.1 hm
  apply State.sequencerSound_running (op := op) (hkept.busy.trans hb) (hkept.c.symm ▸ hd)
  · rw [hupc, hkept.cfg]; exact hlt
  · intro f hf
    apply h.contract hb hd f
    rw [List.drop_eq_getElem_cons hlt, hget, runAll, ht]
    rwa [hupc, hkept.cfg] at hf

/-! ### How an operation begins and ends -/

theorem State.Lines.respond_inv {s : State} {st : Status} {v : Payload} (h : s.Lines)
    (hr : Rsp.Sound s.cfg { status := st, value := v }) : (s.respond st v).Inv :=
  State.Lines.inv (h.of rfl rfl rfl rfl rfl rfl) (State.sequencerSound_resting rfl rfl) hr

theorem State.Lines.endLineFault_inv {s : State} (h : s.Lines) (hf : s.cfg.lineFaults = true) : s.endLineFault.Inv :=
  h.respond_inv (Rsp.sound_lineFault hf)

theorem State.Inv.endIllegal {s : State} (h : s.Inv) (hb : s.busy = false) : s.endIllegal.Inv :=
  State.Lines.inv (h.lines.of rfl rfl rfl rfl rfl rfl)
    (State.sequencerSound_resting hb (h.sequencer.upc_eq_zero hb)) (Rsp.sound_illegal _)

theorem State.Inv.accept {s : State} {w : Command} {i : Instr} (h : s.Inv) (hd : decode w = .ok i)
    (hr : s.refusal (needsInit i) = none) : (s.accept w).Inv := by
  refine State.Lines.inv (h.lines.of rfl rfl rfl rfl rfl rfl) ?_ h.rspSound
  refine State.sequencerSound_running rfl hd (Nat.zero_le _) fun f => ?_
  rw [← encode_of_decode hd]
  exact runAll_microOps_contract hr f

/-! ### Each way a step can answer a next state -/

/-- The four events of `INIT` and reset drive `CS` and `CLK` only after making them outputs (R220). -/
theorem State.Lines.idling {s : State} (h : s.Lines) : s.idling.Lines := by
  have hcs : ((s.applyDir .cs .out).applySet .cs false).Lines :=
    (h.applyDir (l := .cs) (d := .out) rfl).applySet (Pin.turn_out_dir _ _)
  exact (hcs.applyDir (l := .clk) (d := .out) rfl).applySet (Pin.turn_out_dir _ _)

theorem State.Inv.resetNow {s : State} (h : s.Inv) : s.resetNow.Inv := by
  have hfloating : ({ s with dio := Pin.floating } : State).Lines :=
    { h.lines with dioPin := ⟨fun hl => absurd rfl hl, fun hh => by cases hh⟩ }
  have hlines : s.resetNow.Lines := State.Lines.idling (hfloating.of rfl rfl rfl rfl rfl rfl)
  obtain ⟨p, hp, -⟩ := s.resetNow_eq
  refine hlines.inv (State.sequencerSound_resting ?_ ?_) ?_
  · rw [hp]
  · rw [hp]
  · rw [hp]; exact Rsp.sound_ok _ _

theorem State.Inv.sequence {s t : State} (h : s.Inv) (hb : s.busy = true) (ht : Machine.sequence s = .next t) :
    t.Inv := by
  obtain ⟨op, hd, ⟨-, rfl⟩ | ⟨m, hm, hp⟩⟩ := sequence_next ht
  · exact h.lines.respond_inv (Rsp.sound_ok _ _)
  · have hproper : m.proper := microOps_proper s.cfg op m (List.mem_of_getElem? hm)
    obtain hp | ⟨u, hp, rfl⟩ := hp
    · have hkept := (perform_stepped hp).kept
      refine (perform_lines h.lines hproper (.inl hp)).inv (h.sequencer.perform hb hd hm hp) ?_
      rw [hkept.rsp, hkept.cfg]
      exact h.rspSound
    · refine (perform_lines h.lines hproper (.inr hp)).endLineFault_inv ?_
      rw [(perform_onward (.inr hp)).cfg]
      exact (perform_failed hp).1

theorem State.Inv.exec {s t : State} {i : Instr} (h : s.Inv) (ht : Machine.exec i s = .next t) : t.Inv := by
  have hlines : (s.accept (encode i)).Lines := h.lines.of rfl rfl rfl rfl rfl rfl
  have hproper := microOps_proper s.cfg i
  obtain ⟨-, u, ⟨hu, rfl⟩ | ⟨hu, rfl⟩⟩ := exec_next ht
  · exact (runAll_lines hlines hproper (.inl hu)).respond_inv (Rsp.sound_ok _ _)
  · obtain ⟨hfaults, hcfg⟩ := runAll_failed_faults hu
    exact (runAll_lines hlines hproper (.inr hu)).endLineFault_inv (hcfg ▸ hfaults)

theorem State.Inv.takeCommand {s t : State} {w : Command} (h : s.Inv) (hb : s.busy = false)
    (ht : Machine.takeCommand w s = .next t) : t.Inv := by
  obtain ⟨-, -, rfl⟩ | ⟨i, hd, ⟨-, he⟩ | ⟨-, hr, rfl⟩⟩ := takeCommand_next ht
  · exact h.endIllegal hb
  · exact h.exec he
  · exact h.accept hd hr

theorem State.Inv.hostTurn {s : State} (h : s.Inv) (hb : s.busy = false) : (Machine.hostTurn s).Inv := by
  have hu := h.sequencer.upc_eq_zero hb
  simp only [Machine.hostTurn]
  split <;>
    exact State.Lines.inv (h.lines.of rfl rfl rfl rfl rfl rfl) (State.sequencerSound_resting hb hu) h.rspSound

end Sys2Proof.Machine
end

section
/-! SUPPORT. The state right after reset and at power-up, and what a line event leaves on a handle and its port
(10_state.md R20, R22, R37, R38). -/

namespace Sys2Proof.Machine

/-! ### Before the first event -/

theorem Pin.floating_sound : Pin.floating.Sound := ⟨fun h => absurd rfl h, fun h => by cases h⟩

theorem Chip.launch_sound (c : Cfg) (k : ChipKind) : (Chip.launch k).Sound c :=
  ⟨⟨rfl, fun _ h => by cases h⟩, Nat.zero_le _⟩

theorem State.reset_lines : State.reset.Lines where
  chip := Chip.launch_sound _ _
  undriven _ _ := rfl
  clkDir := by decide
  csDir := by decide
  clkPin := Pin.Sound.driving false
  dioPin := Pin.floating_sound
  csPin := Pin.Sound.driving false
  phaseCs := by decide

theorem State.powerUp_lines : State.powerUp.Lines :=
  { State.reset_lines with
    undriven _ _ := rfl
    clkDir := by decide
    csDir := by decide
    clkPin := Pin.floating_sound
    csPin := Pin.floating_sound
    phaseCs := by decide }

/-! ### Handles and ports -/

theorem Pin.wire_none {p : Pin} (h : p.dir ≠ .out) : p.wire = none := by
  cases hd : p.dir with
  | out => exact absurd hd h
  | inp => simp [Pin.wire, hd]
  | unset => simp [Pin.wire, hd]

/-- An output without a level shows the one level it holds (R22). -/
theorem Pin.wire_held {p : Pin} (h : p.dir = .out) (hl : p.lvl = .unset) : p.wire = some p.held := by
  simp [Pin.wire, h, hl]

theorem Pin.turn_out_of_out {p : Pin} (ev : Nat) (h : p.dir = .out) : p.turn .out ev = p := by
  simp [Pin.turn, h]

@[simp] theorem State.pin_applyDir (s : State) (l l' : Line) (d : Dir) :
    (s.applyDir l d).pin l' = if l' = l then (s.pin l).turn d s.events else s.pin l' := by
  cases l <;> cases l' <;> rfl

@[simp] theorem State.pin_applySet (s : State) (l l' : Line) (b : Bool) :
    (s.applySet l b).pin l' = if l' = l then (s.pin l).drive b else s.pin l' := by
  cases l <;> cases l' <;> rfl

@[simp] theorem State.pin_applyGet (s : State) (k : Fin 8) (l : Line) : (s.applyGet k).pin l = s.pin l := by
  cases l <;> rfl

end Sys2Proof.Machine
end

section
/-! SUPPORT. START and STOP as one update of the state: a read frame of `SECOND`, then a guarded write of the byte read
with the clock-halt bit changed (41_register_access.md R133, R134). -/

namespace Sys2Proof.Machine

/-! ### The clock-halt bit (R31) -/

theorem getLsbD_chMask (c : Cfg) (k : Nat) : (chMask c).getLsbD k = decide (k = c.chBit.val) := by
  have hlt := c.chBit.isLt
  rw [chMask, BitVec.getLsbD_shiftLeft, BitVec.getLsbD_one, ← Bool.decide_and, ← decide_not, ← Bool.decide_and,
    ← Bool.decide_and, decide_eq_decide]
  omega

theorem getLsbD_stopByte (c : Cfg) (t : Byte) (k : Nat) :
    (stopByte c t).getLsbD k = (t.getLsbD k || decide (k = c.chBit.val)) := by
  rw [stopByte, BitVec.getLsbD_or, getLsbD_chMask]

theorem getLsbD_startByte (c : Cfg) (t : Byte) (k : Nat) :
    (startByte c t).getLsbD k = (t.getLsbD k && decide (k ≠ c.chBit.val)) := by
  rw [startByte, BitVec.getLsbD_and, BitVec.getLsbD_not, getLsbD_chMask, decide_not]
  by_cases hk : k < 8
  · simp [hk]
  · simp [BitVec.getLsbD_of_ge t k (Nat.le_of_not_lt hk)]

theorem clockHalted_stopByte (c : Cfg) (t : Byte) : clockHalted c (stopByte c t) = true := by
  rw [clockHalted, getLsbD_stopByte, decide_eq_true rfl, Bool.or_true]

theorem clockHalted_startByte (c : Cfg) (t : Byte) : clockHalted c (startByte c t) = false := by
  rw [clockHalted, getLsbD_startByte, decide_eq_false (not_not_intro rfl), Bool.and_false]

/-! ### The line events -/

/-- The line events of `START` and `STOP`, with the byte written back from `src`. -/
def rewriteSecond (c : Cfg) (src : ByteSource) : List Micro :=
  readFrame (readAddr c c.addrSecond) .keep ++ guardedWrite c c.addrSecond src .nothing

theorem microOps_start (c : Cfg) : microOps c .start = rewriteSecond c .started := rfl

theorem microOps_stop (c : Cfg) : microOps c .stop = rewriteSecond c .stopped := rfl

/-- What the read frame leaves, with the peripheral at `p`. -/
def State.readSecond (s : State) (p : Chip) : State :=
  let a := readAddr s.cfg s.cfg.addrSecond
  { ({ s with t := s.frameByte a } : State).afterReadFrame a (s.frameByte a) (s.frameRest a) p with
    upc := s.upc + 52 }

/-- What the guarded write after it leaves. -/
def State.rewroteSecond (s : State) (src : ByteSource) (p : Chip) : State :=
  let u := s.readSecond p
  { u.afterGuardedWrite s.cfg.addrSecond (src.value u) (u.guardWrote s.cfg.addrSecond (src.value u)) with
    upc := s.upc + 208 }

theorem runAll_rewriteSecond (s : State) (h : s.Framing) (src : ByteSource) :
    ∃ p, s.chip.AfterRead s.cfg s.events (readAddr s.cfg s.cfg.addrSecond) p ∧
      runAll (rewriteSecond s.cfg src) s = .done (s.rewroteSecond src p) := by
  obtain ⟨p, hread, hp⟩ := runAll_readFrame_eq s h (readAddr s.cfg s.cfg.addrSecond) .keep
  have hframing : (s.readSecond p).Framing := ⟨h.faults, rfl, rfl, rfl, rfl⟩
  exact ⟨p, hp, (runAll_append_done (t := s.readSecond p) hread).trans
    (runAll_guardedWrite (s.readSecond p) hframing s.cfg.addrSecond src .nothing)⟩

/-! ### On the reference peripheral -/

theorem exec_rewriteSecond {s : State} {i : Instr} {src : ByteSource} (h : s.RefReady)
    (ho : protects s.cfg.wpOff = false) (hi : microOps s.cfg i = rewriteSecond s.cfg src) :
    ∃ t, exec i s = .next t ∧ t.RefReady ∧ t.cfg = s.cfg ∧
      t.chip.cell s.cfg (.field .second) = src.value { s with t := s.chip.cell s.cfg (.field .second) } := by
  obtain ⟨hready, hkind, hwf⟩ := h
  have hc := cfgOk s.cfg hwf
  obtain ⟨p, hp, hrun⟩ := runAll_rewriteSecond (s.accept (encode i)) (hready.framing _) src
  obtain ⟨hwrite, hodd, hread⟩ := reached hc (mem_regMap_field s.cfg .second)
  have heven : isReadAddr s.cfg.addrSecond = false := regAddr_even hc (mem_regMap_field s.cfg .second)
  have hbyte : (s.accept (encode i)).frameByte (readAddr s.cfg s.cfg.addrSecond) = s.chip.cell s.cfg (.field .second) :=
    frameByte_reference (s := s.accept (encode i)) hkind hodd hread
  have hu : ((s.accept (encode i)).readSecond p).chip.kind = .reference := hp.kind.trans hkind
  rw [exec_eq_operate, hi]
  refine ⟨_, operate_done (hready.1.accepting.refusal _) hrun,
    ⟨⟨⟨rfl, rfl, rfl, rfl, rfl⟩, hready.2⟩, ?_, hwf⟩, rfl, ?_⟩
  · exact (State.guardWrote_kind _ _ _).trans hu
  · exact (guardWrote_cell hu hc ho _ heven hwrite nofun).trans (ByteSource.value_of src rfl hbyte)

end Sys2Proof.Machine
end

section
/-! PROOFS. The state statements (10_state.md R20 to R38). -/

namespace Sys2Proof.Machine

/-- Settles O57: the lines, the sequencer and the response are kept in each of the four ways a step can answer a next
state. -/
theorem stepKeepsInvariant : Obligations.StepKeepsInvariant := by
  intro s t h ht
  obtain ⟨-, rfl⟩ | ⟨-, hb, -, hq⟩ | ⟨-, hb, w, -, hw⟩ | ⟨-, hb, -, rfl⟩ := step_next ht
  · exact h.resetNow
  · exact h.sequence hb hq
  · exact h.takeCommand hb hw
  · exact h.hostTurn hb

/-- Settles O44: `STOP` writes back the second with its clock-halt bit set, and `START` writes that back with it
cleared. -/
theorem stopThenStartRestores : Obligations.StopThenStartRestores := by
  intro s h ho
  obtain ⟨t, hstop, ht, hcfg, hsecond⟩ := exec_rewriteSecond h ho (microOps_stop s.cfg)
  obtain ⟨u, hstart, -, -, hsecond'⟩ := exec_rewriteSecond ht (by rw [hcfg]; exact ho) (microOps_start t.cfg)
  rw [hcfg, hsecond] at hsecond'
  simp only [ByteSource.value] at hsecond hsecond'
  refine ⟨t, u, hstop, hstart, ?_, ?_, fun k hk => ?_⟩
  · rw [hsecond]; exact clockHalted_stopByte _ _
  · rw [hsecond']; exact clockHalted_startByte _ _
  · simp [hsecond', getLsbD_startByte, getLsbD_stopByte, hk]

/-- Settles O13: the reset state field by field. -/
theorem resetStateIsTheTable : Obligations.ResetStateIsTheTable :=
  ⟨rfl, rfl, rfl, rfl, rfl, rfl, rfl, rfl, rfl, rfl, rfl⟩

/-- Settles O15: a port shows the wire of its line, which only an event on that line can change. -/
theorem outputPortsShowTheState : Obligations.OutputPortsShowTheState := by
  intro s
  refine ⟨fun b => Pin.wire_of, Pin.wire_none, fun b => Pin.wire_of, Pin.wire_none, ?_, rfl, decide_eq_true_iff, rfl,
    rfl, s.rsp.word_value, ?_⟩
  · rintro l shown hl hd hu
    have hshown : ∀ t : State, shown t.ports = (t.pin l).wire := by
      obtain ⟨rfl, rfl⟩ | ⟨rfl, rfl⟩ := hl <;> exact fun _ => rfl
    have hheld : (s.pin l).wire = some (s.pin l).held := Pin.wire_held hd hu
    simp only [hshown]
    refine ⟨_, hheld, ?_, ?_, ?_, ?_⟩
    · rintro l' d (hne | rfl)
      · simp [hne.symm, hheld]
      · by_cases hl' : l = l'
        · subst hl'; simp [Pin.turn_out_of_out _ hd, hheld]
        · simp [hl', hheld]
    · intro l' v hne; simp [hne.symm, hheld]
    · intro k; simp [hheld]
    · intro v; simp [Pin.wire_drive v hd]
  · refine s.rsp.word_status.trans ?_
    cases s.rsp.status <;> rfl

/-- Settles O58: no register is listed, no operation runs, and every line is unset or an output. -/
theorem resetMeetsInvariant : Obligations.ResetMeetsInvariant :=
  ⟨State.Lines.inv State.reset_lines (State.sequencerSound_resting rfl rfl) (Rsp.sound_ok _ _),
    State.Lines.inv State.powerUp_lines (State.sequencerSound_resting rfl rfl) (Rsp.sound_ok _ _)⟩

end Sys2Proof.Machine
end

section
/-! SUPPORT. The operations of one frame or of one guarded write as one update each, and the operations that end with a
guarded write (41_register_access.md R130 to R134). -/

namespace Sys2Proof.Machine

/-! ### From the run of an operation to its answer -/

theorem exec_done {s u : State} {i : Instr} (h : s.Ready)
    (hr : runAll (microOps s.cfg i) (s.accept (encode i)) = .done u) :
    exec i s = .next (u.respond .ok (resultOf i u)) :=
  (exec_eq_operate i s).trans (operate_done (h.1.accepting.refusal _) hr)

theorem State.Framing.respond_idle {u : State} (h : u.Framing) (st : Status) (v : Payload) : (u.respond st v).Idle :=
  ⟨rfl, h.clkDir, h.csDir, h.clkLvl, h.csLvl⟩

theorem AtEnd.keepIn_trace (s : State) (x : AtEnd) : (x.keepIn s).trace = s.trace := by cases x <;> rfl

/-! ### One read frame -/

/-- An operation with a read target is one read frame (R130, R150, R168). -/
theorem microOps_of_readTarget {c : Cfg} {i : Instr} {a : Byte} (h : readTarget c i = some a) :
    ∃ x, microOps c i = readFrame a x := by
  cases i <;> cases h <;> exact ⟨_, rfl⟩

theorem exec_readFrame {s : State} {i : Instr} {a : Byte} (h : s.Ready) (hi : readTarget s.cfg i = some a) :
    ∃ t, exec i s = .next t ∧ t.Idle ∧ t.trace = (readFrameEvents a (s.frameByte a)).reverse ++ s.trace ∧
      s.chip.AfterRead s.cfg s.events a t.chip := by
  obtain ⟨x, hx⟩ := microOps_of_readTarget hi
  obtain ⟨p, hrun, hp⟩ := runAll_readFrame_eq (s.accept (encode i)) (h.framing _) a x
  rw [← hx] at hrun
  refine ⟨_, exec_done h hrun, State.Framing.respond_idle (AtEnd.keepIn_framing ?_ x) _ _, ?_, ?_⟩
  · exact ⟨h.2, rfl, rfl, rfl, rfl⟩
  · exact AtEnd.keepIn_trace _ x
  · rw [State.respond_chip, AtEnd.keepIn_chip]
    exact hp

/-! ### One write frame -/

theorem exec_setReg {s : State} (h : s.Ready) (a b : Byte) :
    ∃ t, exec (.setReg a b) s = .next t ∧ t.rsp.status = .ok ∧ t.chip = s.frameWrote a b :=
  ⟨_, exec_done h (runAll_writeFrame_eq (s.accept _) (h.framing _) a (.lit b) .nothing), rfl, rfl⟩

theorem State.frameWrote_modelled {s : State} (h : s.chip.kind ≠ .external) (a b : Byte) :
    s.frameWrote a b = s.chip.wroteFrame s.cfg s.events a b := if_neg h

/-! ### Guarded writes -/

/-- An operation with a guarded target is one guarded write (R132, R151, R169). -/
theorem microOps_of_guardedTarget {c : Cfg} {i : Instr} {a b : Byte} (h : guardedTarget c i = some (a, b)) :
    ∃ x, microOps c i = guardedWrite c a (.lit b) x := by
  cases i <;> cases h <;> exact ⟨_, rfl⟩

theorem exec_guardedWrite {s : State} {i : Instr} {a b : Byte} (h : s.Ready)
    (hi : guardedTarget s.cfg i = some (a, b)) : ∃ t, exec i s = .next t ∧ t.chip = s.guardWrote a b := by
  obtain ⟨x, hx⟩ := microOps_of_guardedTarget hi
  have hrun := runAll_guardedWrite (s.accept (encode i)) (h.framing _) a (.lit b) x
  rw [State.accept_cfg, ← hx] at hrun
  exact ⟨_, exec_done h hrun, (State.respond_chip ..).trans (AtEnd.keepIn_chip _ x)⟩

/-- An operation that ends with a guarded write leaves the peripheral as the guarded write does, from where the frames
before it have led. -/
theorem exec_endsGuarded {s : State} {i : Instr} {xs : List Micro} {as : List Nat} {a : Byte} {src : ByteSource}
    {x : AtEnd} (h : s.Ready) (hxs : StoresAt s.cfg xs as)
    (hi : microOps s.cfg i = xs ++ guardedWrite s.cfg a src x) :
    ∃ t v : State, exec i s = .next t ∧ v.cfg = s.cfg ∧ v.chip.kind = s.chip.kind ∧
      t.chip = v.guardWrote a (src.value v) := by
  obtain ⟨v, hrun, hframing, hcfg, hstores⟩ := hxs (s.accept (encode i)) (h.framing _) rfl
  have hguarded := runAll_guardedWrite v hframing a src x
  rw [hcfg, ← runAll_append_done hrun, ← hi] at hguarded
  exact ⟨_, v, exec_done h hguarded, hcfg, hstores.kind, (State.respond_chip ..).trans (AtEnd.keepIn_chip _ x)⟩

/-- `SET_DATETIME` is seven field writes in the order of the calendar snapshot (R167). -/
theorem microOps_setDatetime (c : Cfg) (y mo d wd h mi sec : Word16) :
    microOps c (.setDatetime y mo d wd h mi sec) =
      snapshotOrder.flatMap fun f => fieldWrite c f (tupleOf y mo d wd h mi sec f) := by
  simp [microOps, setDatetimeOps, snapshotOrder, tupleOf]

theorem storesAt_fieldWrites (c : Cfg) (v : Field → Word16) (fs : List Field) :
    StoresAt c (fs.flatMap fun f => fieldWrite c f (v f)) (fs.flatMap fun f => guardedStores c (fieldAddr c f)) :=
  StoresAt.flatMap fs fun _ => storesAt_guardedWrite c _ _ _

/-- `START`, `STOP` and `SET_DATETIME` end with a guarded write (R133, R134, R167). -/
theorem microOps_endsGuarded (c : Cfg) {i : Instr}
    (hi : i = .start ∨ i = .stop ∨ ∃ y mo d wd h mi sec, i = .setDatetime y mo d wd h mi sec) :
    ∃ xs as a src x, StoresAt c xs as ∧ microOps c i = xs ++ guardedWrite c a src x := by
  obtain rfl | rfl | ⟨y, mo, d, wd, h, mi, sec, rfl⟩ := hi
  · exact ⟨_, _, _, _, _, storesAt_readFrame c _ _, rfl⟩
  · exact ⟨_, _, _, _, _, storesAt_readFrame c _ _, rfl⟩
  · refine ⟨_, _, fieldAddr c .second, .lit (fieldByte c .second sec),
      .record (.field .second (fieldReduce c .second sec)),
      storesAt_fieldWrites c (tupleOf y mo d wd h mi sec) [.year, .month, .day, .weekday, .hour, .minute], ?_⟩
    rw [microOps_setDatetime, show snapshotOrder = [.year, .month, .day, .weekday, .hour, .minute] ++ [.second] from rfl,
      List.flatMap_append, List.flatMap_singleton]
    rfl

end Sys2Proof.Machine
end

section
/-! SUPPORT. A write frame case by case on a modelled peripheral: the byte is stored, or refused (20_memory.md R59, R70),
and what a read frame presents of a register that no chip advances by itself (R69, R74). -/

namespace Sys2Proof.Machine

theorem State.RefReady.modelled {s : State} (h : s.RefReady) : s.chip.kind ≠ .external := by
  rw [h.2.1]; nofun

/-- A write address that decodes to a register is the address of that register (R71). -/
theorem regAddr_of_decodeAddr {c : Cfg} {a : Byte} {x : Reg} (he : isReadAddr a = false)
    (hd : decodeAddr c a = some x) : regAddr c x = a :=
  (decodeAddr_some hd).2.trans (writeAddrOf_even a he).1

/-- The byte is stored in `WP`, and in every register while protection is off (R70). -/
theorem Chip.wroteFrame_stored {c : Cfg} (hc : CfgOk c) (ev : Nat) {a : Byte} (b : Byte) {p : Chip} {x : Reg}
    (he : isReadAddr a = false) (hd : decodeAddr c a = some x)
    (ho : x = .wp ∨ protects (p.cell c .wp) = false) : (p.wroteFrame c ev a b).cell c x = b := by
  obtain rfl | ho := ho
  · rw [← regAddr_of_decodeAddr he hd]
    exact Chip.wroteFrame_wp hc ev b p
  · exact Chip.wroteFrame_open hc ev b ho he hd

theorem frameCells_unmapped {c : Cfg} {a : Byte} (b : Byte) (m : Memory) (hd : decodeAddr c a = none) :
    frameCells c a b m = m := by
  simp only [frameCells, commitCells, hd, ite_self]

/-- Protection stands before every register but `WP` (R59). -/
theorem frameCells_protected {c : Cfg} {a : Byte} (b : Byte) {m : Memory} {x : Reg} (hd : decodeAddr c a = some x)
    (hx : x ≠ .wp) (hp : protects (cellOf c m .wp) = true) : frameCells c a b m = m := by
  cases x with
  | wp => exact absurd rfl hx
  | _ => simp only [frameCells, commitCells, hd, hp, if_true, ite_self]

/-- Protection is as it was when the frame began: no chip advances `WP` by itself (R74). -/
theorem Chip.wroteFrame_protected {c : Cfg} (hc : CfgOk c) (ev : Nat) {a : Byte} (b : Byte) {p : Chip} {x : Reg}
    (hd : decodeAddr c a = some x) (hx : x ≠ .wp) (hp : protects (p.cell c .wp) = true) :
    (p.wroteFrame c ev a b).cells = (p.sinceLastFrame c ev).cells := by
  rw [Chip.wroteFrame_store]
  refine frameCells_protected b hd hx ?_
  rw [cellOf_sinceLastFrame hc ev p (mem_regMap_wp c) nofun]
  exact hp

/-- A read frame finds what a register held before it, if no chip advances that register by itself (R69, R74). -/
theorem frameByte_modelled {s : State} (hk : s.chip.kind ≠ .external) (hc : CfgOk s.cfg) {a : Byte} {x : Reg}
    (hr : isReadAddr a = true) (hd : decodeAddr s.cfg a = some x) (hf : ∀ f, x ≠ .field f) :
    s.frameByte a = s.chip.cell s.cfg x := by
  rw [State.frameByte, if_pos ⟨hk, hr⟩]
  simp only [Chip.presented, Chip.fetch, hd]
  exact cellOf_sinceLastFrame hc s.events s.chip (decodeAddr_some hd).1 hf

/-- A read frame at a read address changes no register while the oscillator is halted (R69, R74). -/
theorem Chip.AfterRead.cells_halted {c : Cfg} {ev : Nat} {a : Byte} {p q : Chip} (h : p.AfterRead c ev a q)
    (hk : p.kind ≠ .external) (hr : isReadAddr a = true) (hh : clockHalted c (p.cell c (.field .second)) = true) :
    q.cells = p.cells := by
  obtain ⟨v, hq⟩ := h.store hk
  rw [hq, frameCells, if_pos hr, Chip.sinceLastFrame_halted hh]

/-- A guarded write at a read address, at an address of no register, or where `WP_OFF` protects, stores nothing but in
`WP` (R59, R132). -/
theorem guardWrote_idle {s : State} (h : s.chip.kind = .reference) (hc : CfgOk s.cfg) {a : Byte} (b : Byte)
    (hi : isReadAddr a = true ∨ decodeAddr s.cfg a = none ∨ protects s.cfg.wpOff = true) {k : Nat}
    (hk : k ≠ s.cfg.addrWp.toNat) : Memory.read (s.guardWrote a b).cells k = Memory.read s.chip.cells k := by
  have hoff : cellOf s.cfg (frameCells s.cfg s.cfg.addrWp s.cfg.wpOff s.chip.cells) .wp = s.cfg.wpOff := by
    rw [frameCells_wp hc]; exact cellOf_write_same s.cfg _ .wp _
  rw [State.guardWrote_cells h, frameCells_other _ _ _ hk, frameCells_idle b (by rw [hoff]; exact hi) hk,
    frameCells_other _ _ _ hk]

end Sys2Proof.Machine
end

section
/-! PROOFS. The statements of the reference peripheral (20_memory.md R66 to R75). -/

namespace Sys2Proof.Machine

/-- Settles O37: the byte presented is fetched before anything is driven, and no frame at a read address commits. -/
theorem readFrameReturnsTheRegister : Obligations.ReadFrameReturnsTheRegister := by
  intro s i a h hi hr
  obtain ⟨t, hexec, hidle, htrace, hread⟩ := exec_readFrame h.1 hi
  have hchip := hread.reference h.2.1 hr
  exact ⟨t, _, hexec, htrace, fun x hx => frameByte_reference h.2.1 hr hx, by rw [hchip], by rw [hchip], hidle⟩

/-- Settles O38: the 16th rising edge commits the byte, and each clause is a case of the commit. -/
theorem writeFrameCommits : Obligations.WriteFrameCommits := by
  intro s a b h he
  have hmodelled := h.modelled
  obtain ⟨hready, hkind, hwf⟩ := h
  obtain ⟨t, hexec, hok, hchip⟩ := exec_setReg hready a b
  have hcells : t.chip.cells = frameCells s.cfg a b s.chip.cells := hchip ▸ State.frameWrote_cells hkind a b
  rw [State.frameWrote_modelled hmodelled] at hchip
  refine ⟨t, hexec, hok, by rw [hchip, Chip.wroteFrame_drv], fun hd => ?_, fun x hd => ⟨fun ho => ⟨?_, fun k hk => ?_⟩,
    fun hx hp => ?_⟩⟩
  · rw [hcells, frameCells_unmapped b _ hd]
  · rw [hchip, Chip.wroteFrame_stored (cfgOk s.cfg hwf) s.events b he hd ho]
  · rw [hcells, frameCells_other a b _ hk]
  · rw [hcells, frameCells_protected b hd hx hp]

/-- Settles O39: a frame is a write frame to the peripheral by its address alone, whoever drives the second byte. -/
theorem mispairedFrames : Obligations.MispairedFrames := by
  intro s a b h
  refine ⟨fun hr => ?_, fun he => ?_⟩
  · obtain ⟨t, hexec, -, hchip⟩ := exec_setReg h.1 a b
    exact ⟨t, hexec, hchip ▸ (s.frameWrote_leaves a b).kept h.2.1 hr⟩
  · obtain ⟨t, hexec, -, -, hread⟩ := exec_readFrame h.1 (i := .getReg a) rfl
    obtain ⟨v, hcells⟩ := hread.leaves.committed h.2.1 he
    obtain ⟨u, hexec', -, hchip⟩ := exec_setReg h.1 a v
    exact ⟨t, v, u, hexec, hexec', hcells.trans (hchip ▸ (s.frameWrote_leaves a v).committed h.2.1 he).symm⟩

/-- Settles O40: the first frame lifts protection unless `WP_OFF` protects, and the third reaches `WP` in any case. -/
theorem guardedWriteCommits : Obligations.GuardedWriteCommits := by
  intro s i a b h hi
  obtain ⟨hready, hkind, hwf⟩ := h
  have hc := cfgOk s.cfg hwf
  obtain ⟨t, hexec, hchip⟩ := exec_guardedWrite hready hi
  refine ⟨t, hexec, ?_, ?_, ?_, ?_⟩ <;> rw [hchip]
  · exact guardWrote_wp hkind hc a b
  · exact fun k hk hk' => guardWrote_other hkind a b hk hk'
  · exact fun x ho he hd hx => guardWrote_cell hkind hc ho b he hd hx
  · exact fun hidle k hk => guardWrote_idle hkind hc b hidle hk

end Sys2Proof.Machine
end

section
/-! SUPPORT. Where an operation stores, whatever it is (20_memory.md R60 (d), R74): the operations without a frame change
no register, since `CS` stays low (R123, R220). -/

namespace Sys2Proof.Machine

theorem State.Ready.shifting {s : State} (h : s.Ready) (w : Command) : (s.accept w).Shifting false :=
  ⟨h.2, h.1.2.1, h.1.2.2.2.1, Pin.wire_of h.1.2.2.1 h.1.2.2.2.2⟩

theorem exec_unframed_cells {s : State} {i : Instr} (h : s.Ready) (hi : isFramed i = false) :
    ∃ t, exec i s = .next t ∧ t.chip.cells = s.chip.cells := by
  have hline := h.shifting (encode i)
  cases i with
  | init =>
    refine ⟨_, exec_done h (runAll_initOps (s.accept (encode .init)) h.2), ?_⟩
    rw [State.respond_chip]
    exact State.idling_cells (s := s.accept (encode .init)) h.1.2.2.1 h.1.2.2.2.2
  | writeByte b =>
    refine ⟨_, exec_done h (runAll_shiftOut (.lit b) _ false hline), ?_⟩
    rw [State.respond_chip, cellsOut_quiet _ _ _ (.inr rfl)]
    rfl
  | readByte =>
    refine ⟨_, exec_done h (runAll_shiftIn _ false hline), ?_⟩
    rw [State.respond_chip, cellsIn_quiet _ _ _ (.inr rfl)]
    rfl
  | dec2bcd n => exact ⟨_, exec_done h rfl, rfl⟩
  | bcd2dec n => exact ⟨_, exec_done h rfl, rfl⟩
  | _ => cases hi

theorem exec_framed_stores {s : State} {i : Instr} (h : s.Ready) (hi : isFramed i = true) :
    ∃ t, exec i s = .next t ∧ (s.accept (encode i)).StoresOnlyAt (storedAt s.cfg i) t.chip := by
  obtain ⟨u, hrun, -, -, hstores⟩ := storesAt_microOps s.cfg i hi (s.accept (encode i)) (h.framing _) rfl
  exact ⟨_, exec_done h hrun, hstores⟩

/-- On a chip that keeps time every operation leaves the bytes outside the calendar and outside where it stores. -/
theorem exec_ticking_other {s : State} (i : Instr) (h : s.Ready) (hk : s.chip.kind = .ticking) :
    ∃ t, exec i s = .next t ∧ ∀ k, k ∉ storedAt s.cfg i → (∀ f, k ≠ (fieldAddr s.cfg f).toNat) →
      Memory.read t.chip.cells k = Memory.read s.chip.cells k := by
  cases hi : isFramed i with
  | true =>
    obtain ⟨t, hexec, hstores⟩ := exec_framed_stores h hi
    exact ⟨t, hexec, hstores.ticking hk⟩
  | false =>
    obtain ⟨t, hexec, hcells⟩ := exec_unframed_cells h hi
    exact ⟨t, hexec, fun k _ _ => by rw [hcells]⟩

end Sys2Proof.Machine
end

section
/-! SUPPORT. The event view up to the end of the frame of a guarded write that carries its byte (10_state.md R27;
41_register_access.md R132). -/

namespace Sys2Proof.Machine

/-- The first two frames of a guarded write: protection off, and the target. -/
def openWrite (c : Cfg) (a : Byte) (src : ByteSource) : List Micro :=
  writeFrame c.addrWp (.lit c.wpOff) .nothing ++ writeFrame a src .nothing

theorem guardedWrite_eq (c : Cfg) (a : Byte) (src : ByteSource) (x : AtEnd) :
    guardedWrite c a src x = openWrite c a src ++ writeFrame c.addrWp (.lit c.wpOn) x := rfl

theorem openWrite_length (c : Cfg) (a : Byte) (src : ByteSource) : (openWrite c a src).length = 104 := rfl

theorem fieldWrite_length (c : Cfg) (f : Field) (v : Word16) : (fieldWrite c f v).length = 156 := by
  rw [fieldWrite, guardedWrite_eq, List.length_append, openWrite_length]
  rfl

theorem fieldWrites_length (c : Cfg) (v : Field → Word16) (fs : List Field) :
    (fs.flatMap fun f => fieldWrite c f (v f)).length = 156 * fs.length := by
  simp only [List.length_flatMap, fieldWrite_length, List.map_const', List.sum_replicate, smul_eq_mul, Nat.mul_comm]

/-- The operation `i` is presented, and a step is one event (R8, R38). -/
structure State.Presents (s : State) (i : Instr) : Prop where
  noReset : s.resetPin = false
  stepping : s.stepping = .event
  cmd : s.cmd = some (encode i)

theorem step_accepts {s : State} {i : Instr} (h : s.Ready) (hp : s.Presents i) :
    step s = .next (s.accept (encode i)) := by
  rw [step_command hp.noReset h.1.1 hp.cmd,
    takeCommand_event (decode_encode i) hp.stepping (h.1.accepting.refusal _)]

/-- In the event view the first events of an operation take one step each, after one for its acceptance. -/
theorem core_run_firstEvents {s u : State} {i : Instr} {ms ys : List Micro} (h : s.Ready) (hp : s.Presents i)
    (hi : microOps s.cfg i = ms ++ ys) (hrun : runAll ms (s.accept (encode i)) = .done u) :
    Host.Core.run Sys2Proof.core (ms.length + 1) s = .next u := by
  refine (core_run_step _ (step_accepts h hp)).trans
    (core_run_events (op := i) _ _ _ (decode_encode i) rfl rfl hp.noReset ?_ ?_)
  · rw [State.accept_cfg, hi, State.accept_upc, List.length_append]; omega
  · rw [State.accept_cfg, hi, State.accept_upc, List.drop_zero, List.take_left]
    exact hrun

/-- A register holds the byte of a guarded write at the end of the frame that carries it, if `WP_OFF` lifts protection,
whatever frames came before and whether the oscillator runs or not. -/
theorem core_run_openWrite {s : State} {i : Instr} {xs ys : List Micro} {as : List Nat} {a : Byte} {src : ByteSource}
    {x : Reg} (h : s.Ready) (hk : s.chip.kind ≠ .external) (hc : CfgOk s.cfg) (ho : protects s.cfg.wpOff = false)
    (hp : s.Presents i) (hxs : StoresAt s.cfg xs as) (hi : microOps s.cfg i = xs ++ openWrite s.cfg a src ++ ys)
    (he : isReadAddr a = false) (hd : decodeAddr s.cfg a = some x) :
    ∃ u v : State, Host.Core.run Sys2Proof.core (xs.length + 105) s = .next u ∧ v.cfg = s.cfg ∧
      u.chip.cell s.cfg x = src.value v := by
  obtain ⟨v, hrun, hframing, hcfg, hstores⟩ := hxs (s.accept (encode i)) (h.framing _) rfl
  have hkv : v.chip.kind ≠ .external := by rw [hstores.kind]; exact hk
  obtain ⟨u, hopen, hcell⟩ := runAll_openWrite hframing hkv (hcfg ▸ hc) (hcfg ▸ ho) src he (hcfg ▸ hd)
  rw [hcfg] at hopen hcell
  have hlen : (xs ++ openWrite s.cfg a src).length + 1 = xs.length + 105 := by
    rw [List.length_append, openWrite_length]
  exact ⟨u, v, hlen ▸ core_run_firstEvents h hp hi ((runAll_append_done hrun).trans hopen), hcfg, hcell⟩

/-- Element `k` of `SET_DATETIME` is written after the `k` guarded writes before it (R167). -/
theorem microOps_setDatetime_split (c : Cfg) (y mo d wd h mi sec : Word16) {k : Nat} {f : Field}
    (hf : snapshotOrder[k]? = some f) :
    ∃ ys, microOps c (.setDatetime y mo d wd h mi sec) =
      ((snapshotOrder.take k).flatMap fun g => fieldWrite c g (tupleOf y mo d wd h mi sec g)) ++
        openWrite c (fieldAddr c f) (.lit (fieldByte c f (tupleOf y mo d wd h mi sec f))) ++ ys := by
  obtain ⟨hlt, hget⟩ := List.getElem?_eq_some_iff.1 hf
  have hsplit : snapshotOrder = snapshotOrder.take k ++ f :: snapshotOrder.drop (k + 1) := by
    rw [← hget, ← List.drop_eq_getElem_cons hlt, List.take_append_drop]
  rw [microOps_setDatetime]
  conv in List.flatMap _ snapshotOrder => rw [hsplit]
  rw [List.flatMap_append, List.flatMap_cons, fieldWrite, guardedWrite_eq, List.append_assoc]
  simp only [List.append_assoc]
  exact ⟨_, rfl⟩

end Sys2Proof.Machine
end

section
/-! PROOFS. The statements of a chip that keeps time (20_memory.md R74). -/

namespace Sys2Proof.Machine

/-- Settles O47: every frame stores only at its address, and the chip advances only the calendar, when `CS` rises. -/
theorem tickingChipKeepsTheRest : Obligations.TickingChipKeepsTheRest := by
  intro s i h hk
  obtain ⟨t, hexec, hother⟩ := exec_ticking_other i h hk
  refine ⟨t, hexec, hother, fun a hi hr hh => ?_⟩
  obtain ⟨t', hexec', -, -, hread⟩ := exec_readFrame h hi
  cases hexec.symm.trans hexec'
  exact hread.cells_halted (by rw [hk]; nofun) hr hh

/-- Settles O48: the chip advances none of `WP`, `CTRL` and RAM, so a frame finds them as they stand. -/
theorem tickingChipStoresWhatIsWritten : Obligations.TickingChipStoresWhatIsWritten := by
  intro s h hwf hticking
  have hc := cfgOk s.cfg hwf
  have hk : s.chip.kind ≠ .external := by rw [hticking]; nofun
  refine ⟨fun i a x hi hr hd hf => ?_, fun a b x he hd => ?_, fun i a b hi => ?_, fun i hi => ?_⟩
  · obtain ⟨t, hexec, -, htrace, -⟩ := exec_readFrame h hi
    exact ⟨t, hexec, by rw [htrace, frameByte_modelled hk hc hr hd hf]⟩
  · obtain ⟨t, hexec, -, hchip⟩ := exec_setReg h a b
    rw [State.frameWrote_modelled hk] at hchip
    refine ⟨t, hexec, fun ho => ?_, fun hx hp hf => ?_⟩
    · rw [hchip, Chip.wroteFrame_stored hc s.events b he hd ho]
    · rw [hchip, Chip.cell_eq, Chip.wroteFrame_protected hc s.events b hd hx hp,
        cellOf_sinceLastFrame hc _ _ (decodeAddr_some hd).1 hf, Chip.cell_eq]
  · obtain ⟨t, hexec, hchip⟩ := exec_guardedWrite h hi
    refine ⟨t, hexec, ?_, fun x ho he hd hx hf => ?_⟩ <;> rw [hchip]
    · exact guardWrote_wp_modelled hk hc a b
    · exact guardWrote_cell_modelled hk hc ho b he hd hx hf
  · obtain ⟨xs, as, a, src, x, hxs, hops⟩ := microOps_endsGuarded s.cfg hi
    obtain ⟨t, v, hexec, hcfg, hkind, hchip⟩ := exec_endsGuarded h hxs hops
    refine ⟨t, hexec, ?_⟩
    rw [hchip, ← hcfg]
    exact guardWrote_wp_modelled (by rw [hkind]; exact hk) (hcfg ▸ hc) a _

/-- Settles O49: the second frame of a guarded write finds protection off and stores whatever the chip has done since
the first; the third leaves the byte unless the chip has run between the two. -/
theorem tickingChipStoresInTheCalendar : Obligations.TickingChipStoresInTheCalendar := by
  intro s h hwf hticking ho
  have hc := cfgOk s.cfg hwf
  have hk : s.chip.kind ≠ .external := by rw [hticking]; nofun
  have haddr : ∀ f, isReadAddr (fieldAddr s.cfg f) = false := fun f => regAddr_even hc (mem_regMap_field s.cfg f)
  have hdecode : ∀ f, decodeAddr s.cfg (fieldAddr s.cfg f) = some (.field f) := fun f =>
    (reached hc (mem_regMap_field s.cfg f)).1
  have hread := storesAt_readFrame s.cfg (readAddr s.cfg s.cfg.addrSecond) .keep
  refine ⟨fun i a b f hi he hd => ⟨fun hh => ?_, fun hr hs hcmd => ?_⟩, ?_, fun hr hs => ⟨fun hcmd => ?_, ?_⟩⟩
  · obtain ⟨t, hexec, hchip⟩ := exec_guardedWrite h hi
    exact ⟨t, hexec, hchip ▸ guardWrote_field_halted hk hc ho b he hd hh⟩
  · obtain ⟨x, hops⟩ := microOps_of_guardedTarget hi
    obtain ⟨u, v, hrun, -, hcell⟩ := core_run_openWrite (xs := []) h hk hc ho ⟨hr, hs, hcmd⟩
      (storesAt_fieldWrites s.cfg (fun _ => 0) []) (hops.trans (guardedWrite_eq ..)) he hd
    exact ⟨u, hrun, hcell⟩
  · obtain ⟨t, v, hexec, hcfg, hkind, hchip⟩ := exec_endsGuarded h hread (microOps_stop s.cfg)
    have hhalted : clockHalted v.cfg (ByteSource.stopped.value v) = true := clockHalted_stopByte v.cfg v.t
    refine ⟨t, hexec, ?_⟩
    rw [← hcfg] at hc ho haddr hdecode hchip ⊢
    have hcell := guardWrote_field_halted (hkind ▸ hk) hc ho _ (haddr .second) (hdecode .second) (.inr ⟨rfl, hhalted⟩)
    rw [hchip]
    exact (congrArg (clockHalted v.cfg) hcell).trans hhalted
  · obtain ⟨u, v, hrun, hcfg, hcell⟩ := core_run_openWrite h hk hc ho ⟨hr, hs, hcmd⟩ hread
      (by rw [List.append_assoc]; exact microOps_start s.cfg) (haddr .second) (hdecode .second)
    refine ⟨u, hrun, ?_⟩
    rw [hcell, ← hcfg]
    exact clockHalted_startByte v.cfg v.t
  · intro y mo d wd hour mi sec k f hcmd hf
    obtain ⟨ys, hops⟩ := microOps_setDatetime_split s.cfg y mo d wd hour mi sec hf
    obtain ⟨u, v, hrun, -, hcell⟩ := core_run_openWrite h hk hc ho ⟨hr, hs, hcmd⟩
      (storesAt_fieldWrites s.cfg _ _) hops (haddr f) (hdecode f)
    have hlt : k < snapshotOrder.length := (List.getElem?_eq_some_iff.1 hf).1
    rw [fieldWrites_length, List.length_take_of_le hlt.le] at hrun
    exact ⟨u, hrun, hcell⟩

end Sys2Proof.Machine
end

section
/-! SUPPORT. An illegal word, by the check it fails first (30_encoding.md R96), and what it does to an idle controller
(60_exceptions.md R192). -/

namespace Sys2Proof

/-- A word whose code has no format is refused for its code (R96 (a)). -/
theorem decode_of_reserved {w : Command} (h : formatOf (Command.op w) = none) : decode w = .error .reservedOpcode := by
  obtain ⟨o, r, p, rfl⟩ := Command.parts w
  rw [Command.op_parts] at h
  rw [decode_parts, h]
  cases assemble o p <;> rfl

/-- A word of a known code passes the checks on the reserved field and on the payload, in this order (R96 (b), (c)). -/
theorem decode_of_known {w : Command} {f : Format} (h : formatOf (Command.op w) = some f) :
    ∃ i, decode w = if Command.rsv w = 0#8 then
        if Command.payload w &&& ~~~f.free = 0#112 then .ok i else .error .payloadBit
      else .error .reservedField := by
  obtain ⟨o, r, p, rfl⟩ := Command.parts w
  rw [Command.op_parts] at h
  rw [decode_parts, Command.rsv_parts, Command.payload_parts, h]
  have hsome : (assemble o p).isSome = true := by rw [assemble_isSome, h]; rfl
  obtain ⟨i, hi⟩ := Option.isSome_iff_exists.1 hsome
  exact ⟨i, by rw [hi]⟩

end Sys2Proof

namespace Sys2Proof.Machine

/-- An illegal word presented to a controller that accepts commands is answered at once (R192). -/
theorem takeCommand_illegal {s : State} {w : Command} {e : Illegal} (hd : decode w = .error e) (ha : s.Accepting) :
    takeCommand w s = .next s.endIllegal := by
  simp only [takeCommand, hd, ha.refusal]

end Sys2Proof.Machine
end

section
/-! SUPPORT. The shape of an operation's event list, whatever its operands and the configuration (30_encoding.md R102). -/

namespace Sys2Proof.Machine

/-! ### Frames of one kind have one shape -/

theorem shape_readFrame_congr (a a' : Byte) (x x' : AtEnd) :
    (readFrame a x).map Micro.shape = (readFrame a' x').map Micro.shape :=
  (shape_readFrame a x).trans (shape_readFrame a' x').symm

theorem shape_writeFrame_congr (a a' : Byte) (src src' : ByteSource) (x x' : AtEnd) :
    (writeFrame a src x).map Micro.shape = (writeFrame a' src' x').map Micro.shape :=
  (shape_writeFrame a src x).trans (shape_writeFrame a' src' x').symm

theorem shape_append {xs xs' ys ys' : List Micro} (h : xs.map Micro.shape = xs'.map Micro.shape)
    (h' : ys.map Micro.shape = ys'.map Micro.shape) :
    (xs ++ ys).map Micro.shape = (xs' ++ ys').map Micro.shape := by
  rw [List.map_append, List.map_append, h, h']

theorem shape_flatMap {α : Type} {ops ops' : α → List Micro} (l : List α)
    (h : ∀ x, (ops x).map Micro.shape = (ops' x).map Micro.shape) :
    (l.flatMap ops).map Micro.shape = (l.flatMap ops').map Micro.shape := by
  simp only [List.map_flatMap, h]

theorem shape_guardedWrite_congr (c c' : Cfg) (a a' : Byte) (src src' : ByteSource) (x x' : AtEnd) :
    (guardedWrite c a src x).map Micro.shape = (guardedWrite c' a' src' x').map Micro.shape :=
  shape_append (shape_append (shape_writeFrame_congr ..) (shape_writeFrame_congr ..)) (shape_writeFrame_congr ..)

theorem shape_shiftOut (src src' : ByteSource) : (shiftOut src).map Micro.shape = (shiftOut src').map Micro.shape := rfl

theorem shape_rewriteSecond (c c' : Cfg) (src src' : ByteSource) :
    (rewriteSecond c src).map Micro.shape = (rewriteSecond c' src').map Micro.shape :=
  shape_append (shape_readFrame_congr ..) (shape_guardedWrite_congr ..)

theorem shape_fieldWrites (c c' : Cfg) (v v' : Field → Word16) (fs : List Field) :
    (fs.flatMap fun f => fieldWrite c f (v f)).map Micro.shape =
      (fs.flatMap fun f => fieldWrite c' f (v' f)).map Micro.shape :=
  shape_flatMap fs fun _ => shape_guardedWrite_congr ..

/-! ### The code fixes the shape -/

/-- An operation has the shape of the operation that its code makes of an empty payload, in any configuration. -/
theorem shape_microOps (c c' : Cfg) (i : Instr) : ∃ k, assemble (opcode i) 0#112 = some k ∧
    (microOps c i).map Micro.shape = (microOps c' k).map Micro.shape := by
  cases i with
  | init => exact ⟨_, rfl, rfl⟩
  | dec2bcd n => exact ⟨_, rfl, rfl⟩
  | bcd2dec n => exact ⟨_, rfl, rfl⟩
  | readByte => exact ⟨_, rfl, rfl⟩
  | writeByte b => exact ⟨_, rfl, shape_shiftOut ..⟩
  | setReg a b => exact ⟨_, rfl, shape_writeFrame_congr ..⟩
  | getReg a => exact ⟨_, rfl, shape_readFrame_congr ..⟩
  | readRam idx => exact ⟨_, rfl, shape_readFrame_congr ..⟩
  | getSecond => exact ⟨_, rfl, shape_readFrame_congr ..⟩
  | getMinute => exact ⟨_, rfl, shape_readFrame_congr ..⟩
  | getHour => exact ⟨_, rfl, shape_readFrame_congr ..⟩
  | getDay => exact ⟨_, rfl, shape_readFrame_congr ..⟩
  | getMonth => exact ⟨_, rfl, shape_readFrame_congr ..⟩
  | getWeekday => exact ⟨_, rfl, shape_readFrame_congr ..⟩
  | getYear => exact ⟨_, rfl, shape_readFrame_congr ..⟩
  | wpWrite a b => exact ⟨_, rfl, shape_guardedWrite_congr ..⟩
  | writeRam idx b => exact ⟨_, rfl, shape_guardedWrite_congr ..⟩
  | setSecond v => exact ⟨_, rfl, shape_guardedWrite_congr ..⟩
  | setMinute v => exact ⟨_, rfl, shape_guardedWrite_congr ..⟩
  | setHour v => exact ⟨_, rfl, shape_guardedWrite_congr ..⟩
  | setDay v => exact ⟨_, rfl, shape_guardedWrite_congr ..⟩
  | setMonth v => exact ⟨_, rfl, shape_guardedWrite_congr ..⟩
  | setWeekday v => exact ⟨_, rfl, shape_guardedWrite_congr ..⟩
  | setYear v => exact ⟨_, rfl, shape_guardedWrite_congr ..⟩
  | start => exact ⟨_, rfl, shape_rewriteSecond ..⟩
  | stop => exact ⟨_, rfl, shape_rewriteSecond ..⟩
  | getDatetime => exact ⟨_, rfl, shape_flatMap snapshotOrder fun _ => shape_readFrame_congr ..⟩
  | setDatetime y mo d wd h mi sec =>
    refine ⟨_, rfl, ?_⟩
    rw [microOps_setDatetime, microOps_setDatetime]
    exact shape_fieldWrites ..

theorem shape_microOps_congr (c c' : Cfg) {i j : Instr} (h : opcode i = opcode j) :
    (microOps c i).map Micro.shape = (microOps c' j).map Micro.shape := by
  obtain ⟨k, hk, hi⟩ := shape_microOps c c' i
  obtain ⟨k', hk', hj⟩ := shape_microOps c' c' j
  rw [h, hk', Option.some.injEq] at hk
  rw [hi, hj, hk]

/-- Under the launch premises an operation performs all its line events, in the shape of its micro-operations. -/
theorem exec_shape {s : State} (i : Instr) (h : s.Ready) : ∃ (t : State) (es : List Event), exec i s = .next t ∧
    t.trace = es.reverse ++ s.trace ∧ es.map Event.shape = (microOps s.cfg i).map Micro.shape := by
  obtain ⟨⟨hb, hclk, hcs, -, -⟩, hf⟩ := h
  rcases exec_ends i s hb (fun _ => ⟨hclk, hcs⟩) with ⟨u, -, hrun, -, hexec⟩ | ⟨hfaults, -⟩
  · obtain ⟨es, htrace, hshape⟩ := (runAll_followed hrun).trace
    exact ⟨_, es, hexec, htrace, hshape⟩
  · rw [hf] at hfaults; cases hfaults

end Sys2Proof.Machine
end

section
/-! SUPPORT. Field reads in a row: the frames in the trace, and the values gathered in their order (30_encoding.md R93;
42_field_accessors.md R150, R166). -/

namespace Sys2Proof.Machine

theorem State.readField_trace (s : State) (f : Field) (r : Byte) (ls : List Bool) (p : Chip) :
    (s.readField f r ls p).trace = (fieldReadEvents s.cfg f r).reverse ++ s.trace := rfl

theorem State.readField_res (s : State) (f : Field) (r : Byte) (ls : List Bool) (p : Chip) :
    (s.readField f r ls p).res = s.res ++ [fieldValue s.cfg f r] := rfl

/-- Reads of different fields, the byte of each named by its field. -/
theorem runAll_fieldReads {c : Cfg} {fs : List Field} (hn : fs.Nodup) {s : State} (h : s.Framing) (hc : c = s.cfg) :
    ∃ (u : State) (r : Field → Byte), runAll (fs.flatMap fun f => fieldRead c f) s = .done u ∧
      u.trace = (fs.flatMap fun f => fieldReadEvents c f (r f)).reverse ++ s.trace ∧
      u.res = s.res ++ fs.map fun f => fieldValue c f (r f) := by
  induction fs generalizing s with
  | nil => exact ⟨s, fun _ => 0, rfl, rfl, (List.append_nil _).symm⟩
  | cons f fs ih =>
    obtain ⟨hf, hn⟩ := List.nodup_cons.1 hn
    obtain ⟨b, ls, p, hread, -, -⟩ := runAll_fieldRead s h f c hc
    obtain ⟨u, r, hrun, htrace, hres⟩ := ih hn (State.readField_framing h f b ls p) hc
    have hb : Function.update r f b f = b := Function.update_self ..
    have hr : ∀ g ∈ fs, Function.update r f b g = r g := fun g hg =>
      Function.update_of_ne (ne_of_mem_of_not_mem hg hf) ..
    have hevents : fs.flatMap (fun g => fieldReadEvents c g (Function.update r f b g)) =
        fs.flatMap fun g => fieldReadEvents c g (r g) := List.flatMap_congr fun g hg => by rw [hr g hg]
    have hvalues : fs.map (fun g => fieldValue c g (Function.update r f b g)) =
        fs.map fun g => fieldValue c g (r g) := List.map_congr_left fun g hg => by rw [hr g hg]
    refine ⟨u, Function.update r f b, (runAll_append_done hread).trans hrun, ?_, ?_⟩
    · rw [htrace, State.readField_trace, List.flatMap_cons, hevents, hb, ← hc, List.reverse_append, List.append_assoc]
    · rw [hres, State.readField_res, List.map_cons, hvalues, hb, ← hc, List.append_assoc, List.singleton_append]

/-- `GET_DATETIME` answers the values of the calendar snapshot, packed in its order (R93, R166). -/
theorem exec_getDatetime {s : State} (h : s.Ready) : ∃ (t : State) (r : Field → Byte), exec .getDatetime s = .next t ∧
    t.trace = (snapshotOrder.flatMap fun f => fieldReadEvents s.cfg f (r f)).reverse ++ s.trace ∧
    t.rsp = { status := .ok, value := packElements (snapshotOrder.map fun f => fieldValue s.cfg f (r f)) } := by
  obtain ⟨u, r, hrun, htrace, hres⟩ := runAll_fieldReads (fs := snapshotOrder) (by decide)
    (h.framing (encode .getDatetime)) rfl
  refine ⟨_, r, exec_done h hrun, htrace, ?_⟩
  show Rsp.mk .ok (packElements u.res) = _
  rw [hres]
  rfl

/-- Element `k` of a response of at most seven elements is in bits 16k+15:16k of its word (R93). -/
theorem Rsp.word_packElements {r : Rsp} {vs : List Word16} (hr : r.value = packElements vs) (hl : vs.length ≤ 7)
    {k : Nat} (hk : k < vs.length) : r.word.extractLsb' (16 * k) 16 = vs[k] := by
  rw [Rsp.word_element r (Nat.lt_of_lt_of_le hk hl), hr, packElements_get vs hl k hk]

end Sys2Proof.Machine
end

section
/-! PROOFS. The encoding statements (30_encoding.md R91 to R102). -/

namespace Sys2Proof.Machine

/-- Settles O1: the code and the payload come back from the word, and the payload uses only what its format leaves
free. -/
theorem decodeInvertsEncode : Obligations.DecodeInvertsEncode := decode_encode

/-- Settles O2: a legal payload is the pack of its operands. -/
theorem encodeInvertsDecode : Obligations.EncodeInvertsDecode := fun _ _ => encode_of_decode

/-- Settles O3: the code is checked first, then the reserved field, then the payload. -/
theorem illegalWordsAreNamed : Obligations.IllegalWordsAreNamed := by
  intro w
  rw [← formatOf_isSome]
  cases hf : formatOf (Command.op w) with
  | none => simp [decode_of_reserved hf]
  | some f =>
    obtain ⟨i, hi⟩ := decode_of_known hf
    rw [hi]
    by_cases hr : Command.rsv w = 0#8
    · by_cases hp : Command.payload w &&& ~~~f.free = 0#112
      · simp [hr, hp]
      · simp [hr, hp]
    · simp [hr]

/-- Settles O31: the response gathers the seven values in the order of the snapshot, and packs them in that order. -/
theorem datetimeElementsInPlace : Obligations.DatetimeElementsInPlace := by
  intro s h
  obtain ⟨t, r, hexec, htrace, hrsp⟩ := exec_getDatetime h
  have helement {k : Nat} (hk : k < 7) := Rsp.word_packElements (congrArg Rsp.value hrsp) (Nat.le_refl 7) hk
  exact ⟨t, r, hexec, by rw [hrsp], htrace, helement (k := 0) (by decide), helement (k := 1) (by decide),
    helement (k := 2) (by decide), helement (k := 3) (by decide), helement (k := 4) (by decide),
    helement (k := 5) (by decide), helement (k := 6) (by decide)⟩

/-- Settles O51: both runs have the shape of their micro-operations, which the code fixes. -/
theorem shapeDependsOnTheCodeAlone : Obligations.ShapeDependsOnTheCodeAlone := by
  intro s s' i j h h' hij
  obtain ⟨t, es, hexec, htrace, hshape⟩ := exec_shape i h
  obtain ⟨t', es', hexec', htrace', hshape'⟩ := exec_shape j h'
  exact ⟨t, t', es, es', hexec, hexec', htrace, htrace',
    hshape.trans ((shape_microOps_congr s.cfg s'.cfg hij).trans hshape'.symm)⟩

/-- Settles O4: each word is the encoding of its operation. -/
theorem wordsFromTheSpecDecode : Obligations.WordsFromTheSpecDecode :=
  ⟨decode_encode (.writeByte 0xB2), decode_encode (.getReg 0x81), decode_encode (.setReg 0x80 0x45),
    decode_encode (.bcd2dec 0x45), decode_encode (.setSecond 75), decode_encode (.setDatetime 2024 3 15 5 13 45 30),
    decode_encode (.writeRam 36 0xCD)⟩

/-- Settles O6: an illegal word is neither latched nor run. -/
theorem illegalCommandChangesOnlyTheResponse : Obligations.IllegalCommandChangesOnlyTheResponse := by
  intro s w e hr ha hc hd
  exact (step_command hr ha.1 hc).trans (takeCommand_illegal hd ha)

/-- Settles O14: the word is the status code above the value, and the three codes differ. -/
theorem responseWordLayout : Obligations.ResponseWordLayout := by
  intro r
  rw [r.word_status]
  refine ⟨r.word_value, ?_⟩
  cases r.status <;> decide

end Sys2Proof.Machine
end

section
/-! SUPPORT. A transport command issued on its own: with `CS` low its pulses reach no peripheral (40_byte_transport.md
R121 to R123; 70_reset_and_hazards.md R232). -/

namespace Sys2Proof.Machine

/-- What drives nothing while `CS` is low drives nothing under any pulse. -/
theorem State.Quiet.of_chipDrives {s : State} (h : s.chipDrives = none) : s.Quiet false := by
  cases hk : s.chip.kind with
  | external => exact .inl hk
  | reference | ticking => exact .inr ⟨by simpa only [State.chipDrives, hk] using h, .inl rfl⟩

/-- `WRITE_BYTE` as a sub-sequence with `CS` low, as one update (R121, R232). -/
theorem runAll_shiftOut_unselected {s : State} (h : s.Shifting false) (b : Byte) :
    runAll (shiftOut (.lit b)) s = .done { s.afterByteOut b s.chip with upc := s.upc + 25 } := by
  obtain ⟨p, hline⟩ := byteOut_line s false b
  have hp : p = s.chip := (congrArg State.chip hline).symm.trans (cellsOut_quiet _ _ false (.inr rfl))
  rw [runAll_shiftOut _ s false h, ByteSource.value, hline, hp]
  rfl

/-- `READ_BYTE` as a sub-sequence with `CS` low, as one update, and where its byte comes from (R22, R122, R232). -/
theorem runAll_shiftIn_unselected {s : State} (h : s.Shifting false) : ∃ ls,
    runAll shiftIn s = .done { s.afterByteIn (s.byteIn false) ls s.chip with upc := s.upc + 25 } ∧
      (s.chipDrives = none → s.byteIn false = s.portByte (s.events + 1) ∧ ls = s.dioIn.drop 8) := by
  obtain ⟨ls, p, hline⟩ := byteIn_line s false
  have hp : p = s.chip := (congrArg State.chip hline).symm.trans (cellsIn_quiet _ _ false (.inr rfl))
  refine ⟨ls, ?_, fun hd => ?_⟩
  · rw [runAll_shiftIn s false h, hline, hp]
    rfl
  · have hport := byteIn_port s false (.of_chipDrives hd)
    rwa [hline] at hport

theorem exec_writeByte {s : State} (h : s.Ready) (b : Byte) :
    exec (.writeByte b) s = .next ((s.afterByteOut b s.chip).answered (.writeByte b) [] 0) :=
  exec_done (i := .writeByte b) h (runAll_shiftOut_unselected (h.shifting _) b)

theorem exec_readByte {s : State} (h : s.Ready) : ∃ r ls,
    exec .readByte s = .next ((s.afterByteIn r ls s.chip).answered .readByte [] (byteValue r)) ∧
      (s.chipDrives = none → r = s.portByte (s.events + 1) ∧ ls = s.dioIn.drop 8) := by
  obtain ⟨ls, hrun, hport⟩ := runAll_shiftIn_unselected (h.shifting (encode .readByte))
  exact ⟨_, ls, exec_done (i := .readByte) h hrun, hport⟩

end Sys2Proof.Machine
end

section
/-! PROOFS. The statements of the byte transport (40_byte_transport.md R121 to R123). -/

namespace Sys2Proof.Machine

/-- Settles O18: with `CS` low no pulse reaches the peripheral, and what drives nothing then leaves the samples to the
port. -/
theorem transportLeavesTheRest : Obligations.TransportLeavesTheRest :=
  fun _ h => ⟨exec_writeByte h, exec_readByte h⟩

/-- Settles O16: the trace and the lines are those of the state that `WRITE_BYTE` leaves. -/
theorem writeByteShiftsLsbFirst : Obligations.WriteByteShiftsLsbFirst := by
  intro s b h
  exact ⟨_, exec_writeByte h b, ⟨rfl, rfl, rfl, rfl⟩, rfl, rfl, rfl, rfl, rfl⟩

/-- Settles O17: the trace and the lines are those of the state that `READ_BYTE` leaves, whatever byte its samples
make. -/
theorem readByteAssemblesLsbFirst : Obligations.ReadByteAssemblesLsbFirst := by
  intro s h
  obtain ⟨r, ls, hexec, -⟩ := exec_readByte h
  exact ⟨_, r, hexec, ⟨rfl, rfl, rfl, rfl⟩, rfl, rfl, rfl, rfl, rfl⟩

end Sys2Proof.Machine
end

section
/-! SUPPORT. The whole state after an operation of one read frame, of one write frame, of one guarded write, and after
START and STOP (41_register_access.md R130 to R134). -/

namespace Sys2Proof.Machine

/-! ### One read frame (R130) -/

/-- With an external peripheral the byte of a read frame comes from the port, and the model holds no state of it. -/
theorem Chip.AfterRead.fromPort {s : State} {a : Byte} {p : Chip} (h : s.chip.AfterRead s.cfg s.events a p) :
    s.FromPort (s.frameByte a) (s.frameRest a) p := fun hk =>
  ⟨State.frameByte_external hk a, State.frameRest_external hk a, h.external hk⟩

/-- An operation of one read frame that answers the byte read (R130, R168). -/
theorem exec_byteRead {s : State} {i : Instr} {a : Byte} (h : s.Ready) (hi : microOps s.cfg i = readFrame a .nothing)
    (hv : resultOf i = accResult) : ∃ p, exec i s = .next
      ((s.afterReadFrame a (s.frameByte a) (s.frameRest a) p).answered i [] (byteValue (s.frameByte a))) ∧
      s.chip.AfterRead s.cfg s.events a p := by
  obtain ⟨p, hrun, hp⟩ := runAll_readFrame_eq (s.accept (encode i)) (h.framing _) a .nothing
  rw [← hi] at hrun
  exact ⟨p, (exec_done h hrun).trans (by rw [hv]; rfl), hp⟩

theorem microOps_getOf (c : Cfg) (f : Field) : microOps c (getOf f) = fieldRead c f := by cases f <;> rfl

theorem resultOf_getOf (f : Field) : resultOf (getOf f) = elementsResult := by cases f <;> rfl

theorem packElements_singleton (v : Word16) : packElements [v] = scalar v := by simp [packElements]

/-- A field read keeps the byte in `t` and answers its value (R150). -/
theorem exec_getOf {s : State} (h : s.Ready) (f : Field) {a r : Byte} (ha : a = readAddr s.cfg (fieldAddr s.cfg f))
    (hr : r = s.frameByte a) :
    ∃ p, exec (getOf f) s = .next ((({ s with t := r } : State).afterReadFrame a r (s.frameRest a) p).answered
        (getOf f) [fieldValue s.cfg f r] (scalar (fieldValue s.cfg f r))) ∧
      s.chip.AfterRead s.cfg s.events a p := by
  obtain ⟨p, hrun, hp⟩ := runAll_readFrame_eq (s.accept (encode (getOf f))) (h.framing _) a (.element f)
  have hops : microOps s.cfg (getOf f) = readFrame a (.element f) := by rw [microOps_getOf, ha, fieldRead]
  rw [← hops] at hrun
  refine ⟨p, (exec_done h hrun).trans ?_, hp⟩
  rw [resultOf_getOf, hr, ← packElements_singleton]
  rfl

/-! ### One write frame and one guarded write (R131, R132) -/

theorem exec_setReg_eq {s : State} (h : s.Ready) (a b : Byte) :
    exec (.setReg a b) s = .next ((s.afterWriteFrame a b (s.frameWrote a b)).answered (.setReg a b) [] 0) :=
  exec_done (i := .setReg a b) h (runAll_writeFrame_eq (s.accept _) (h.framing _) a (.lit b) .nothing)

/-- An operation of one guarded write keeps its mutation records at its end, and answers no value (R132, R203). -/
theorem microOps_of_guardedTarget_records {c : Cfg} {i : Instr} {a b : Byte} (h : guardedTarget c i = some (a, b)) :
    ∃ x, microOps c i = guardedWrite c a (.lit b) x ∧ resultOf i = noResult ∧
      ∀ s, AtEnd.keepIn s x = { s with journal := mutationsOf c i ++ s.journal } := by
  cases i <;> cases h <;> exact ⟨_, rfl, rfl, fun _ => rfl⟩

theorem exec_guardedWrite_eq {s : State} {i : Instr} {a b : Byte} (h : s.Ready)
    (hi : guardedTarget s.cfg i = some (a, b)) : exec i s = .next
      ((({ s with journal := mutationsOf s.cfg i ++ s.journal } : State).afterGuardedWrite a b
        (s.guardWrote a b)).answered i [] 0) := by
  obtain ⟨x, hops, hv, hx⟩ := microOps_of_guardedTarget_records hi
  have hrun := runAll_guardedWrite (s.accept (encode i)) (h.framing _) a (.lit b) x
  rw [State.accept_cfg, ← hops, hx] at hrun
  exact (exec_done h hrun).trans (by rw [hv]; rfl)

/-! ### START and STOP (R133, R134) -/

theorem exec_rewriteSecond_eq {s : State} {i : Instr} {src : ByteSource} (h : s.Ready)
    (hi : microOps s.cfg i = rewriteSecond s.cfg src) (hv : resultOf i = noResult) :
    ∃ p, s.chip.AfterRead s.cfg s.events (readAddr s.cfg s.cfg.addrSecond) p ∧
      exec i s = .next ((s.rewroteSecond src p).answered i [] 0) := by
  obtain ⟨p, hp, hrun⟩ := runAll_rewriteSecond (s.accept (encode i)) (h.framing _) src
  rw [State.accept_cfg, ← hi] at hrun
  exact ⟨p, hp, (exec_done h hrun).trans (by rw [hv]; rfl)⟩

/-- The byte that `START` and `STOP` read. -/
def State.secondByte (s : State) : Byte := s.frameByte (readAddr s.cfg s.cfg.addrSecond)

theorem State.readSecond_value (s : State) (src : ByteSource) (p : Chip) :
    src.value (s.readSecond p) = src.value { s with t := s.secondByte } := src.value_of rfl rfl

/-- `START` and `STOP` are the read frame of `SECOND` and the guarded write of the byte changed. -/
theorem State.rewroteSecond_ran {s : State} (hc : CfgOk s.cfg) (i : Instr) (src : ByteSource) (p : Chip) :
    s.Ran ((s.rewroteSecond src p).answered i [] 0) (readFrameEvents (s.cfg.addrSecond + 1) s.secondByte ++
      guardedEvents s.cfg s.cfg.addrSecond (src.value { s with t := s.secondByte })) 0 := by
  refine ⟨?_, rfl, rfl, rfl⟩
  rw [List.reverse_append, List.append_assoc, ← readAddr_eq hc, ← s.readSecond_value src p]
  rfl

theorem State.rewroteSecond_external {s : State} {src : ByteSource} {p : Chip}
    (hp : s.chip.AfterRead s.cfg s.events (readAddr s.cfg s.cfg.addrSecond) p) (hk : s.chip.kind = .external) :
    (s.rewroteSecond src p).chip = s.chip :=
  (State.guardWrote_external (s := s.readSecond p) (hp.kind.trans hk) _ _).trans (hp.external hk)

/-- On the reference peripheral the read frame keeps every register, and the guarded write every other than `SECOND` and
`WP`. -/
theorem State.rewroteSecond_other {s : State} {src : ByteSource} {p : Chip} (h : s.RefReady)
    (hp : s.chip.AfterRead s.cfg s.events (readAddr s.cfg s.cfg.addrSecond) p) {k : Nat}
    (hk : k ≠ s.cfg.addrSecond.toNat) (hk' : k ≠ s.cfg.addrWp.toNat) :
    Memory.read (s.rewroteSecond src p).chip.cells k = Memory.read s.chip.cells k := by
  obtain ⟨-, hkind, hwf⟩ := h
  obtain ⟨-, hodd, -⟩ := reached (cfgOk s.cfg hwf) (mem_regMap_field s.cfg .second)
  rw [← hp.leaves.kept hkind hodd]
  exact guardWrote_other (s := s.readSecond p) (hp.kind.trans hkind) _ _ hk hk'

/-- The whole state after `START` or `STOP`, and what its frames leave of the peripheral. -/
theorem exec_rewriteSecond_leaves {s : State} {i : Instr} {src : ByteSource} (h : s.Ready)
    (hi : microOps s.cfg i = rewriteSecond s.cfg src) (hv : resultOf i = noResult) :
    ∃ r ls p q, exec i s = .next
      (((({ s with t := r } : State).afterReadFrame (readAddr s.cfg s.cfg.addrSecond) r ls p).afterGuardedWrite
        s.cfg.addrSecond (src.value { s with t := r }) q).answered i [] 0) ∧
      s.FromPort r ls p ∧ (s.chip.kind = .external → q = s.chip) ∧
      (s.RefReady → ∀ k, k ≠ s.cfg.addrSecond.toNat → k ≠ s.cfg.addrWp.toNat →
        Memory.read q.cells k = Memory.read s.chip.cells k) := by
  obtain ⟨p, hp, hexec⟩ := exec_rewriteSecond_eq h hi hv
  refine ⟨s.secondByte, _, p, (s.rewroteSecond src p).chip, ?_, hp.fromPort, State.rewroteSecond_external hp,
    fun href k hk hk' => State.rewroteSecond_other href hp hk hk'⟩
  rw [hexec, ← s.readSecond_value src p]
  rfl

/-- What `START` and `STOP` read and what they leave, with the byte written back from `src`. -/
theorem exec_rewriteSecond_ran {s : State} {i : Instr} {src : ByteSource} (h : s.Ready) (hwf : s.cfg.wf = true)
    (hi : microOps s.cfg i = rewriteSecond s.cfg src) (hv : resultOf i = noResult) :
    ∃ t r, exec i s = .next t ∧ s.Ran t (readFrameEvents (s.cfg.addrSecond + 1) r ++
        guardedEvents s.cfg s.cfg.addrSecond (src.value { s with t := r })) 0 ∧
      t.Idle ∧ t.dio.dir = .out ∧ t.dio.lvl = .driven (s.cfg.wpOn.getLsbD 7) ∧
      (s.RefReady → protects s.cfg.wpOff = false → r = s.chip.cell s.cfg (.field .second) ∧
        t.chip.cell s.cfg (.field .second) = src.value { s with t := r } ∧ t.chip.cell s.cfg .wp = s.cfg.wpOn) := by
  have hc := cfgOk s.cfg hwf
  obtain ⟨p, hp, hexec⟩ := exec_rewriteSecond_eq h hi hv
  refine ⟨_, s.secondByte, hexec, State.rewroteSecond_ran hc i src p, ⟨rfl, rfl, rfl, rfl, rfl⟩, rfl, rfl,
    fun href ho => ?_⟩
  obtain ⟨-, hodd, hread⟩ := reached hc (mem_regMap_field s.cfg .second)
  have hbyte : s.secondByte = s.chip.cell s.cfg (.field .second) := frameByte_reference href.2.1 hodd hread
  obtain ⟨t, hexec', -, -, hsecond⟩ := exec_rewriteSecond href ho hi
  cases hexec.symm.trans hexec'
  refine ⟨hbyte, by rw [hsecond, hbyte], ?_⟩
  exact guardWrote_wp (s := s.readSecond p) (hp.kind.trans href.2.1) hc _ _

end Sys2Proof.Machine
end

section
/-! SUPPORT. The operations made of frames are sequences of complete frames (41_register_access.md R135). -/

namespace Sys2Proof.Machine

/-- The line events of these micro-operations are complete frames. -/
def FramedOps (ms : List Micro) : Prop := framed (ms.map Micro.shape) = true

theorem FramedOps.append {xs ys : List Micro} (hx : FramedOps xs) (hy : FramedOps ys) : FramedOps (xs ++ ys) := by
  rw [FramedOps, List.map_append]
  exact framed_append hx hy

theorem FramedOps.flatMap {α : Type} {ops : α → List Micro} (l : List α) (h : ∀ x, FramedOps (ops x)) :
    FramedOps (l.flatMap ops) := by
  induction l with
  | nil => rfl
  | cons x l ih => exact (h x).append ih

theorem framedOps_microOps (c : Cfg) {i : Instr} (hi : isFramed i = true) : FramedOps (microOps c i) := by
  cases i with
  | init | writeByte | readByte | dec2bcd | bcd2dec => cases hi
  | getReg | readRam | getSecond | getMinute | getHour | getDay | getMonth | getWeekday | getYear =>
    exact framed_readFrame ..
  | setReg => exact framed_writeFrame ..
  | wpWrite | writeRam | setSecond | setMinute | setHour | setDay | setMonth | setWeekday | setYear =>
    exact framed_guardedWrite ..
  | start | stop => exact FramedOps.append (framed_readFrame ..) (framed_guardedWrite ..)
  | getDatetime => exact FramedOps.flatMap snapshotOrder fun _ => framed_readFrame ..
  | setDatetime y mo d wd h mi sec =>
    rw [microOps_setDatetime]
    exact FramedOps.flatMap snapshotOrder fun _ => framed_guardedWrite ..

end Sys2Proof.Machine
end

section
/-! SUPPORT. A guarded write cut between its frames by a reset (41_register_access.md R136; 70_reset_and_hazards.md
R221, R224). -/

namespace Sys2Proof.Machine

/-- A frame stores at the address of a register only if it decodes to that register. -/
theorem regAddr_notMem_frameStores {c : Cfg} (hc : CfgOk c) {a : Byte} {x : Reg} (hx : x ∈ regMap c)
    (hd : decodeAddr c a ≠ some x) : (regAddr c x).toNat ∉ frameStores a := by
  intro hm
  rw [frameStores] at hm
  split at hm
  · cases hm
  · rw [← BitVec.eq_of_toNat_eq (List.mem_singleton.1 hm)] at hd
    exact hd (reached hc hx).1

/-- A reset keeps every register of a peripheral that keeps no time, and idles the lines (R221). -/
theorem step_resetPin {u : State} (hk : u.chip.kind ≠ .ticking) :
    ∃ v, step { u with resetPin := true } = .next v ∧ v.chip.cells = u.chip.cells ∧ v.Idle := by
  obtain ⟨p, hp, hcells⟩ := State.resetNow_eq { u with resetPin := true }
  refine ⟨_, if_pos rfl, ?_, ?_⟩ <;> rw [hp]
  · exact hcells hk
  · exact ⟨rfl, rfl, rfl, rfl, rfl⟩

/-- From `s` to `u` frames have left `WP_OFF` in `WP` of the reference peripheral, and the lines ready for another. -/
structure State.Unlocked (s u : State) : Prop where
  framing : u.Framing
  cfg : u.cfg = s.cfg
  kind : u.chip.kind = .reference
  wp : u.chip.cell s.cfg .wp = s.cfg.wpOff

/-- The first frame of a guarded write (R132). -/
theorem runAll_unlock {s : State} (h : s.Framing) (hk : s.chip.kind = .reference) (hc : CfgOk s.cfg) :
    ∃ u, runAll (writeFrame s.cfg.addrWp (.lit s.cfg.wpOff) .nothing) s = .done u ∧ s.Unlocked u := by
  refine ⟨_, runAll_writeFrame_eq s h _ _ _, ⟨h.faults, rfl, rfl, rfl, rfl⟩, rfl,
    (s.frameWrote_kind _ _).trans hk, ?_⟩
  show (s.frameWrote s.cfg.addrWp s.cfg.wpOff).cell s.cfg .wp = _
  rw [State.frameWrote_modelled (by rw [hk]; nofun), Chip.wroteFrame_wp hc]

/-- A frame that does not reach `WP`. -/
theorem State.Unlocked.runAll_writeFrame {s u : State} (h : s.Unlocked u) (hc : CfgOk s.cfg) {a : Byte} (b : Byte)
    (hd : decodeAddr s.cfg a ≠ some .wp) :
    ∃ v, runAll (writeFrame a (.lit b) .nothing) u = .done v ∧ s.Unlocked v := by
  obtain ⟨hframing, hcfg, hkind, hwp⟩ := h
  refine ⟨_, runAll_writeFrame_eq u hframing a (.lit b) .nothing, ⟨hframing.faults, rfl, rfl, rfl, rfl⟩, hcfg,
    (u.frameWrote_kind _ _).trans hkind, ?_⟩
  have hkept := (u.frameWrote_leaves a b).stores.reference hkind _
    (regAddr_notMem_frameStores hc (mem_regMap_wp _) hd)
  rw [← hwp]
  simp only [Chip.cell, ← hkept]
  rfl

/-- A reset then leaves `WP_OFF` in `WP` (R221, R224). -/
theorem State.Unlocked.step_reset {s u : State} (h : s.Unlocked u) :
    ∃ v, step { u with resetPin := true } = .next v ∧ v.chip.cell s.cfg .wp = s.cfg.wpOff ∧ v.Idle := by
  obtain ⟨v, hstep, hcells, hidle⟩ := step_resetPin (u := u) (by rw [h.kind]; nofun)
  refine ⟨v, hstep, ?_, hidle⟩
  rw [Chip.cell_eq, hcells]
  exact h.wp

end Sys2Proof.Machine
end

section
/-! PROOFS. The statements of register access (41_register_access.md R130 to R136). -/

namespace Sys2Proof.Machine

/-- Settles O26: each is one read frame, and differs in what it keeps of the byte and answers. -/
theorem singleReadsLeaveTheRest : Obligations.SingleReadsLeaveTheRest := by
  intro s h
  refine ⟨fun a => ?_, fun idx => ?_, fun f => ?_⟩
  · obtain ⟨p, hexec, hp⟩ := exec_byteRead (i := .getReg a) h rfl rfl
    exact ⟨_, _, p, hexec, hp.fromPort, hp.leaves⟩
  · obtain ⟨p, hexec, hp⟩ := exec_byteRead (i := .readRam idx) h rfl rfl
    exact ⟨_, _, p, hexec, hp.fromPort, hp.leaves⟩
  · obtain ⟨p, hexec, hp⟩ := exec_getOf h f rfl rfl
    exact ⟨_, _, p, hexec, hp.fromPort, hp.leaves⟩

/-- Settles O27: `SET_REG` is one write frame, and an operation with a guarded target three. -/
theorem writesLeaveTheRest : Obligations.WritesLeaveTheRest := by
  intro s h
  exact ⟨fun a b => ⟨_, exec_setReg_eq h a b, s.frameWrote_leaves a b⟩,
    fun i a b hi => ⟨_, exec_guardedWrite_eq h hi, s.guardWrote_stores a b⟩⟩

/-- Settles O28: `START` and `STOP` are one sequence of frames but for the byte written back. -/
theorem startAndStopLeaveTheRest : Obligations.StartAndStopLeaveTheRest := by
  intro s h
  exact ⟨exec_rewriteSecond_leaves (i := .start) (src := .started) h (microOps_start s.cfg) rfl,
    exec_rewriteSecond_leaves (i := .stop) (src := .stopped) h (microOps_stop s.cfg) rfl⟩

/-- Settles O19: the trace and the lines are those of the state that one read frame leaves. -/
theorem getRegIsOneReadFrame : Obligations.GetRegIsOneReadFrame := by
  intro s a h
  obtain ⟨p, hexec, -⟩ := exec_byteRead (i := .getReg a) h rfl rfl
  exact ⟨_, _, hexec, ⟨rfl, rfl, rfl, rfl⟩, ⟨rfl, rfl, rfl, rfl, rfl⟩, rfl⟩

/-- Settles O20: the trace and the lines are those of the state that one write frame leaves. -/
theorem setRegIsOneWriteFrame : Obligations.SetRegIsOneWriteFrame := by
  intro s a b h
  exact ⟨_, exec_setReg_eq h a b, ⟨rfl, rfl, rfl, rfl⟩, ⟨rfl, rfl, rfl, rfl, rfl⟩, rfl, rfl⟩

/-- Settles O21: a guarded write is three write frames, and the third reaches `WP` whatever the second did. -/
theorem wpWriteIsThreeWriteFrames : Obligations.WpWriteIsThreeWriteFrames := by
  intro s a b h
  exact ⟨_, exec_guardedWrite_eq (i := .wpWrite a b) h rfl, ⟨rfl, rfl, rfl, rfl⟩, ⟨rfl, rfl, rfl, rfl, rfl⟩, rfl, rfl,
    fun ⟨_, hkind, hwf⟩ => guardWrote_wp hkind (cfgOk s.cfg hwf) a b⟩

/-- Settles O22: the byte read comes back through the guarded write with the clock-halt bit cleared. -/
theorem startClearsTheHaltBit : Obligations.StartClearsTheHaltBit := by
  intro s h hwf
  obtain ⟨t, r, hexec, hran, hidle, hdir, hlvl, hcells⟩ := exec_rewriteSecond_ran h hwf (microOps_start s.cfg) rfl
  exact ⟨t, r, hexec, hran, hidle, hdir, hlvl, fun hbit => by rw [hbit]; rfl, hcells⟩

/-- Settles O23: the byte read comes back through the guarded write with the clock-halt bit set. -/
theorem stopSetsTheHaltBit : Obligations.StopSetsTheHaltBit := by
  intro s h hwf
  obtain ⟨t, r, hexec, hran, hidle, hdir, hlvl, hcells⟩ := exec_rewriteSecond_ran h hwf (microOps_stop s.cfg) rfl
  exact ⟨t, r, hexec, hran, hidle, hdir, hlvl, fun hbit => by rw [hbit]; rfl, hcells⟩

/-- Settles O50: the events of a run have the shapes of its micro-operations, which are frames. -/
theorem framesAreComplete : Obligations.FramesAreComplete := by
  intro s i h hi
  obtain ⟨t, es, hexec, htrace, hshape⟩ := exec_shape i h
  refine ⟨t, es, hexec, htrace, ?_⟩
  rw [framed, ← framedFrom_shape, hshape]
  exact framedOps_microOps s.cfg hi

/-- Settles O54: the first frame puts `WP_OFF` in `WP`, the second does not reach it, and the reset keeps it. -/
theorem cutGuardedWriteLeavesProtectionOff : Obligations.CutGuardedWriteLeavesProtectionOff := by
  intro s a b k h hr hs hcmd hd hk
  obtain ⟨hready, hkind, hwf⟩ := h
  have hc := cfgOk s.cfg hwf
  have hp : s.Presents (.wpWrite a b) := ⟨hr, hs, hcmd⟩
  obtain ⟨u, hfirst, hu⟩ := runAll_unlock (s := s.accept (encode (.wpWrite a b))) (hready.framing _) hkind hc
  obtain rfl | rfl := hk
  · obtain ⟨v, hstep, hwp, hidle⟩ := hu.step_reset
    exact ⟨u, v, core_run_firstEvents hready hp (List.append_assoc ..) hfirst, hstep, hwp, hidle⟩
  · obtain ⟨w, hsecond, hw⟩ := hu.runAll_writeFrame hc b hd
    obtain ⟨v, hstep, hwp, hidle⟩ := hw.step_reset
    exact ⟨w, v, core_run_firstEvents hready hp (guardedWrite_eq ..) ((runAll_append_done hfirst).trans hsecond), hstep,
      hwp, hidle⟩

end Sys2Proof.Machine
end

section
/-! SUPPORT. A register of the reference peripheral under one guarded write and under one read frame, in the terms of
operations (42_field_accessors.md R150, R151, R168, R169, R172). -/

namespace Sys2Proof.Machine

theorem guardedTarget_setOf (c : Cfg) (f : Field) (v : Word16) :
    guardedTarget c (setOf v f) = some (regAddr c (.field f), fieldByte c f v) := by cases f <;> rfl

/-- Only the year has an offset (R150). -/
theorem fieldOffset_eq (c : Cfg) (f : Field) : fieldOffset c f = if f = .year then c.yearBase else 0 := by
  cases f <;> rfl

/-- The read frame of a register finds what it holds (R69). -/
theorem frameByte_register {s : State} (h : s.RefReady) {x : Reg} (hx : x ∈ regMap s.cfg) :
    s.frameByte (readAddr s.cfg (regAddr s.cfg x)) = s.chip.cell s.cfg x := by
  obtain ⟨-, hkind, hwf⟩ := h
  obtain ⟨-, hodd, hread⟩ := reached (cfgOk s.cfg hwf) hx
  exact frameByte_reference hkind hodd hread

/-- A guarded write at the write address of a register other than `WP` puts its byte there (R132). -/
theorem guardWrote_register {s : State} (hk : s.chip.kind = .reference) (hc : CfgOk s.cfg)
    (ho : protects s.cfg.wpOff = false) {x : Reg} (hx : x ∈ regMap s.cfg) (hn : x ≠ .wp) (b : Byte) :
    (s.guardWrote (regAddr s.cfg x) b).cell s.cfg x = b :=
  guardWrote_cell hk hc ho b (regAddr_even hc hx) (reached hc hx).1 hn

/-- An operation of one guarded write at a register other than `WP` puts its byte there, and leaves the launch premises
for the next operation (R132). -/
theorem exec_guardedWrite_register {s : State} {i : Instr} {x : Reg} {b : Byte} (h : s.RefReady)
    (ho : protects s.cfg.wpOff = false) (hx : x ∈ regMap s.cfg) (hn : x ≠ .wp)
    (hi : guardedTarget s.cfg i = some (regAddr s.cfg x, b)) :
    ∃ t, exec i s = .next t ∧ t.RefReady ∧ t.cfg = s.cfg ∧ t.chip.cell s.cfg x = b := by
  obtain ⟨hready, hkind, hwf⟩ := h
  refine ⟨_, exec_guardedWrite_eq hready hi, ⟨⟨⟨rfl, rfl, rfl, rfl, rfl⟩, hready.2⟩, ?_, hwf⟩, rfl, ?_⟩
  · exact (State.guardWrote_kind ..).trans hkind
  · exact guardWrote_register hkind (cfgOk s.cfg hwf) ho hx hn b

/-- A field read answers the value of what the register holds (R150). -/
theorem exec_getOf_rsp {s : State} (h : s.RefReady) (f : Field) : ∃ t, exec (getOf f) s = .next t ∧
    t.rsp = { status := .ok, value := scalar (fieldValue s.cfg f (s.chip.cell s.cfg (.field f))) } := by
  obtain ⟨p, hexec, -⟩ := exec_getOf h.1 f rfl (frameByte_register h (mem_regMap_field s.cfg f)).symm
  exact ⟨_, hexec, rfl⟩

/-- The cell an index names is one of the scratch RAM's (R168). -/
theorem mem_regMap_ramIndex {c : Cfg} (hc : CfgOk c) (idx : Word16) : Reg.ram (ramIndex c idx) ∈ regMap c :=
  mem_regMap_ram (Nat.mod_lt _ hc.cells)

/-- `READ_RAM` answers what its cell holds (R168). -/
theorem exec_readRam_rsp {s : State} (h : s.RefReady) (idx : Word16) : ∃ t, exec (.readRam idx) s = .next t ∧
    t.rsp = { status := .ok, value := byteValue (s.chip.cell s.cfg (.ram (ramIndex s.cfg idx))) } := by
  obtain ⟨p, hexec, -⟩ := exec_byteRead (i := .readRam idx) h.1 rfl rfl
  refine ⟨_, hexec, ?_⟩
  rw [← frameByte_register h (mem_regMap_ramIndex (cfgOk s.cfg h.2.2) idx)]
  rfl

end Sys2Proof.Machine
end

section
/-! SUPPORT. The seconds byte and the clock-halt bit at its place 7 (42_field_accessors.md R152, R159;
70_reset_and_hazards.md R227). -/

namespace Sys2Proof.Machine

/-- Bit 7 set adds 8 to the tens digit, so 80 to the number decoded (R181). -/
theorem bcd2dec_or_0x80 {x : Byte} (h : x.getLsbD 7 = false) :
    bcd2dec (x ||| 0x80#8).toNat = bcd2dec x.toNat + 80 := by
  have hlt : x.toNat < 2 ^ 7 := by
    have := BitVec.msb_eq_false_iff_two_mul_lt.1 (BitVec.msb_eq_getLsbD_last x ▸ h)
    omega
  have hsum : (x ||| 0x80#8).toNat = x.toNat + 128 := by
    rw [BitVec.toNat_or, Nat.or_comm, Nat.add_comm]
    exact (Nat.two_pow_add_eq_or_of_lt hlt 1).symm
  simp only [hsum, bcd2dec]
  omega

/-- With the clock-halt bit set the second decodes to 20 more, modulo 60 (R227). -/
theorem fieldValue_second_halted {c : Cfg} {x : Byte} (hm : c.mSecond = 60) (hx : x.getLsbD 7 = false) :
    fieldValue c .second (x ||| 0x80#8) = BitVec.ofNat 16 ((bcd2dec x.toNat + 20) % 60) := by
  simp only [fieldValue, fieldModulus, fieldOffset, hm, bcd2dec_or_0x80 hx, Nat.add_zero]
  congr 1
  omega

/-- The BCD byte of a second has tens digit at most 5, so bit 7 clear (R159). -/
theorem clockHalted_fieldByte_second {c : Cfg} (hbit : c.chBit = 7) (hm : c.mSecond = 60) (v : Word16) :
    clockHalted c (fieldByte c .second v) = false := by
  have hlt : fieldReduce c .second v < 60 := by
    simp only [fieldReduce, fieldModulus, hm]
    exact Nat.mod_lt _ (by decide)
  have hbyte : dec2bcd (fieldReduce c .second v) < 2 ^ 7 := by simp only [dec2bcd]; omega
  rw [clockHalted, hbit, fieldByte, BitVec.getLsbD_ofNat, show (7 : Fin 8).val = 7 from rfl,
    Nat.testBit_lt_two_pow hbyte, Bool.and_false]

end Sys2Proof.Machine
end

section
/-! SUPPORT. Field writes in a row as one update of the state, and what they leave in the registers
(42_field_accessors.md R151, R167). -/

namespace Sys2Proof.Machine

/-- What the writes of the fields `fs` leave, each of its element of `v`. -/
def State.wroteFields (s : State) (v : Field → Word16) (fs : List Field) : State :=
  fs.foldl (fun u f => u.wroteField f (v f)) s

theorem State.wroteFields_cons (s : State) (v : Field → Word16) (f : Field) (fs : List Field) :
    s.wroteFields v (f :: fs) = (s.wroteField f (v f)).wroteFields v fs := rfl

theorem State.wroteFields_cfg (s : State) (v : Field → Word16) (fs : List Field) :
    (s.wroteFields v fs).cfg = s.cfg := by
  induction fs generalizing s with
  | nil => rfl
  | cons f fs ih => exact ih (s.wroteField f (v f))

theorem State.wroteFields_framing {s : State} (h : s.Framing) (v : Field → Word16) (fs : List Field) :
    (s.wroteFields v fs).Framing := by
  induction fs generalizing s with
  | nil => exact h
  | cons f fs ih => exact ih (State.wroteField_framing h f (v f))

theorem runAll_fieldWrites {s : State} (h : s.Framing) (v : Field → Word16) (fs : List Field) :
    runAll (fs.flatMap fun f => fieldWrite s.cfg f (v f)) s = .done (s.wroteFields v fs) := by
  induction fs generalizing s with
  | nil => rfl
  | cons f fs ih =>
    exact (runAll_append_done (runAll_fieldWrite s h f (v f) s.cfg rfl)).trans
      (ih (State.wroteField_framing h f (v f)))

/-- The writes as one update, the peripheral aside: the lines are left as by the last of them, and every write has its
record and its events (R151, R203). -/
theorem State.wroteFields_eq (s : State) (v : Field → Word16) (f : Field) (fs : List Field) :
    s.wroteFields v (f :: fs) =
      { s with sh := s.cfg.wpOn, i := 7, dio := Pin.driving (s.cfg.wpOn.getLsbD 7), clk := Pin.driving false,
               cs := Pin.driving false, phase := .idle, chip := (s.wroteFields v (f :: fs)).chip,
               journal := ((f :: fs).map fun g => Mutation.field g (fieldReduce s.cfg g (v g))).reverse ++ s.journal,
               trace := ((f :: fs).flatMap fun g => fieldWriteEvents s.cfg g (v g)).reverse ++ s.trace,
               events := s.events + 156 * (f :: fs).length, upc := s.upc + 156 * (f :: fs).length } := by
  induction fs generalizing s f with
  | nil => simp [State.wroteFields, State.wroteField, State.afterGuardedWrite, fieldWriteEvents]
  | cons g fs ih =>
    rw [State.wroteFields_cons]
    refine (ih (s.wroteField f (v f)) g).trans ?_
    generalize ((s.wroteField f (v f)).wroteFields v (g :: fs)).chip = p
    simp [State.wroteField, State.afterGuardedWrite, fieldWriteEvents]
    omega

/-! ### The peripheral -/

/-- The writes store only at `WP` and at their fields (R60 (d)). -/
theorem State.wroteFields_stores {s : State} (h : s.Framing) (v : Field → Word16) (fs : List Field) :
    s.StoresOnlyAt (fs.flatMap fun f => guardedStores s.cfg (fieldAddr s.cfg f)) (s.wroteFields v fs).chip := by
  obtain ⟨u, hrun, -, -, hstores⟩ := storesAt_fieldWrites s.cfg v fs s h rfl
  rw [runAll_fieldWrites h v fs] at hrun
  cases hrun
  exact hstores

theorem mem_frameStores {a : Byte} {k : Nat} (h : k ∈ frameStores a) : k = a.toNat := by
  rw [frameStores] at h
  split at h
  · cases h
  · exact List.mem_singleton.1 h

theorem notMem_fieldStores {c : Cfg} {fs : List Field} {k : Nat} (hw : k ≠ c.addrWp.toNat)
    (hf : ∀ f, k ≠ (fieldAddr c f).toNat) : k ∉ fs.flatMap fun f => guardedStores c (fieldAddr c f) := by
  intro hk
  obtain ⟨f, -, hk⟩ := List.mem_flatMap.1 hk
  obtain hk | hk := List.mem_append.1 hk
  · exact hw (mem_frameStores hk)
  · exact hf f (mem_frameStores hk)

theorem State.wroteField_kind (s : State) (f : Field) (v : Word16) : (s.wroteField f v).chip.kind = s.chip.kind :=
  s.guardWrote_kind _ _

/-- A field write puts its byte in its register and leaves the other calendar registers (R151). -/
theorem State.wroteField_cell {s : State} (hk : s.chip.kind = .reference) (hc : CfgOk s.cfg)
    (ho : protects s.cfg.wpOff = false) (f g : Field) (v : Word16) :
    (s.wroteField f v).chip.cell s.cfg (.field g) =
      if g = f then fieldByte s.cfg g v else s.chip.cell s.cfg (.field g) := by
  have hg := mem_regMap_field s.cfg g
  split
  next hgf =>
    subst hgf
    exact guardWrote_register hk hc ho hg nofun _
  next hgf =>
    have hother : (regAddr s.cfg (.field g)).toNat ≠ (regAddr s.cfg (.field f)).toNat :=
      regAddr_ne hc hg (mem_regMap_field s.cfg f) (by simpa using hgf)
    have hwp : (regAddr s.cfg (.field g)).toNat ≠ s.cfg.addrWp.toNat := regAddr_ne hc hg (mem_regMap_wp s.cfg) nofun
    exact congrArg (Option.getD · _) (guardWrote_other hk (fieldAddr s.cfg f) (fieldByte s.cfg f v) hother hwp)

/-- Every field written holds its byte, and every other calendar register is as before (R167). -/
theorem State.wroteFields_cell {s : State} (hk : s.chip.kind = .reference) (hc : CfgOk s.cfg)
    (ho : protects s.cfg.wpOff = false) (v : Field → Word16) (fs : List Field) (g : Field) :
    (s.wroteFields v fs).chip.cell s.cfg (.field g) =
      if g ∈ fs then fieldByte s.cfg g (v g) else s.chip.cell s.cfg (.field g) := by
  induction fs generalizing s with
  | nil => rfl
  | cons f fs ih =>
    refine (ih (s := s.wroteField f (v f)) ((s.wroteField_kind f (v f)).trans hk) hc ho).trans ?_
    have hone := State.wroteField_cell hk hc ho f g (v f)
    by_cases hfs : g ∈ fs
    · rw [if_pos hfs, if_pos (List.mem_cons_of_mem f hfs)]
      rfl
    · rw [if_neg hfs]
      refine hone.trans ?_
      by_cases hgf : g = f
      · subst hgf
        rw [if_pos rfl, if_pos List.mem_cons_self]
      · rw [if_neg hgf, if_neg (by simp [hgf, hfs])]

/-- The last write leaves `WP_ON` in `WP` (R132). -/
theorem State.wroteFields_wp {s : State} (hk : s.chip.kind = .reference) (hc : CfgOk s.cfg) (v : Field → Word16)
    (f : Field) (fs : List Field) : (s.wroteFields v (f :: fs)).chip.cell s.cfg .wp = s.cfg.wpOn := by
  induction fs generalizing s f with
  | nil => exact guardWrote_wp hk hc _ _
  | cons g fs ih => exact ih (s := s.wroteField f (v f)) ((s.wroteField_kind f (v f)).trans hk) hc g

/-! ### SET_DATETIME -/

/-- `SET_DATETIME` leaves what the seven field writes leave (R167). -/
theorem exec_setDatetime {s : State} (h : s.Ready) (y mo d wd hour mi sec : Word16) :
    exec (.setDatetime y mo d wd hour mi sec) s =
      .next (((s.accept (encode (.setDatetime y mo d wd hour mi sec))).wroteFields (tupleOf y mo d wd hour mi sec)
        snapshotOrder).respond .ok 0) := by
  refine exec_done (i := .setDatetime y mo d wd hour mi sec) h ?_
  rw [microOps_setDatetime]
  exact runAll_fieldWrites (h.framing _) _ _

theorem mem_snapshotOrder (f : Field) : f ∈ snapshotOrder := by cases f <;> decide

/-- On the reference peripheral `SET_DATETIME` leaves in every calendar register the byte of its element, and the launch
premises for the next operation (R167). -/
theorem exec_setDatetime_cell {s : State} (h : s.RefReady) (ho : protects s.cfg.wpOff = false)
    (y mo d wd hour mi sec : Word16) : ∃ t, exec (.setDatetime y mo d wd hour mi sec) s = .next t ∧ t.RefReady ∧
      t.cfg = s.cfg ∧ ∀ f, t.chip.cell s.cfg (.field f) = fieldByte s.cfg f (tupleOf y mo d wd hour mi sec f) := by
  obtain ⟨hready, hkind, hwf⟩ := h
  have hframing := hready.framing (encode (.setDatetime y mo d wd hour mi sec))
  refine ⟨_, exec_setDatetime hready y mo d wd hour mi sec, ⟨⟨?_, ?_⟩, ?_, ?_⟩, ?_, fun f => ?_⟩
  · exact (State.wroteFields_framing hframing _ _).respond_idle _ _
  · rw [State.respond_cfg, State.wroteFields_cfg]
    exact hready.2
  · rw [State.respond_chip]
    exact (State.wroteFields_stores hframing _ _).kind.trans hkind
  · rw [State.respond_cfg, State.wroteFields_cfg]
    exact hwf
  · rw [State.respond_cfg, State.wroteFields_cfg]
    rfl
  · rw [State.respond_chip]
    refine (State.wroteFields_cell (s := s.accept _) hkind (cfgOk s.cfg hwf) ho _ snapshotOrder f).trans ?_
    exact if_pos (mem_snapshotOrder f)

/-- In the event view the first field writes of `SET_DATETIME` take 156 steps each, after one for its acceptance, and
leave their bytes in their registers and `WP_ON` in `WP` (R167, R225). -/
theorem core_run_fieldWrites {s : State} (h : s.RefReady) (ho : protects s.cfg.wpOff = false)
    {y mo d wd hour mi sec : Word16} (hp : s.Presents (.setDatetime y mo d wd hour mi sec)) {f : Field}
    {fs gs : List Field} (hs : snapshotOrder = f :: fs ++ gs) :
    ∃ u, Host.Core.run Sys2Proof.core (156 * (f :: fs).length + 1) s = .next u ∧ u.chip.kind = .reference ∧
      (∀ g, u.chip.cell s.cfg (.field g) = if g ∈ f :: fs then fieldByte s.cfg g (tupleOf y mo d wd hour mi sec g)
        else s.chip.cell s.cfg (.field g)) ∧
      u.chip.cell s.cfg .wp = s.cfg.wpOn := by
  obtain ⟨hready, hkind, hwf⟩ := h
  have hc := cfgOk s.cfg hwf
  have hframing := hready.framing (encode (.setDatetime y mo d wd hour mi sec))
  have hops := microOps_setDatetime s.cfg y mo d wd hour mi sec
  rw [hs, List.flatMap_append] at hops
  have hrun := core_run_firstEvents hready hp hops (runAll_fieldWrites hframing _ _)
  rw [fieldWrites_length] at hrun
  exact ⟨_, hrun, (State.wroteFields_stores hframing _ _).kind.trans hkind,
    State.wroteFields_cell (s := s.accept _) hkind hc ho _ _, State.wroteFields_wp (s := s.accept _) hkind hc _ _ _⟩

end Sys2Proof.Machine
end

section
/-! SUPPORT. Field reads in a row as one update of the state, and what the reference peripheral makes of them
(42_field_accessors.md R150, R166). -/

namespace Sys2Proof.Machine

/-- What the reads of the fields `fs` and then of `f` leave, the byte of each field named by `r`, with the peripheral at
`p` and the levels `ls` still to come at the port `dio_in`. -/
def State.readFields (s : State) (fs : List Field) (f : Field) (r : Field → Byte) (ls : List Bool) (p : Chip) : State :=
  { s with sh := readAddr s.cfg (fieldAddr s.cfg f), acc := r f, t := r f, i := 7, dio := Pin.input, dioIn := ls,
           clk := Pin.driving false, cs := Pin.driving false, phase := .idle, chip := p,
           trace := ((fs ++ [f]).flatMap fun g => fieldReadEvents s.cfg g (r g)).reverse ++ s.trace,
           events := s.events + 52 * (fs ++ [f]).length, upc := s.upc + 52 * (fs ++ [f]).length,
           res := s.res ++ (fs ++ [f]).map fun g => fieldValue s.cfg g (r g) }

theorem State.readFields_nil (s : State) (f : Field) (r : Field → Byte) (ls : List Bool) (p : Chip) :
    s.readFields [] f r ls p = s.readField f (r f) ls p := by
  simp [State.readFields, State.readField, State.afterReadFrame, fieldReadEvents]

theorem State.readFields_cons (s : State) (g : Field) (fs : List Field) (f : Field) (r : Field → Byte)
    (ls ls' : List Bool) (p p' : Chip) :
    (s.readField g (r g) ls' p').readFields fs f r ls p = s.readFields (g :: fs) f r ls p := by
  simp [State.readFields, State.readField, State.afterReadFrame, fieldReadEvents]
  omega

theorem State.readFields_congr (s : State) {fs : List Field} {f : Field} {r r' : Field → Byte}
    (h : ∀ g ∈ fs ++ [f], r g = r' g) (ls : List Bool) (p : Chip) :
    s.readFields fs f r ls p = s.readFields fs f r' ls p := by
  have hevents := List.flatMap_congr (l := fs ++ [f]) (f := fun g => fieldReadEvents s.cfg g (r g))
    (g := fun g => fieldReadEvents s.cfg g (r' g)) fun g hg => by rw [h g hg]
  have hvalues := List.map_congr_left (l := fs ++ [f]) (f := fun g => fieldValue s.cfg g (r g))
    (g := fun g => fieldValue s.cfg g (r' g)) fun g hg => by rw [h g hg]
  rw [State.readFields, State.readFields, hevents, hvalues, h f (by simp)]

/-- Reads of different fields; on the reference peripheral each finds what its register holds, and none changes it. -/
theorem runAll_fieldReads_eq {fs : List Field} {f : Field} (hn : (fs ++ [f]).Nodup) {s : State} (h : s.Framing) :
    ∃ r ls p, runAll ((fs ++ [f]).flatMap fun g => fieldRead s.cfg g) s = .done (s.readFields fs f r ls p) ∧
      (s.chip.kind = .external → p = s.chip) ∧
      (s.chip.kind = .reference → CfgOk s.cfg →
        p.cells = s.chip.cells ∧ ∀ g ∈ fs ++ [f], r g = s.chip.cell s.cfg (.field g)) := by
  induction fs generalizing s with
  | nil =>
    obtain ⟨b, ls, p, hread, hext, href⟩ := runAll_fieldRead s h f s.cfg rfl
    refine ⟨fun _ => b, ls, p, ?_, hext, fun hk hc => ?_⟩
    · rw [State.readFields_nil, List.nil_append, List.flatMap_singleton]
      exact hread
    · obtain ⟨hb, hcells, -⟩ := href hk hc
      refine ⟨hcells, fun g hg => ?_⟩
      rw [List.mem_singleton.1 hg]
      exact hb
  | cons g fs ih =>
    obtain ⟨hg, hn⟩ := List.nodup_cons.1 hn
    obtain ⟨b, ls', p', hread, hext', href'⟩ := runAll_fieldRead s h g s.cfg rfl
    obtain ⟨r, ls, p, hrun, hext, href⟩ := ih hn (State.readField_framing h g b ls' p')
    have hb : Function.update r g b g = b := Function.update_self ..
    have hr : ∀ x ∈ fs ++ [f], Function.update r g b x = r x := fun x hx =>
      Function.update_of_ne (ne_of_mem_of_not_mem hx hg) ..
    refine ⟨Function.update r g b, ls, p, ?_, fun hk => ?_, fun hk hc => ?_⟩
    · rw [← State.readFields_cons s g fs f _ ls ls' p p', State.readFields_congr _ hr, hb]
      exact (runAll_append_done hread).trans hrun
    · exact (hext ((congrArg Chip.kind (hext' hk)).trans hk)).trans (hext' hk)
    · obtain ⟨hbyte, hcells', hkind⟩ := href' hk hc
      obtain ⟨hcells, hbytes⟩ := href hkind hc
      refine ⟨hcells.trans hcells', fun x hx => ?_⟩
      obtain rfl | hx := List.mem_cons.1 hx
      · rw [hb, hbyte]
      · rw [hr x hx, hbytes x hx, Chip.cell_eq, Chip.cell_eq]
        exact congrArg (cellOf s.cfg · _) hcells'

/-- `GET_DATETIME` leaves what the seven field reads leave, and answers their values (R166). -/
theorem exec_getDatetime_eq {s : State} (h : s.Ready) : ∃ r ls p, exec .getDatetime s = .next
      (((s.accept (encode .getDatetime)).readFields [.year, .month, .day, .weekday, .hour, .minute] .second
        r ls p).respond .ok (packElements (snapshotOrder.map fun f => fieldValue s.cfg f (r f)))) ∧
      (s.chip.kind = .external → p = s.chip) ∧
      (s.RefReady → p.cells = s.chip.cells ∧ ∀ f, r f = s.chip.cell s.cfg (.field f)) := by
  obtain ⟨r, ls, p, hrun, hext, href⟩ := runAll_fieldReads_eq (fs := [.year, .month, .day, .weekday, .hour, .minute])
    (f := .second) (by decide) (h.framing (encode .getDatetime))
  refine ⟨r, ls, p, exec_done (i := .getDatetime) h hrun, hext, fun ⟨_, hkind, hwf⟩ => ?_⟩
  obtain ⟨hcells, hbytes⟩ := href hkind (cfgOk s.cfg hwf)
  exact ⟨hcells, fun f => hbytes f (mem_snapshotOrder f)⟩

end Sys2Proof.Machine
end

section
/-! PROOFS. The statements of the field accessors (42_field_accessors.md R150 to R172; 70_reset_and_hazards.md R225,
R227). -/

namespace Sys2Proof.Machine

/-- Settles O24: the value that a field read answers, with its offset written out. -/
theorem getFieldDecodesAndReduces : Obligations.GetFieldDecodesAndReduces := by
  intro s f h hwf
  obtain ⟨p, hexec, -⟩ := exec_getOf h f (readAddr_eq (cfgOk s.cfg hwf) _).symm rfl
  refine ⟨_, _, hexec, ⟨rfl, ?_, rfl, rfl⟩, ⟨rfl, rfl, rfl, rfl, rfl⟩, rfl, fun hd => ?_⟩
  · rw [← fieldOffset_eq]
    rfl
  · rw [hd]
    exact ⟨fieldModulus_default f, rfl⟩

/-- Settles O25: a field write is the guarded write of the field's BCD byte. -/
theorem setFieldWritesReducedBcd : Obligations.SetFieldWritesReducedBcd := by
  intro s f v h
  exact ⟨_, exec_guardedWrite_eq h (guardedTarget_setOf s.cfg f v), ⟨rfl, rfl, rfl, rfl⟩, ⟨rfl, rfl, rfl, rfl, rfl⟩,
    fun hd => hd ▸ fieldModulus_default f⟩

/-- Settles O29: seven field reads in a row, the last of `SECOND`. -/
theorem getDatetimeReadsTheTuple : Obligations.GetDatetimeReadsTheTuple := by
  intro s h
  obtain ⟨r, ls, p, hexec, hext, href⟩ := exec_getDatetime_eq h
  exact ⟨r, ls, p, hexec, hext, href⟩

/-- Settles O30: seven field writes in a row, each of which stores only at its field and at `WP`. -/
theorem setDatetimeWritesTheTuple : Obligations.SetDatetimeWritesTheTuple := by
  intro s y mo d wd hour mi sec h
  have hstores := State.wroteFields_stores (h.framing (encode (.setDatetime y mo d wd hour mi sec)))
    (tupleOf y mo d wd hour mi sec) snapshotOrder
  have heq := State.wroteFields_eq (s.accept (encode (.setDatetime y mo d wd hour mi sec)))
    (tupleOf y mo d wd hour mi sec) .year [.month, .day, .weekday, .hour, .minute, .second]
  exact ⟨_, (exec_setDatetime h y mo d wd hour mi sec).trans
      (congrArg (fun u => Host.Outcome.next (State.respond u .ok 0)) heq), hstores.external,
    fun href k hw hf => hstores.reference href.2.1 k (notMem_fieldStores hw hf)⟩

/-- Settles O41: the write puts the BCD byte in the register, the read finds it there and decodes it. -/
theorem fieldRoundTrip : Obligations.FieldRoundTrip := by
  intro s f v h ho
  obtain ⟨t, hwrite, ht, hcfg, hcell⟩ :=
    exec_guardedWrite_register h ho (mem_regMap_field s.cfg f) nofun (guardedTarget_setOf s.cfg f v)
  obtain ⟨u, hread, hrsp⟩ := exec_getOf_rsp ht f
  refine ⟨t, u, hwrite, hread, ?_⟩
  rw [hrsp, hcfg, hcell, fieldValue_fieldByte (cfgOk s.cfg h.2.2)]

/-- Settles O42: both operations name their cell by the index modulo `RAM_CELLS`. -/
theorem ramAliasRoundTrip : Obligations.RamAliasRoundTrip := by
  intro s i j b h ho hij
  obtain ⟨t, hwrite, ht, hcfg, hcell⟩ :=
    exec_guardedWrite_register (i := .writeRam i b) h ho (mem_regMap_ramIndex (cfgOk s.cfg h.2.2) i) nofun rfl
  obtain ⟨u, hread, hrsp⟩ := exec_readRam_rsp ht j
  have hcells : ramIndex s.cfg j = ramIndex s.cfg i := hij.symm
  refine ⟨t, u, hwrite, hread, ?_⟩
  rw [hrsp, hcfg, hcells, hcell]

/-- Settles O43: the reads find in every calendar register the byte of its element. -/
theorem datetimeRoundTrip : Obligations.DatetimeRoundTrip := by
  intro s y mo d wd hour mi sec h ho
  obtain ⟨t, hwrite, ht, hcfg, hcell⟩ := exec_setDatetime_cell h ho y mo d wd hour mi sec
  obtain ⟨r, ls, p, hread, -, href⟩ := exec_getDatetime_eq ht.1
  obtain ⟨-, hbytes⟩ := href ht
  refine ⟨t, _, hwrite, hread, ?_⟩
  have hvalue : ∀ f, fieldValue t.cfg f (r f) = BitVec.ofNat 16
      ((tupleOf y mo d wd hour mi sec f).toNat % fieldModulus s.cfg f + fieldOffset s.cfg f) := fun f => by
    rw [hbytes f, hcfg, hcell f, fieldValue_fieldByte (cfgOk s.cfg h.2.2)]
  simp only [State.respond_rsp, hvalue]
  rfl

/-- Settles O45: the read finds the second with 8 added to its tens digit. -/
theorem haltedSecondReadsWrong : Obligations.HaltedSecondReadsWrong := by
  intro s x h _ hm hx hcell
  obtain ⟨t, hexec, hrsp⟩ := exec_getOf_rsp h .second
  refine ⟨t, hexec, ?_⟩
  rw [hrsp, hcell, fieldValue_second_halted hm hx]

/-- Settles O46: both leave in `SECOND` the BCD byte of a number below 60. -/
theorem setSecondStartsTheOscillator : Obligations.SetSecondStartsTheOscillator := by
  intro s y mo d wd hour mi sec h ho hbit hm
  have hclear := clockHalted_fieldByte_second hbit hm sec
  refine ⟨?_, ?_⟩
  · obtain ⟨t, hexec, -, -, hcell⟩ := exec_guardedWrite_register h ho (mem_regMap_field s.cfg .second) nofun
      (guardedTarget_setOf s.cfg .second sec)
    exact ⟨t, hexec, by rw [hcell, hclear]⟩
  · obtain ⟨t, hexec, -, -, hcell⟩ := exec_setDatetime_cell h ho y mo d wd hour mi sec
    exact ⟨t, hexec, by rw [hcell .second]; exact hclear⟩

/-- Settles O55: the first 468 events are the writes of the first three fields, and a reset keeps the registers. -/
theorem cutDatetimeIsTorn : Obligations.CutDatetimeIsTorn := by
  intro s y mo d wd hour mi sec h ho hreset hstepping hcmd
  obtain ⟨u, hrun, hkind, hcell, hwp⟩ := core_run_fieldWrites h ho ⟨hreset, hstepping, hcmd⟩
    (show snapshotOrder = [.year, .month, .day] ++ [.weekday, .hour, .minute, .second] from rfl)
  obtain ⟨v, hstep, hcells, -⟩ := step_resetPin (u := u) (by rw [hkind]; nofun)
  have hkept : ∀ x, v.chip.cell s.cfg x = u.chip.cell s.cfg x := fun x => congrArg (cellOf s.cfg · x) hcells
  have hnew : ∀ f ∈ [Field.year, .month, .day],
      v.chip.cell s.cfg (.field f) = fieldByte s.cfg f (tupleOf y mo d wd hour mi sec f) := fun f hf =>
    (hkept _).trans ((hcell f).trans (if_pos hf))
  have hold : ∀ f ∈ [Field.weekday, .hour, .minute, .second], f ∉ [Field.year, .month, .day] := by decide
  exact ⟨u, v, hrun, hstep, hnew .year (by decide), hnew .month (by decide), hnew .day (by decide),
    fun f hf => (hkept _).trans ((hcell f).trans (if_neg (hold f hf))), (hkept _).trans hwp⟩

end Sys2Proof.Machine
end

section
/-! SUPPORT. The BCD commands: an operation without line events answers at once, and what the two formulas make of each
other's answer (43_bcd.md R180 to R182). -/

namespace Sys2Proof.Machine

/-! ### The formulas undo each other (R182) -/

theorem bcd2dec_dec2bcd (n : Nat) : bcd2dec (dec2bcd n) = n := by
  simp only [bcd2dec, dec2bcd]; omega

theorem dec2bcd_bcd2dec {n : Nat} (h : n % 16 ≤ 9) : dec2bcd (bcd2dec n) = n := by
  simp only [bcd2dec, dec2bcd]; omega

/-- The low byte of a number's value is the number, if that is a byte. -/
theorem toNat_lowByte_scalar {n : Nat} (h : n < 256) :
    ((scalar (BitVec.ofNat 16 n)).extractLsb' 0 8).toNat = n := by
  simp only [scalar, BitVec.extractLsb'_toNat, BitVec.toNat_setWidth, BitVec.toNat_ofNat, Nat.shiftRight_zero]
  omega

theorem scalar_ofNat_toNat (n : Byte) : scalar (BitVec.ofNat 16 n.toNat) = byteValue n := by
  have := n.isLt
  apply BitVec.eq_of_toNat_eq
  simp only [scalar, byteValue, BitVec.toNat_setWidth, BitVec.toNat_ofNat]
  omega

/-! ### An operation without line events -/

theorem exec_noEvents {s : State} {i : Instr} (h : s.Accepting) (hi : microOps s.cfg i = []) :
    exec i s = .next (s.answered i [] (resultOf i (s.accept (encode i)))) :=
  (exec_eq_operate i s).trans (operate_done (u := s.accept (encode i)) (h.refusal _) (by rw [hi]; rfl))

theorem State.Accepting.answered {s : State} (h : s.Accepting) (i : Instr) (es : List Word16) (v : Payload) :
    (s.answered i es v).Accepting := ⟨rfl, h.2⟩

theorem State.ran_answered (s : State) (i : Instr) (es : List Word16) (v : Payload) :
    s.Ran (s.answered i es v) [] v := ⟨rfl, rfl, rfl, rfl⟩

theorem exec_dec2bcd {s : State} (h : s.Accepting) (n : Byte) :
    exec (.dec2bcd n) s = .next (s.answered (.dec2bcd n) [] (scalar (BitVec.ofNat 16 (dec2bcd n.toNat)))) :=
  exec_noEvents h rfl

theorem exec_bcd2dec {s : State} (h : s.Accepting) (n : Byte) :
    exec (.bcd2dec n) s = .next (s.answered (.bcd2dec n) [] (scalar (BitVec.ofNat 16 (bcd2dec n.toNat)))) :=
  exec_noEvents h rfl

end Sys2Proof.Machine
end

section
/-! PROOFS. The statements of the BCD commands (43_bcd.md). -/

namespace Sys2Proof.Machine

/-- Settles O35: the first command leaves the controller accepting, its answer fits the byte that the second takes, and
the second formula undoes the first. -/
theorem bcdCommandsRoundTrip : Obligations.BcdCommandsRoundTrip := by
  refine fun s n h => ⟨fun hn => ?_, fun _ hunits => ?_⟩
  · refine ⟨_, _, exec_dec2bcd h n, exec_bcd2dec (h.answered ..) _, congrArg (Rsp.mk .ok) ?_⟩
    calc scalar (BitVec.ofNat 16 (bcd2dec ((scalar (BitVec.ofNat 16 (dec2bcd n.toNat))).extractLsb' 0 8).toNat))
      _ = scalar (BitVec.ofNat 16 n.toNat) := by rw [toNat_lowByte_scalar (dec2bcd_lt _ hn), bcd2dec_dec2bcd]
      _ = byteValue n := scalar_ofNat_toNat n
  · have hfits : bcd2dec n.toNat < 256 := (bcd2dec_le n).trans_lt (by decide)
    refine ⟨_, _, exec_bcd2dec h n, exec_dec2bcd (h.answered ..) _, congrArg (Rsp.mk .ok) ?_⟩
    calc scalar (BitVec.ofNat 16 (dec2bcd ((scalar (BitVec.ofNat 16 (bcd2dec n.toNat))).extractLsb' 0 8).toNat))
      _ = scalar (BitVec.ofNat 16 n.toNat) := by rw [toNat_lowByte_scalar hfits, dec2bcd_bcd2dec hunits]
      _ = byteValue n := scalar_ofNat_toNat n

/-- Settles O34: neither command has a line event, so only the acceptance and the response change the state. -/
theorem bcdCommandsLeaveTheRest : Obligations.BcdCommandsLeaveTheRest :=
  fun _ n h => ⟨exec_dec2bcd h n, exec_bcd2dec h n⟩

/-- Settles O32: the answer and the lines are those of the state that `DEC2BCD` leaves. -/
theorem dec2bcdInRange : Obligations.Dec2bcdInRange :=
  fun s n h _ => ⟨_, exec_dec2bcd h n, s.ran_answered .., rfl, rfl, rfl⟩

/-- Settles O33: the answer and the lines are those of the state that `BCD2DEC` leaves. -/
theorem bcd2decInRange : Obligations.Bcd2decInRange :=
  fun s n h _ _ => ⟨_, exec_bcd2dec h n, s.ran_answered .., rfl, rfl, rfl⟩

end Sys2Proof.Machine
end

section
/-! SUPPORT. How an accepted operation ends: all its line events happen and the lines are idle again, or one fails and
the operation ends there (60_exceptions.md R190, R193, R197; 70_reset_and_hazards.md R222, R240). -/

namespace Sys2Proof.Machine

/-! ### Completion -/

theorem State.Framing.shifting {s : State} (h : s.Framing) : s.Shifting false :=
  ⟨h.faults, h.clkDir, h.clkLvl, Pin.wire_of h.csDir h.csLvl⟩

/-- The four events of `INIT` make the lines idle, whatever they were (R220). -/
theorem State.idling_framing {s : State} (hf : s.cfg.lineFaults = false) : s.idling.Framing := by
  obtain ⟨p, hp, -⟩ := s.idling_eq
  rw [hp]
  exact ⟨hf, rfl, rfl, rfl, rfl⟩

/-- A byte sent or received moves `CLK` back to low, and leaves `CS` as it was (R121, R122). -/
theorem State.Framing.shiftOut {s : State} (h : s.Framing) (src : ByteSource) :
    ∃ u, runAll (Machine.shiftOut src) s = .done u ∧ u.Framing := by
  obtain ⟨p, hline⟩ := byteOut_line s false (src.value s)
  refine ⟨_, runAll_shiftOut src s false h.shifting, ?_⟩
  rw [hline]
  exact ⟨h.faults, rfl, rfl, h.csDir, h.csLvl⟩

theorem State.Framing.shiftIn {s : State} (h : s.Framing) : ∃ u, runAll Machine.shiftIn s = .done u ∧ u.Framing := by
  obtain ⟨ls, p, hline⟩ := byteIn_line s false
  refine ⟨_, runAll_shiftIn s false h.shifting, ?_⟩
  rw [hline]
  exact ⟨h.faults, rfl, rfl, h.csDir, h.csLvl⟩

/-- Where no line can fail, the line events of every operation happen and leave the lines as they must be for the next;
`INIT` needs no premise on the lines. -/
theorem runAll_microOps_framing {s : State} {i : Instr} (hf : s.cfg.lineFaults = false)
    (hi : i ≠ .init → s.Framing) : ∃ u, runAll (microOps s.cfg i) s = .done u ∧ u.Framing := by
  cases hframed : isFramed i with
  | true =>
    have hframing : s.Framing := hi (by rintro rfl; cases hframed)
    obtain ⟨u, hrun, hu, -, -⟩ := storesAt_microOps s.cfg i hframed s hframing rfl
    exact ⟨u, hrun, hu⟩
  | false =>
    cases i with
    | init =>
      obtain ⟨hfaults, hclkDir, hclkLvl, hcsDir, hcsLvl⟩ := State.idling_framing hf
      exact ⟨_, runAll_initOps s hf, hfaults, hclkDir, hclkLvl, hcsDir, hcsLvl⟩
    | writeByte b => exact (hi nofun).shiftOut (.lit b)
    | readByte => exact (hi nofun).shiftIn
    | dec2bcd n | bcd2dec n => exact ⟨s, rfl, hi nofun⟩
    | _ => cases hframed

/-- Under the launch premises, for `INIT` only those on the controller, an operation responds with `OK` (R190, R222). -/
theorem exec_completes {s : State} {i : Instr} (hb : s.busy = false) (hf : s.cfg.lineFaults = false)
    (hi : i ≠ .init → s.Idle) : ∃ u, runAll (microOps s.cfg i) (s.accept (encode i)) = .done u ∧ u.Framing ∧
      exec i s = .next (u.respond .ok (resultOf i u)) := by
  obtain ⟨u, hrun, hu⟩ := runAll_microOps_framing (s := s.accept (encode i)) (i := i) hf
    fun h => State.Ready.framing ⟨hi h, hf⟩ _
  exact ⟨u, hrun, hu,
    (exec_eq_operate i s).trans (operate_done (State.refusal_needsInit hb fun h => (hi h).accepting) hrun)⟩

/-! ### Failure -/

/-- Without line faults a run touches neither whether lines may fail nor the script of failures. -/
theorem runAll_keeps_faults {ms : List Micro} {s u : State} {l : List Bool}
    (h : runAll ms (s.withFaults false l) = .done u) : u = u.withFaults false l := by
  induction ms generalizing s with
  | nil => cases h; rfl
  | cons m ms ih =>
    have hm : perform m (s.withFaults false l) = (performOk m s).mapState (·.withFaults false l) :=
      (perform_eq _ _ rfl).trans (performOk_faults ..)
    rw [runAll, hm] at h
    cases hok : performOk m s with
    | done v => rw [hok] at h; exact ih h
    | failed v => rw [hok] at h; cases h
    | stuck f => rw [hok] at h; cases h

theorem State.withFaults_self {s : State} {b : Bool} {l : List Bool} (hf : s.cfg.lineFaults = b)
    (hl : s.lineFail = l) : s.withFaults b l = s := by
  subst hf hl; rfl

theorem State.accept_withFaults (s : State) (b : Bool) (l : List Bool) (w : Command) :
    (s.withFaults b l).accept w = (s.accept w).withFaults b l := rfl

/-- An accepted operation ends where one of its line events fails (R193). -/
theorem exec_failed {i : Instr} {s u : State} (h : s.refusal (needsInit i) = none)
    (hr : runAll (microOps s.cfg i) (s.accept (encode i)) = .failed u) : exec i s = .next u.endLineFault := by
  rw [exec_eq_operate]
  simp only [operate, h, finish, hr]

/-! ### Refusals and faults -/

theorem State.refusal_busy {s : State} (h : s.busy = true) (b : Bool) : s.refusal b = some .commandWhileBusy :=
  if_pos h

theorem exec_of_refusal {i : Instr} {s : State} {r : Refusal} (h : s.refusal (needsInit i) = some r) :
    exec i s = .refused r := by
  rw [exec_eq_operate]
  simp only [operate, h]

theorem exec_ne_fault (i : Instr) (s : State) (f : Fault) : exec i s ≠ .fault f := by
  obtain ⟨r, hr⟩ | ⟨hb, hi⟩ := exec_refused i s
  · rw [hr]; nofun
  · obtain ⟨u, d, -, -, he⟩ | ⟨-, u, -, he⟩ := exec_ends i s hb hi <;> rw [he] <;> nofun

/-- A command presented is run, accepted, refused or answered as illegal: none of these faults. -/
theorem takeCommand_ne_fault (w : Command) (s : State) (f : Fault) : takeCommand w s ≠ .fault f := by
  simp only [takeCommand]
  split
  next => split <;> nofun
  next i _ =>
    split
    next => exact exec_ne_fault i s f
    next =>
      simp only [beginOp]
      split <;> nofun

/-- The running operation faults only if there is none, or if its next line event breaks the line contract. -/
theorem sequence_fault {s : State} {f : Fault} (h : sequence s = .fault f) :
    (∃ e, decode s.c = .error e) ∨
    ∃ op m, decode s.c = .ok op ∧ (microOps s.cfg op)[s.upc]? = some m ∧ perform m s = .stuck f := by
  simp only [sequence] at h
  split at h
  next e hd => exact .inl ⟨e, hd⟩
  next op hd =>
    split at h
    next => cases h
    next m hm =>
      split at h
      next => cases h
      next => cases h
      next hp => cases h; exact .inr ⟨op, m, hd, hm, hp⟩

/-- A fault can come only from a running operation. -/
theorem step_fault {s : State} {f : Fault} (h : step s = .fault f) : s.busy = true ∧ sequence s = .fault f := by
  simp only [step] at h
  split at h
  next => cases h
  next =>
    split at h
    next hb =>
      split at h
      next => cases h
      next => exact ⟨hb, h⟩
    next =>
      split at h
      next w _ => exact absurd h (takeCommand_ne_fault w s f)
      next => cases h

theorem State.SequencerSound.decodes {s : State} (h : s.SequencerSound) (hb : s.busy = true) :
    ∃ op, decode s.c = .ok op := by
  simp only [State.SequencerSound, hb, if_true] at h
  obtain ⟨op, hd, -⟩ := h
  exact ⟨op, hd⟩

/-- The events left of a sound sequencer keep the line contract, the next one first. -/
theorem State.SequencerSound.sequence_ne_fault {s : State} (h : s.SequencerSound) (hb : s.busy = true) (f : Fault) :
    sequence s ≠ .fault f := by
  intro hf
  obtain ⟨e, he⟩ | ⟨op, m, hd, hm, hp⟩ := sequence_fault hf
  · obtain ⟨op, hd⟩ := h.decodes hb
    cases he.symm.trans hd
  · obtain ⟨hlt, hget⟩ := List.getElem?_eq_some_iff.1 hm
    apply h.contract hb hd f
    rw [List.drop_eq_getElem_cons hlt, hget, runAll, hp]

end Sys2Proof.Machine
end

section
/-! PROOFS. The statements of how operations end (60_exceptions.md R190 to R197). -/

namespace Sys2Proof.Machine

/-- Settles O9: the line events happen, as many as the operation has, and the lines are idle after the last. -/
theorem everyOperationCompletes : Obligations.EveryOperationCompletes := by
  intro i s hb hf hi
  obtain ⟨u, hrun, hu, hexec⟩ := exec_completes hb hf hi
  obtain ⟨hkept, -, -, ⟨es, htrace, hshape⟩, -⟩ := runAll_followed hrun
  have hlength : es.length = eventCount i := by
    simpa [microOps_length] using congrArg List.length hshape
  exact ⟨_, es, hexec, ⟨htrace, rfl, rfl, hkept.cfg⟩, hlength, hu.respond_idle _ _⟩

/-- Settles O10: an operation that keeps the line contract is never stuck, so it responds with `OK`, or ends at an event
that fails, which needs lines that may. -/
theorem operationsEndOkOrInALineFault : Obligations.OperationsEndOkOrInALineFault := by
  intro i s hb hi
  obtain ⟨u, d, -, -, hexec⟩ | ⟨hfaults, u, -, hexec⟩ := exec_ends i s hb fun h => (hi h).2
  · exact ⟨_, hexec, rfl, rfl, .inl rfl⟩
  · exact ⟨_, hexec, rfl, rfl, .inr ⟨hfaults, rfl⟩⟩

/-- Settles O52: no event reads the script of failures, so up to the first that fails the run is the run without
faults. -/
theorem lineFaultEndsWhereItStands : Obligations.LineFaultEndsWhereItStands := by
  intro s i k rest hidle hfaults hk hscript
  generalize hl : List.replicate k false ++ true :: rest = l at hscript
  have hlt : k < (microOps s.cfg i).length := by rwa [microOps_length]
  have hfaulty : s.withFaults true l = s := State.withFaults_self hfaults hscript
  have hsound : { s with cfg := { s.cfg with lineFaults := false } } = s.withFaults false l := by rw [← hscript]; rfl
  obtain ⟨u, hrun, -, hexec⟩ := exec_completes (s := s.withFaults false l) (i := i) hidle.1 rfl fun _ => hidle
  rw [show microOps (s.withFaults false l).cfg i = microOps s.cfg i from microOps_faults .., State.accept_withFaults]
    at hrun
  obtain ⟨v, hbefore, hfailed⟩ := runAll_fails _ _ u k l rest hlt (runAll_keeps_faults hrun ▸ hrun)
  rw [hl, ← State.accept_withFaults, hfaulty] at hfailed
  obtain ⟨es, hu, hv, -⟩ := runAll_take_trace hbefore hrun hlt.le
  rw [hsound]
  exact ⟨_, _, es, exec_failed (hidle.accepting.refusal _) hfailed, hexec, hu, hv, rfl, rfl, rfl⟩

/-- Settles O59: a fault can come only from the running operation, whose events left keep the line contract. -/
theorem invariantStatesNeverFault : Obligations.InvariantStatesNeverFault := by
  intro s f h hf
  obtain ⟨hb, hsequence⟩ := step_fault hf
  exact h.sequencer.sequence_ne_fault hb f hsequence

/-- Settles O7: the step looks at the port before it goes on with the operation, and every meaning looks at `busy`
first. -/
theorem commandWhileBusyIsRefused : Obligations.CommandWhileBusyIsRefused := by
  refine ⟨fun s w hr hb hc => ?_, fun s i hb => exec_of_refusal (State.refusal_busy hb _)⟩
  simp only [step, hr, hb, hc, Bool.false_eq_true, if_false, if_true]

end Sys2Proof.Machine
end

section
/-! SUPPORT. What `INIT` answers, and what an operation meets before it (70_reset_and_hazards.md R220, R222). -/

namespace Sys2Proof.Machine

/-- A controller with `CLK` or `CS` not an output accepts no command that needs `INIT` (R222 (a)). -/
theorem State.refusal_notInitialised {s : State} (hb : s.busy = false) (h : ¬(s.clk.dir = .out ∧ s.cs.dir = .out)) :
    s.refusal true = some .notInitialised := by
  have hinit : s.initialised = false := decide_eq_false h
  simp [State.refusal, hb, hinit]

/-- `INIT` latches its word, performs its four events and responds, which sets the `upc` they counted back to 0 (R25,
R220). -/
theorem exec_init {s : State} (hb : s.busy = false) (hf : s.cfg.lineFaults = false) :
    exec .init s = .next ((s.accept (encode .init)).idling.respond .ok 0) :=
  (operate_done (State.refusal_false hb) (runAll_initOps (s.accept (encode .init)) hf)).trans rfl

end Sys2Proof.Machine
end

section
/-! PROOFS. The statements of `INIT`, of reset and of what runs before them (70_reset_and_hazards.md R220 to R222). -/

namespace Sys2Proof.Machine

/-- Settles O11: the four events are one update of the state that the acceptance leaves. -/
theorem initSetsTheIdleLines : Obligations.InitSetsTheIdleLines := by
  intro s hb hf
  obtain ⟨p, hidling, hcells, hkept⟩ := (s.accept (encode .init)).idling_eq
  refine ⟨p, ?_, hcells, fun ⟨_, hclkDir, hcsDir, hclkLvl, hcsLvl⟩ => hkept hclkDir hcsDir hclkLvl hcsLvl⟩
  rw [exec_init hb hf, hidling]
  rfl

/-- Settles O12: reset comes before all else in a step, and performs the four events on the cleared sequencer. -/
theorem resetAbandonsTheOperation : Obligations.ResetAbandonsTheOperation := by
  intro s hr
  obtain ⟨p, hreset, hcells⟩ := s.resetNow_eq
  have hstep : step s = .next s.resetNow := if_pos hr
  exact ⟨_, _, _, _, _, p, hstep.trans (congrArg _ hreset), hcells⟩

/-- Settles O8: every operation but `INIT` asks for initialised lines before anything else happens. -/
theorem nothingRunsBeforeInit : Obligations.NothingRunsBeforeInit := by
  intro s i hb hdirs hi
  have hneeds : needsInit i = true := (needsInit_eq i).trans (decide_eq_true hi)
  exact exec_of_refusal (hneeds ▸ State.refusal_notInitialised hb hdirs)

end Sys2Proof.Machine
end
